-- ==== Sys2Proof/Word.lean ====
section
/-! DEFINITION. The widths of the machine's words (rule R6: every stored value is an unsigned bit vector of a stated width). -/

namespace Sys2Proof

/-- An 8-bit register or a byte of memory. -/
abbrev Byte := BitVec 8

/-- A 16-bit register pair or a bus address. -/
abbrev Word := BitVec 16

end Sys2Proof
end

