-- ==== Sys2Proof/Machine/Bits.lean ====
section
/-! DEFINITION. Joining, splitting and extending words (rules R5, R6, R100). -/

namespace Sys2Proof

/-- `h ++ l`: the word whose high byte is `h` (rule R5). -/
def cat (h l : Byte) : Word := h ++ l

/-- `v[7:0]`. -/
def loByte (v : Word) : Byte := v.extractLsb' 0 8

/-- `v[15:8]`. -/
def hiByte (v : Word) : Byte := v.extractLsb' 8 8

/-- `sext_16` (rule R5): bit 7 of the byte is copied into the high half. -/
def sext16 (e : Byte) : Word := e.signExtend 16

/-- `zext_16` (rule R5). -/
def zext16 (n : Byte) : Word := n.setWidth 16

/-- The address `0xFF00 + zext_16(n)` of the LDH forms (rules R136, R171 to R174). -/
def highPage (n : Byte) : Word := 0xFF00#16 + zext16 n

/-- A field of an opcode byte: `len` bits from bit `lo` up, as a number (rule R131). -/
def opField (op : Byte) (lo len : Nat) : Nat := (op.extractLsb' lo len).toNat

end Sys2Proof
end

