-- ==== Sys2Proof/Syntax.lean ====
section
/-! DEFINITION. The instructions, one constructor per row of spec/opcode_table.json, with operands decoded to names. -/

namespace Sys2Proof

/-- The 8-bit registers an operand field can name (rule R22; code 6 is the memory operand `(HL)`, which has rows of its own). -/
inductive R8 where
  | b | c | d | e | h | l | a
  deriving DecidableEq, Repr

/-- The pair table `rp` (rule R23). -/
inductive RP where
  | bc | de | hl | sp
  deriving DecidableEq, Repr

/-- The pair table `rp2` of PUSH and POP (rule R23). -/
inductive RP2 where
  | bc | de | hl | af
  deriving DecidableEq, Repr

/-- The condition field (rule R135). -/
inductive Cond where
  | nz | z | nc | c
  deriving DecidableEq, Repr

/-- The rows of the opcode table. A bit number or restart index is a `Nat` that `Instr.wellFormed` bounds by 8. -/
inductive Instr where
  -- 40_load8.md
  | ldRR (rd rs : R8)
  | ldRN (rd : R8) (n : Byte)
  | ldRHl (rd : R8)
  | ldHlR (rs : R8)
  | ldHlN (n : Byte)
  | ldABc
  | ldADe
  | ldBcA
  | ldDeA
  | ldANn (nn : Word)
  | ldNnA (nn : Word)
  | ldhAC
  | ldhCA
  | ldhAN (n : Byte)
  | ldhNA (n : Byte)
  | ldAHlDec
  | ldHlDecA
  | ldAHlInc
  | ldHlIncA
  -- 41_load16_stack.md
  | ldRrNn (p : RP) (nn : Word)
  | ldNnSp (nn : Word)
  | ldSpHl
  | push (q : RP2)
  | pop (q : RP2)
  -- 42_alu8.md
  | addAR (rs : R8)
  | addAHl
  | addAN (n : Byte)
  | adcAR (rs : R8)
  | adcAHl
  | adcAN (n : Byte)
  | subAR (rs : R8)
  | subAHl
  | subAN (n : Byte)
  | sbcAR (rs : R8)
  | sbcAHl
  | sbcAN (n : Byte)
  | andAR (rs : R8)
  | andAHl
  | andAN (n : Byte)
  | xorAR (rs : R8)
  | xorAHl
  | xorAN (n : Byte)
  | orAR (rs : R8)
  | orAHl
  | orAN (n : Byte)
  | cpAR (rs : R8)
  | cpAHl
  | cpAN (n : Byte)
  | incR (rd : R8)
  | incHl
  | decR (rd : R8)
  | decHl
  | daa
  | cpl
  | scf
  | ccf
  -- 43_alu16.md
  | addHlRr (p : RP)
  | incRr (p : RP)
  | decRr (p : RP)
  | addSpE (e : Byte)
  | ldHlSpE (e : Byte)
  -- 44_rotate_shift_bit.md
  | rlca
  | rrca
  | rla
  | rra
  | rlcR (rs : R8)
  | rlcHl
  | rrcR (rs : R8)
  | rrcHl
  | rlR (rs : R8)
  | rlHl
  | rrR (rs : R8)
  | rrHl
  | slaR (rs : R8)
  | slaHl
  | sraR (rs : R8)
  | sraHl
  | swapR (rs : R8)
  | swapHl
  | srlR (rs : R8)
  | srlHl
  | bitR (b : Nat) (rs : R8)
  | bitHl (b : Nat)
  | resR (b : Nat) (rs : R8)
  | resHl (b : Nat)
  | setR (b : Nat) (rs : R8)
  | setHl (b : Nat)
  -- 45_control.md
  | jpNn (nn : Word)
  | jpCcNn (cc : Cond) (nn : Word)
  | jpHl
  | jrE (e : Byte)
  | jrCcE (cc : Cond) (e : Byte)
  | callNn (nn : Word)
  | callCcNn (cc : Cond) (nn : Word)
  | ret
  | retCc (cc : Cond)
  | reti
  | rst (t : Nat)
  -- 46_system.md
  | nop
  | halt
  | stop (x : Byte)
  | di
  | ei
  | illegalD3
  | illegalDB
  | illegalDD
  | illegalE3
  | illegalE4
  | illegalEB
  | illegalEC
  | illegalED
  | illegalF4
  | illegalFC
  | illegalFD
  deriving DecidableEq, Repr

end Sys2Proof
end

