-- ==== Sys2Proof/WellFormed.lean ====
section
/-! DEFINITION. Which instruction terms stand for an encoding: a bit number and a restart index are below 8 (rules R136,
R281 to R286, R311). Every other operand is of a type that holds exactly the values its field can take. -/

namespace Sys2Proof

/-- The bound on the bit number or restart index, for the rows that have one. -/
def Instr.wellFormed : Instr → Bool
  | .bitR b _ | .bitHl b | .resR b _ | .resHl b | .setR b _ | .setHl b => decide (b < 8)
  | .rst t => decide (t < 8)
  | .ldRR .. | .ldRN .. | .ldRHl .. | .ldHlR .. | .ldHlN .. | .ldABc | .ldADe | .ldBcA | .ldDeA | .ldANn .. | .ldNnA ..
  | .ldhAC | .ldhCA | .ldhAN .. | .ldhNA .. | .ldAHlDec | .ldHlDecA | .ldAHlInc | .ldHlIncA
  | .ldRrNn .. | .ldNnSp .. | .ldSpHl | .push .. | .pop ..
  | .addAR .. | .addAHl | .addAN .. | .adcAR .. | .adcAHl | .adcAN .. | .subAR .. | .subAHl | .subAN ..
  | .sbcAR .. | .sbcAHl | .sbcAN .. | .andAR .. | .andAHl | .andAN .. | .xorAR .. | .xorAHl | .xorAN ..
  | .orAR .. | .orAHl | .orAN .. | .cpAR .. | .cpAHl | .cpAN ..
  | .incR .. | .incHl | .decR .. | .decHl | .daa | .cpl | .scf | .ccf
  | .addHlRr .. | .incRr .. | .decRr .. | .addSpE .. | .ldHlSpE ..
  | .rlca | .rrca | .rla | .rra | .rlcR .. | .rlcHl | .rrcR .. | .rrcHl | .rlR .. | .rlHl | .rrR .. | .rrHl
  | .slaR .. | .slaHl | .sraR .. | .sraHl | .swapR .. | .swapHl | .srlR .. | .srlHl
  | .jpNn .. | .jpCcNn .. | .jpHl | .jrE .. | .jrCcE .. | .callNn .. | .callCcNn .. | .ret | .retCc .. | .reti
  | .nop | .halt | .stop .. | .di | .ei
  | .illegalD3 | .illegalDB | .illegalDD | .illegalE3 | .illegalE4 | .illegalEB | .illegalEC | .illegalED
  | .illegalF4 | .illegalFC | .illegalFD => true

end Sys2Proof
end

