-- ==== Sys2Proof/Decode.lean ====
section
/-! DEFINITION. Decoding by the fields of rule R131, and the encoder written from the patterns of spec/opcode_table.json. -/

namespace Sys2Proof

/-- Register field codes (rules R22, R133): code 6, the memory operand at HL, is no register. -/
def R8.ofCode : Nat → Option R8
  | 0 => some .b
  | 1 => some .c
  | 2 => some .d
  | 3 => some .e
  | 4 => some .h
  | 5 => some .l
  | 6 => none
  | _ => some .a

/-- Pair field codes, table `rp` (rules R23, R134). -/
def RP.ofCode : Nat → RP
  | 0 => .bc
  | 1 => .de
  | 2 => .hl
  | _ => .sp

/-- Pair field codes, table `rp2` (rules R23, R134). -/
def RP2.ofCode : Nat → RP2
  | 0 => .bc
  | 1 => .de
  | 2 => .hl
  | _ => .af

/-- Condition field codes (rule R135). -/
def Cond.ofCode : Nat → Cond
  | 0 => .nz
  | 1 => .z
  | 2 => .nc
  | _ => .c

/-- `alu[y] A,r[z]` of rule R131; `none` is the operand `(HL)`. -/
def aluInstr (y : Nat) : Option R8 → Instr
  | some rs =>
    match y with
    | 0 => .addAR rs
    | 1 => .adcAR rs
    | 2 => .subAR rs
    | 3 => .sbcAR rs
    | 4 => .andAR rs
    | 5 => .xorAR rs
    | 6 => .orAR rs
    | _ => .cpAR rs
  | none =>
    match y with
    | 0 => .addAHl
    | 1 => .adcAHl
    | 2 => .subAHl
    | 3 => .sbcAHl
    | 4 => .andAHl
    | 5 => .xorAHl
    | 6 => .orAHl
    | _ => .cpAHl

/-- `alu[y] A,n` of rule R131. -/
def aluImmInstr (y : Nat) (n : Byte) : Instr :=
  match y with
  | 0 => .addAN n
  | 1 => .adcAN n
  | 2 => .subAN n
  | 3 => .sbcAN n
  | 4 => .andAN n
  | 5 => .xorAN n
  | 6 => .orAN n
  | _ => .cpAN n

/-- `rot[y] r[z]` of rule R131. -/
def rotInstr (y : Nat) : Option R8 → Instr
  | some rs =>
    match y with
    | 0 => .rlcR rs
    | 1 => .rrcR rs
    | 2 => .rlR rs
    | 3 => .rrR rs
    | 4 => .slaR rs
    | 5 => .sraR rs
    | 6 => .swapR rs
    | _ => .srlR rs
  | none =>
    match y with
    | 0 => .rlcHl
    | 1 => .rrcHl
    | 2 => .rlHl
    | 3 => .rrHl
    | 4 => .slaHl
    | 5 => .sraHl
    | 6 => .swapHl
    | _ => .srlHl

/-- The byte after the prefix 0xCB (rules R131, R137, R139): every value is an instruction. -/
def decodeCb (op : Byte) : Instr :=
  let y := opField op 3 3
  let r := R8.ofCode (opField op 0 3)
  match opField op 6 2 with
  | 0 => rotInstr y r
  | 1 => match r with
    | some rs => .bitR y rs
    | none => .bitHl y
  | 2 => match r with
    | some rs => .resR y rs
    | none => .resHl y
  | _ => match r with
    | some rs => .setR y rs
    | none => .setHl y

/-- The block `x = 0` of rule R131. -/
def decodeX0 (op b1 b2 : Byte) : Instr :=
  let y := opField op 3 3
  let p := opField op 4 2
  let q := opField op 3 1
  match opField op 0 3 with
  | 0 => match y with
    | 0 => .nop
    | 1 => .ldNnSp (cat b2 b1)
    | 2 => .stop b1
    | 3 => .jrE b1
    | y' => .jrCcE (Cond.ofCode (y' - 4)) b1
  | 1 => match q with
    | 0 => .ldRrNn (RP.ofCode p) (cat b2 b1)
    | _ => .addHlRr (RP.ofCode p)
  | 2 => match q with
    | 0 => match p with
      | 0 => .ldBcA
      | 1 => .ldDeA
      | 2 => .ldHlIncA
      | _ => .ldHlDecA
    | _ => match p with
      | 0 => .ldABc
      | 1 => .ldADe
      | 2 => .ldAHlInc
      | _ => .ldAHlDec
  | 3 => match q with
    | 0 => .incRr (RP.ofCode p)
    | _ => .decRr (RP.ofCode p)
  | 4 => match R8.ofCode y with
    | some rd => .incR rd
    | none => .incHl
  | 5 => match R8.ofCode y with
    | some rd => .decR rd
    | none => .decHl
  | 6 => match R8.ofCode y with
    | some rd => .ldRN rd b1
    | none => .ldHlN b1
  | _ => match y with
    | 0 => .rlca
    | 1 => .rrca
    | 2 => .rla
    | 3 => .rra
    | 4 => .daa
    | 5 => .cpl
    | 6 => .scf
    | _ => .ccf

/-- The block `x = 1` of rule R131: loads, and HALT where both fields are 6. -/
def decodeX1 (op : Byte) : Instr :=
  match R8.ofCode (opField op 3 3), R8.ofCode (opField op 0 3) with
  | some rd, some rs => .ldRR rd rs
  | some rd, none => .ldRHl rd
  | none, some rs => .ldHlR rs
  | none, none => .halt

/-- The block `x = 3` of rule R131, with the eleven illegal bytes of rule R140. -/
def decodeX3 (op b1 b2 : Byte) : Instr :=
  let y := opField op 3 3
  let p := opField op 4 2
  let q := opField op 3 1
  match opField op 0 3 with
  | 0 => match y with
    | 4 => .ldhNA b1
    | 5 => .addSpE b1
    | 6 => .ldhAN b1
    | 7 => .ldHlSpE b1
    | y' => .retCc (Cond.ofCode y')
  | 1 => match q with
    | 0 => .pop (RP2.ofCode p)
    | _ => match p with
      | 0 => .ret
      | 1 => .reti
      | 2 => .jpHl
      | _ => .ldSpHl
  | 2 => match y with
    | 4 => .ldhCA
    | 5 => .ldNnA (cat b2 b1)
    | 6 => .ldhAC
    | 7 => .ldANn (cat b2 b1)
    | y' => .jpCcNn (Cond.ofCode y') (cat b2 b1)
  | 3 => match y with
    | 0 => .jpNn (cat b2 b1)
    | 1 => decodeCb b1
    | 2 => .illegalD3
    | 3 => .illegalDB
    | 4 => .illegalE3
    | 5 => .illegalEB
    | 6 => .di
    | _ => .ei
  | 4 => match y with
    | 4 => .illegalE4
    | 5 => .illegalEC
    | 6 => .illegalF4
    | 7 => .illegalFC
    | y' => .callCcNn (Cond.ofCode y') (cat b2 b1)
  | 5 => match q with
    | 0 => .push (RP2.ofCode p)
    | _ => match p with
      | 0 => .callNn (cat b2 b1)
      | 1 => .illegalDD
      | 2 => .illegalED
      | _ => .illegalFD
  | 6 => aluImmInstr y b1
  | _ => .rst y

/-- The instruction whose first byte is `op`, with the two bytes after it (rule R143: total; a byte the instruction does not
have is not looked at). -/
def decodeBytes (op b1 b2 : Byte) : Instr :=
  match opField op 6 2 with
  | 0 => decodeX0 op b1 b2
  | 1 => decodeX1 op
  | 2 => aluInstr (opField op 3 3) (R8.ofCode (opField op 0 3))
  | _ => decodeX3 op b1 b2

/-- The instruction's length in bytes, the prefix counted (column `length` of spec/opcode_table.json, rule R142). -/
def Instr.length : Instr → Nat
  | .ldRrNn .. | .ldNnSp .. | .ldANn .. | .ldNnA .. | .jpNn .. | .jpCcNn .. | .callNn .. | .callCcNn .. => 3
  | .ldRN .. | .ldHlN .. | .ldhAN .. | .ldhNA .. | .addAN .. | .adcAN .. | .subAN .. | .sbcAN .. | .andAN .. | .xorAN ..
  | .orAN .. | .cpAN .. | .stop .. | .jrE .. | .jrCcE .. | .addSpE .. | .ldHlSpE ..
  | .rlcR .. | .rlcHl | .rrcR .. | .rrcHl | .rlR .. | .rlHl | .rrR .. | .rrHl
  | .slaR .. | .slaHl | .sraR .. | .sraHl | .swapR .. | .swapHl | .srlR .. | .srlHl
  | .bitR .. | .bitHl .. | .resR .. | .resHl .. | .setR .. | .setHl .. => 2
  | .ldRR .. | .ldRHl .. | .ldHlR .. | .ldABc | .ldADe | .ldBcA | .ldDeA | .ldhAC | .ldhCA
  | .ldAHlDec | .ldHlDecA | .ldAHlInc | .ldHlIncA | .ldSpHl | .push .. | .pop ..
  | .addAR .. | .addAHl | .adcAR .. | .adcAHl | .subAR .. | .subAHl | .sbcAR .. | .sbcAHl | .andAR .. | .andAHl
  | .xorAR .. | .xorAHl | .orAR .. | .orAHl | .cpAR .. | .cpAHl
  | .incR .. | .incHl | .decR .. | .decHl | .daa | .cpl | .scf | .ccf | .addHlRr .. | .incRr .. | .decRr ..
  | .rlca | .rrca | .rla | .rra | .jpHl | .ret | .retCc .. | .reti | .rst .. | .nop | .halt | .di | .ei
  | .illegalD3 | .illegalDB | .illegalDD | .illegalE3 | .illegalE4 | .illegalEB | .illegalEC | .illegalED
  | .illegalF4 | .illegalFC | .illegalFD => 1

/-- The length is a function of the first byte (rule R142). -/
def opLength (op : Byte) : Nat := (decodeBytes op 0 0).length

/-- Why a list of bytes is no instruction: it is too short. There is no other reason (rules R140, R141, R143). -/
inductive DecodeError where
  | noByte
  | truncated (op : Byte)
  deriving DecidableEq, Repr

/-- Decode the front of a list of bytes, and give the rest. -/
def decode : List Byte → Except DecodeError (Instr × List Byte)
  | [] => .error .noByte
  | op :: rest =>
    match opLength op with
    | 1 => .ok (decodeBytes op 0 0, rest)
    | 2 => match rest with
      | b1 :: rest' => .ok (decodeBytes op b1 0, rest')
      | [] => .error (.truncated op)
    | _ => match rest with
      | b1 :: b2 :: rest' => .ok (decodeBytes op b1 b2, rest')
      | _ => .error (.truncated op)

/-- Byte `k` of a word numbered as spec/opcode_table.json numbers an instruction's bits: bit 0 is the least significant bit
of the first byte, and only the low `nbits` bits are the instruction's. -/
def tableByte (nbits w k : Nat) : Byte := BitVec.ofNat 8 ((w % 2 ^ nbits) >>> (8 * k))

/-- The instruction the decoder reads from a table word, zero bytes standing for what the table gives no bits. -/
def decodeTableWord (nbits w : Nat) : Option Instr :=
  some (decodeBytes (tableByte nbits w 0) (tableByte nbits w 1) (tableByte nbits w 2))

/-- The register code of a field `ddd` or `sss` (rule R22). -/
def R8.code : R8 → BitVec 3
  | .b => 0 | .c => 1 | .d => 2 | .e => 3 | .h => 4 | .l => 5 | .a => 7

/-- The code of a field `pp` in table `rp` (rule R23). -/
def RP.code : RP → BitVec 2
  | .bc => 0 | .de => 1 | .hl => 2 | .sp => 3

/-- The code of a field `pp` in table `rp2` (rule R23). -/
def RP2.code : RP2 → BitVec 2
  | .bc => 0 | .de => 1 | .hl => 2 | .af => 3

/-- The code of a field `cc` (rule R135). -/
def Cond.code : Cond → BitVec 2
  | .nz => 0 | .z => 1 | .nc => 2 | .c => 3

/-- The opcode byte `match` with a 3-bit code in bits 5 to 3 (fields `ddd`, `bbb`, `ttt`). -/
def atY (m : Byte) (y : BitVec 3) : Byte := m ||| (y.setWidth 8 <<< 3)

/-- The opcode byte `match` with a 3-bit code in bits 2 to 0 (field `sss`). -/
def atZ (m : Byte) (z : BitVec 3) : Byte := m ||| z.setWidth 8

/-- The opcode byte `match` with a pair code in bits 5 to 4. -/
def atP (m : Byte) (p : BitVec 2) : Byte := m ||| (p.setWidth 8 <<< 4)

/-- The opcode byte `match` with a condition code in bits 4 to 3. -/
def atC (m : Byte) (c : BitVec 2) : Byte := m ||| (c.setWidth 8 <<< 3)

/-- The bytes of an instruction, from the `encoding` and `match` columns of spec/opcode_table.json. -/
def encode : Instr → List Byte
  | .ldRR rd rs => [atZ (atY 0x40 rd.code) rs.code]
  | .ldRN rd n => [atY 0x06 rd.code, n]
  | .ldRHl rd => [atY 0x46 rd.code]
  | .ldHlR rs => [atZ 0x70 rs.code]
  | .ldHlN n => [0x36, n]
  | .ldABc => [0x0A]
  | .ldADe => [0x1A]
  | .ldBcA => [0x02]
  | .ldDeA => [0x12]
  | .ldANn nn => [0xFA, loByte nn, hiByte nn]
  | .ldNnA nn => [0xEA, loByte nn, hiByte nn]
  | .ldhAC => [0xF2]
  | .ldhCA => [0xE2]
  | .ldhAN n => [0xF0, n]
  | .ldhNA n => [0xE0, n]
  | .ldAHlDec => [0x3A]
  | .ldHlDecA => [0x32]
  | .ldAHlInc => [0x2A]
  | .ldHlIncA => [0x22]
  | .ldRrNn p nn => [atP 0x01 p.code, loByte nn, hiByte nn]
  | .ldNnSp nn => [0x08, loByte nn, hiByte nn]
  | .ldSpHl => [0xF9]
  | .push q => [atP 0xC5 q.code]
  | .pop q => [atP 0xC1 q.code]
  | .addAR rs => [atZ 0x80 rs.code]
  | .addAHl => [0x86]
  | .addAN n => [0xC6, n]
  | .adcAR rs => [atZ 0x88 rs.code]
  | .adcAHl => [0x8E]
  | .adcAN n => [0xCE, n]
  | .subAR rs => [atZ 0x90 rs.code]
  | .subAHl => [0x96]
  | .subAN n => [0xD6, n]
  | .sbcAR rs => [atZ 0x98 rs.code]
  | .sbcAHl => [0x9E]
  | .sbcAN n => [0xDE, n]
  | .andAR rs => [atZ 0xA0 rs.code]
  | .andAHl => [0xA6]
  | .andAN n => [0xE6, n]
  | .xorAR rs => [atZ 0xA8 rs.code]
  | .xorAHl => [0xAE]
  | .xorAN n => [0xEE, n]
  | .orAR rs => [atZ 0xB0 rs.code]
  | .orAHl => [0xB6]
  | .orAN n => [0xF6, n]
  | .cpAR rs => [atZ 0xB8 rs.code]
  | .cpAHl => [0xBE]
  | .cpAN n => [0xFE, n]
  | .incR rd => [atY 0x04 rd.code]
  | .incHl => [0x34]
  | .decR rd => [atY 0x05 rd.code]
  | .decHl => [0x35]
  | .daa => [0x27]
  | .cpl => [0x2F]
  | .scf => [0x37]
  | .ccf => [0x3F]
  | .addHlRr p => [atP 0x09 p.code]
  | .incRr p => [atP 0x03 p.code]
  | .decRr p => [atP 0x0B p.code]
  | .addSpE e => [0xE8, e]
  | .ldHlSpE e => [0xF8, e]
  | .rlca => [0x07]
  | .rrca => [0x0F]
  | .rla => [0x17]
  | .rra => [0x1F]
  | .rlcR rs => [0xCB, atZ 0x00 rs.code]
  | .rlcHl => [0xCB, 0x06]
  | .rrcR rs => [0xCB, atZ 0x08 rs.code]
  | .rrcHl => [0xCB, 0x0E]
  | .rlR rs => [0xCB, atZ 0x10 rs.code]
  | .rlHl => [0xCB, 0x16]
  | .rrR rs => [0xCB, atZ 0x18 rs.code]
  | .rrHl => [0xCB, 0x1E]
  | .slaR rs => [0xCB, atZ 0x20 rs.code]
  | .slaHl => [0xCB, 0x26]
  | .sraR rs => [0xCB, atZ 0x28 rs.code]
  | .sraHl => [0xCB, 0x2E]
  | .swapR rs => [0xCB, atZ 0x30 rs.code]
  | .swapHl => [0xCB, 0x36]
  | .srlR rs => [0xCB, atZ 0x38 rs.code]
  | .srlHl => [0xCB, 0x3E]
  | .bitR b rs => [0xCB, atZ (atY 0x40 (BitVec.ofNat 3 b)) rs.code]
  | .bitHl b => [0xCB, atY 0x46 (BitVec.ofNat 3 b)]
  | .resR b rs => [0xCB, atZ (atY 0x80 (BitVec.ofNat 3 b)) rs.code]
  | .resHl b => [0xCB, atY 0x86 (BitVec.ofNat 3 b)]
  | .setR b rs => [0xCB, atZ (atY 0xC0 (BitVec.ofNat 3 b)) rs.code]
  | .setHl b => [0xCB, atY 0xC6 (BitVec.ofNat 3 b)]
  | .jpNn nn => [0xC3, loByte nn, hiByte nn]
  | .jpCcNn cc nn => [atC 0xC2 cc.code, loByte nn, hiByte nn]
  | .jpHl => [0xE9]
  | .jrE e => [0x18, e]
  | .jrCcE cc e => [atC 0x20 cc.code, e]
  | .callNn nn => [0xCD, loByte nn, hiByte nn]
  | .callCcNn cc nn => [atC 0xC4 cc.code, loByte nn, hiByte nn]
  | .ret => [0xC9]
  | .retCc cc => [atC 0xC0 cc.code]
  | .reti => [0xD9]
  | .rst t => [atY 0xC7 (BitVec.ofNat 3 t)]
  | .nop => [0x00]
  | .halt => [0x76]
  | .stop x => [0x10, x]
  | .di => [0xF3]
  | .ei => [0xFB]
  | .illegalD3 => [0xD3]
  | .illegalDB => [0xDB]
  | .illegalDD => [0xDD]
  | .illegalE3 => [0xE3]
  | .illegalE4 => [0xE4]
  | .illegalEB => [0xEB]
  | .illegalEC => [0xEC]
  | .illegalED => [0xED]
  | .illegalF4 => [0xF4]
  | .illegalFC => [0xFC]
  | .illegalFD => [0xFD]

/-- The illegal byte an instruction is, if it is one (rules R140, R325). -/
def Instr.illegalByte : Instr → Option Byte
  | .illegalD3 => some 0xD3
  | .illegalDB => some 0xDB
  | .illegalDD => some 0xDD
  | .illegalE3 => some 0xE3
  | .illegalE4 => some 0xE4
  | .illegalEB => some 0xEB
  | .illegalEC => some 0xEC
  | .illegalED => some 0xED
  | .illegalF4 => some 0xF4
  | .illegalFC => some 0xFC
  | .illegalFD => some 0xFD
  | _ => none

end Sys2Proof
end

