-- ==== Sys2Proof/Config.lean ====
section
/-! DEFINITION. What is fixed for a run: the arguments of rule R4 as plain data, the collaborators of rule R56 as plain
data, and the uninterpreted constants that stand for what the spec leaves to a collaborator. An opaque constant has no
body, so a claim about it holds whatever the collaborator does. -/

namespace Sys2Proof

/-- `DMA_POLICY` (rules R4, R98). -/
inductive DmaPolicy where
  | instant
  | gradual
  deriving DecidableEq, Repr

/-- `OBJ_OVERLAY` (rule R419): the default returns the background pixel; `device k` is an uninterpreted overlay. -/
inductive Overlay where
  | background
  | device (k : Nat)
  deriving DecidableEq, Repr

/-- The arguments of rule R4 that hold for a whole run. No step writes them. `INIT_MEM` and the collaborators are
arguments of `State.resetWith`. -/
structure Params where
  openBus       : Byte
  blockedValue  : Byte
  dmaPolicy     : DmaPolicy
  dmaStartDelay : Nat
  haltBug       : Bool
  resetDivLow   : Byte
  overlay       : Overlay
  deriving DecidableEq, Repr

/-- The defaults of rule R4. DESIGN CHOICE (log entry 2, unsafe): R4 gives `DMA_POLICY` no default; `instant` is the
setting of the test vectors' start state. -/
def Params.default : Params where
  openBus       := 0xFF#8
  blockedValue  := 0xFF#8
  dmaPolicy     := .instant
  dmaStartDelay := 4
  haltBug       := true
  resetDivLow   := 0xCC#8
  overlay       := .background

/-- The cartridge (rule R75). `flatRom` is the rule's simplest instance: 32 KiB of ROM whose writes are dropped, no RAM.
`romRam` is the test cartridge of 95_test_vectors.md, with 8 KiB of RAM. `mapper k st` is any other cartridge: its state
is the bytes `st`, and what it does is uninterpreted. -/
inductive Cart where
  | flatRom
  | romRam
  | mapper (k : Nat) (st : List Byte)
  deriving DecidableEq, Repr

/-- The joypad (rule R85). `pad` has the conventional layout: two select lines and two button nibbles, a line reading 0
while its button is down. `device k st` is any other joypad, uninterpreted. -/
inductive Joypad where
  | pad (select : BitVec 2) (directions buttons : BitVec 4)
  | device (k : Nat) (st : List Byte)
  deriving DecidableEq, Repr

/-- What is behind the external I/O port (rule R86). `null` is the rule's default instance. -/
inductive ExtIO where
  | null
  | device (k : Nat) (st : List Byte)
  deriving DecidableEq, Repr

/-- One system step's host input `ext` (rule R358). -/
structure ExtInput where
  serial : Bool
  joypad : Bool
  deriving DecidableEq, Repr

/-- `CartRead` of an uninterpreted cartridge (rule R75). -/
opaque Config.cartRead (k : Nat) (st : List Byte) (a : Word) : Byte

/-- `CartWrite` of an uninterpreted cartridge (rule R75). -/
opaque Config.cartWrite (k : Nat) (st : List Byte) (a : Word) (v : Byte) : List Byte

/-- `JoyRead` of an uninterpreted joypad (rule R85). -/
opaque Config.joyRead (k : Nat) (st : List Byte) : Byte

/-- `JoyWrite` of an uninterpreted joypad (rule R85). -/
opaque Config.joyWrite (k : Nat) (st : List Byte) (v : Byte) : List Byte

/-- `ExtRead` of an uninterpreted external device (rule R86). -/
opaque Config.extRead (k : Nat) (st : List Byte) (a : Word) : Byte

/-- `ExtWrite` of an uninterpreted external device (rule R86). -/
opaque Config.extWrite (k : Nat) (st : List Byte) (a : Word) (v : Byte) : List Byte

/-- What the cycle count of a step does to an uninterpreted external device (rule R86: "the host may pass each step's
`cycles` to `ext`"). -/
opaque Config.extAdvance (k : Nat) (st : List Byte) (cycles : Nat) : List Byte

/-- An uninterpreted object overlay (rule R419): a function of the background pixel, its column and line, the current OAM
view, VRAM and LCDC. -/
opaque Config.objOverlay (k : Nat) (px : BitVec 2) (x y : Nat) (oam vram : List Byte) (lcdc : Byte) : BitVec 2

end Sys2Proof
end

