-- ==== Sys2Proof/Machine/State.lean ====
section
/-! DEFINITION. The machine's state as plain data (10_state.md), its reset value (70_reset_and_hazards.md rule R451), and the
reasons a step can stop. -/

namespace Sys2Proof.Machine

/-- Memory as (bus address of the storage, byte) pairs. Canonical form: addresses strictly rising, no byte equal to
`memDefault` (`Mem.wf` in Machine/Mem.lean). -/
abbrev Mem := List Host.Cell

/-- The seven 8-bit registers beside F (rule R20). -/
structure Regs where
  a : Byte
  b : Byte
  c : Byte
  d : Byte
  e : Byte
  h : Byte
  l : Byte
  deriving DecidableEq, Repr

/-- The storage of F: its high nibble (rule R24). Bits 3 to 0 read 0 and have no storage (log entry 12). -/
structure Flags where
  z : Bool
  n : Bool
  h : Bool
  c : Bool
  deriving DecidableEq, Repr

/-- The run state of the CPU, with the fault record (rules R30, R32). -/
inductive Run where
  | running
  | halted
  | stopped
  | faulted (op : Byte) (addr : Word)
  deriving DecidableEq, Repr

/-- The Timer's registers (rules R35 to R39). -/
structure Timer where
  divctr        : Word
  tima          : Byte
  tma           : Byte
  tac           : BitVec 3
  reloadPending : Bool
  deriving DecidableEq, Repr

/-- The PPU's four modes (rule R47). -/
inductive Mode where
  | hblank
  | vblank
  | oamScan
  | pixelTransfer
  deriving DecidableEq, Repr

/-- One line of the framebuffer (rule R51). -/
abbrev Line := Vector (BitVec 2) 160

/-- The PPU's registers and hidden state (rules R40 to R49, R51). `stat` holds STAT bits 6 to 3. -/
structure Ppu where
  lcdc     : Byte
  stat     : BitVec 4
  scy      : Byte
  scx      : Byte
  ly       : Byte
  lyc      : Byte
  wy       : Byte
  wx       : Byte
  dot      : BitVec 9
  mode     : Mode
  winLatch : Bool
  winLine  : Byte
  fb       : Vector Line 144
  deriving DecidableEq, Repr

/-- The OAM-DMA unit (rule R50). -/
structure Dma where
  reg    : Byte
  active : Bool
  delay  : Nat
  src    : Word
  idx    : Nat
  sub    : Nat
  deriving DecidableEq, Repr

/-- The whole machine between two steps (rule R57), its arguments, its collaborators and the host inputs still to come. -/
structure State where
  /-- A, B, C, D, E, H, L (R20). -/
  regs        : Regs
  /-- F (R24). -/
  flags       : Flags
  /-- Stack pointer (R27). -/
  sp          : Word
  /-- Program counter (R26). -/
  pc          : Word
  /-- Master-enable latch (R28). -/
  ime         : Bool
  /-- The armed enable of EI (R29). -/
  imeArm      : Bool
  /-- Run state and fault record (R30, R32). -/
  run         : Run
  /-- The next opcode fetch does not advance pc (R31). -/
  haltBug     : Bool
  /-- Interrupt enable mask, all 8 bits (R33). -/
  ie          : Byte
  /-- Interrupt request flags IF (R34). -/
  ifl         : BitVec 5
  /-- DIVCTR, TIMA, TMA, TAC, reload_pending (R35 to R39). -/
  timer       : Timer
  /-- LCDC to win_line and fb (R40 to R49, R51). -/
  ppu         : Ppu
  /-- DMA and the hidden DMA state (R50). -/
  dma         : Dma
  /-- VRAM, OAM, WRAM, HRAM and a flat cartridge's bytes (R52 to R55, R75). -/
  mem         : Mem
  /-- Cartridge (R75). -/
  cart        : Cart
  /-- Joypad (R85). -/
  joy         : Joypad
  /-- External I/O (R86). -/
  ext         : ExtIO
  /-- Arguments (R4). -/
  par         : Params
  /-- Host inputs `ext`, one per system step, the next first; (0, 0) when the list is empty (R358, log entry 1). -/
  inputs      : List ExtInput
  /-- JoypadWake events still to come (R348, log entry 1). -/
  wakes       : Nat
  /-- The cycle count the last completed step returned (R11, R340, log entry 11). -/
  cycles      : Nat
  /-- Running sum of the counts (R58). -/
  totalCycles : Nat
  deriving DecidableEq, Repr

/-- Why a step does not exist. Both are states in which the spec has no step; the model stops where the machine stops, so
both are safe. -/
inductive Fault where
  /-- Raised by `step` in `Faulted(op, addr)`, which an illegal opcode entered (rule R371: terminal). Safe. -/
  | illegalOpcode (op : Byte) (addr : Word)
  /-- Raised by `step` in `Stopped` when the host sends no JoypadWake (rule R348: stuck, not a fault of the program). Safe. -/
  | stopped
  deriving DecidableEq, Repr

/-- Why an instruction has no meaning here. -/
inductive Refusal where
  /-- Raised by an arm of `exec` whose instruction has no meaning yet; no arm of this model. Safe. -/
  | notModelled (mnemonic : String)
  deriving DecidableEq, Repr

/-- What an unlisted address reads as: the reset contents INIT_MEM of RAM, which no source gives (rule R452), and the bytes of
a cartridge ROM that no program was loaded to. DESIGN CHOICE 0x00 (log entry 3, unsafe), the value of the test vectors. -/
def memDefault : Byte := 0x00#8

/-- The Timer at reset (rule R451). -/
def Timer.reset (par : Params) : Timer where
  divctr        := cat 0xAB#8 par.resetDivLow
  tima          := 0
  tma           := 0
  tac           := 0
  reloadPending := false

/-- The PPU at reset (rule R451): the start of line 0. -/
def Ppu.reset : Ppu where
  lcdc     := 0x91
  stat     := 0
  scy      := 0
  scx      := 0
  ly       := 0
  lyc      := 0
  wy       := 0
  wx       := 0
  dot      := 0
  mode     := .oamScan
  winLatch := true
  winLine  := 0
  fb       := Vector.replicate 144 (Vector.replicate 160 0)

/-- The DMA unit at reset (rule R451). -/
def Dma.reset : Dma where
  reg    := 0xFF
  active := false
  delay  := 0
  src    := 0
  idx    := 0
  sub    := 0

/-- Reset (rules R450, R451): the state built from the arguments of rule R4, the contents INIT_MEM, the collaborators' own
initial states and the host inputs to come. Power-on and a host-requested reset are this one event, whatever state the
machine was in. -/
def State.resetWith (par : Params) (initMem : Mem) (cart : Cart) (joy : Joypad) (ext : ExtIO)
    (inputs : List ExtInput) (wakes : Nat) : State where
  regs        := { a := 0x01, b := 0x00, c := 0x13, d := 0x00, e := 0xD8, h := 0x01, l := 0x4D }
  flags       := { z := true, n := false, h := true, c := true }
  sp          := 0xFFFE
  pc          := 0x0100
  ime         := false
  imeArm      := false
  run         := .running
  haltBug     := false
  ie          := 0x00
  ifl         := 0b00001#5
  timer       := Timer.reset par
  ppu         := Ppu.reset
  dma         := Dma.reset
  mem         := initMem
  cart        := cart
  joy         := joy
  ext         := ext
  par         := par
  inputs      := inputs
  wakes       := wakes
  cycles      := 0
  totalCycles := 0

/-- The machine right after reset with the arguments of log entries 1 to 7: the defaults of rule R4, DMA_POLICY Instant,
INIT_MEM all zero, a flat ROM cartridge, a joypad with no button down, the null external device, no host inputs. -/
def State.reset : State :=
  State.resetWith Params.default [] .flatRom (.pad 0b00#2 0xF#4 0xF#4) .null [] 0

end Sys2Proof.Machine
end

