-- ==== Sys2Proof/Machine/Mem.lean ====
section
/-! DEFINITION. Memory as a canonical list of cells. -/

namespace Sys2Proof.Machine

/-- The byte at a storage address. -/
def Mem.read : Mem → Nat → Byte
  | [], _ => memDefault
  | (k', v') :: m, k => if k = k' then v' else Mem.read m k

/-- Store a byte; storing `memDefault` removes the entry, so that equal memories are equal lists. -/
def Mem.write : Mem → Nat → Byte → Mem
  | [], k, v => if v = memDefault then [] else [(k, v)]
  | (k', v') :: m, k, v =>
    if k < k' then
      if v = memDefault then (k', v') :: m else (k, v) :: (k', v') :: m
    else if k = k' then
      if v = memDefault then m else (k, v) :: m
    else (k', v') :: Mem.write m k v

/-- Store a list of bytes at rising addresses. -/
def Mem.writeList : Mem → Nat → List Byte → Mem
  | m, _, [] => m
  | m, k, v :: vs => Mem.writeList (Mem.write m k v) (k + 1) vs

/-- Every listed address is at least `lo`, the addresses rise strictly, and no listed byte is `memDefault`. -/
def Mem.wfFrom : Nat → Mem → Bool
  | _, [] => true
  | lo, (k, v) :: m => decide (lo ≤ k) && decide (v ≠ memDefault) && Mem.wfFrom (k + 1) m

/-- The canonical form. -/
def Mem.wf (m : Mem) : Bool := Mem.wfFrom 0 m

/-- A bus address that has storage of its own: a flat cartridge's bytes, VRAM, WRAM, OAM, HRAM (rules R52 to R55, R74, R75). -/
def isStorage (k : Nat) : Bool :=
  decide (k < 0xE000) || (decide (0xFE00 ≤ k) && decide (k < 0xFEA0)) || (decide (0xFF80 ≤ k) && decide (k < 0xFFFF))

/-- Every listed address has storage. -/
def Mem.placed (m : Mem) : Bool := m.all fun cell => isStorage cell.1

end Sys2Proof.Machine
end

