-- ==== Sys2Proof/Machine/Ports.lean ====
section
/-! DEFINITION. The collaborator ports (20_memory.md rules R75, R85, R86, R87). -/

namespace Sys2Proof.Machine

/-- `CartRead` (rule R75). A flat cartridge's bytes are in `mem`; without RAM its RAM side is open bus (rule R87). -/
def State.cartRead (s : State) (a : Word) : Byte :=
  match s.cart with
  | .flatRom => if a.toNat < 0x8000 then s.mem.read a.toNat else s.par.openBus
  | .romRam => s.mem.read a.toNat
  | .mapper k st => Config.cartRead k st a

/-- `CartWrite` (rules R73, R75): ROM drops the write. -/
def State.cartWrite (s : State) (a : Word) (v : Byte) : State :=
  match s.cart with
  | .flatRom => s
  | .romRam => if a.toNat < 0x8000 then s else { s with mem := s.mem.write a.toNat v }
  | .mapper k st => { s with cart := .mapper k (Config.cartWrite k st a v) }

/-- `JoyRead` (rule R85). PRESUMED for `pad` (log entry 6): select bit 0 (bit 4 of the byte) low shows the directions,
select bit 1 (bit 5) low the buttons, both low their conjunction, and neither low 0xF; R85 says only that the selected nibble is
read. -/
def joyRead : Joypad → Byte
  | .pad sel dirs btns =>
    3#2 ++ sel ++ ((if sel.getLsbD 0 then 0xF#4 else dirs) &&& (if sel.getLsbD 1 then 0xF#4 else btns))
  | .device k st => Config.joyRead k st

/-- `JoyWrite` (rule R85): bits 5 to 4 of the byte are the select lines. -/
def joyWrite : Joypad → Byte → Joypad
  | .pad _ dirs btns, v => .pad (v.extractLsb' 4 2) dirs btns
  | .device k st, v => .device k (Config.joyWrite k st v)

/-- `ExtRead` (rules R86, R87): the null device reads open bus. -/
def State.extRead (s : State) (a : Word) : Byte :=
  match s.ext with
  | .null => s.par.openBus
  | .device k st => Config.extRead k st a

/-- `ExtWrite` (rule R86): the null device ignores it. -/
def extWrite : ExtIO → Word → Byte → ExtIO
  | .null, _, _ => .null
  | .device k st, a, v => .device k (Config.extWrite k st a v)

/-- The cycle count of a step handed to the external device (rule R86). -/
def extAdvance : ExtIO → Nat → ExtIO
  | .null, _ => .null
  | .device k st, c => .device k (Config.extAdvance k st c)

end Sys2Proof.Machine
end

