-- ==== Sys2Proof/Machine/Dma.lean ====
section
/-! DEFINITION. The OAM-DMA unit (20_memory.md rules R93 to R99). -/

namespace Sys2Proof.Machine

/-- `DmaSrcRead(a)` (rule R94): no blocking; from 0xC000 up it is work RAM. -/
def State.dmaSrcRead (s : State) (a : Word) : Byte :=
  if a.toNat < 0x8000 then s.cartRead a
  else if a.toNat < 0xA000 then s.mem.read a.toNat
  else if a.toNat < 0xC000 then s.cartRead a
  else s.mem.read (0xC000 + (a.toNat - 0xC000) % 0x2000)

/-- One byte of a transfer: `OAM[i] <- DmaSrcRead(base + i)`. -/
def State.dmaCopyByte (s : State) (base : Word) (i : Nat) : State :=
  { s with mem := s.mem.write (0xFE00 + i) (s.dmaSrcRead (base + BitVec.ofNat 16 i)) }

/-- `n` bytes of a transfer in increasing order, from byte `i` on (rule R93). -/
def State.dmaCopy (base : Word) : Nat → Nat → State → State
  | 0, _, s => s
  | n + 1, i, s => State.dmaCopy base n (i + 1) (s.dmaCopyByte base i)

/-- The source base `v * 256` (rule R93). -/
def dmaBase (v : Byte) : Word := cat v 0#8

/-- A write to the register DMA (rules R93, R95). -/
def State.writeDma (s : State) (v : Byte) : State :=
  match s.par.dmaPolicy with
  | .instant => State.dmaCopy (dmaBase v) 160 0 { s with dma := { s.dma with reg := v } }
  | .gradual =>
    { s with
      dma :=
        { reg := v
          active := decide (s.par.dmaStartDelay = 0)
          delay := s.par.dmaStartDelay
          src := dmaBase v
          idx := 0
          sub := 0 } }

/-- `DmaTick` (rule R96), under Gradual only. -/
def State.dmaTick (s : State) : State :=
  match s.par.dmaPolicy with
  | .instant => s
  | .gradual =>
    if s.dma.delay > 0 then
      { s with dma := { s.dma with delay := s.dma.delay - 1, active := s.dma.active || decide (s.dma.delay = 1) } }
    else if s.dma.active then
      if s.dma.sub + 1 = 4 then
        let t := s.dmaCopyByte s.dma.src s.dma.idx
        { t with dma := { s.dma with sub := 0, idx := s.dma.idx + 1, active := decide (s.dma.idx + 1 ≠ 160) } }
      else { s with dma := { s.dma with sub := s.dma.sub + 1 } }
    else s

/-- `n` applications of `DmaTick` (rule R340). -/
def State.dmaAdvance : Nat → State → State
  | 0, s => s
  | n + 1, s => State.dmaAdvance n s.dmaTick

end Sys2Proof.Machine
end

