-- ==== Sys2Proof/Machine/Operands.lean ====
section
/-! DEFINITION. The operand forms: registers, pairs, F, conditions (10_state.md rules R20 to R27), and the setters of the
CPU's part of the state. -/

namespace Sys2Proof.Machine

/-- `x[i]` (rule R7). -/
def Regs.get (g : Regs) : R8 → Byte
  | .a => g.a
  | .b => g.b
  | .c => g.c
  | .d => g.d
  | .e => g.e
  | .h => g.h
  | .l => g.l

/-- `x[i] <- v` (rule R7). -/
def Regs.set (g : Regs) (r : R8) (v : Byte) : Regs :=
  match r with
  | .a => { g with a := v }
  | .b => { g with b := v }
  | .c => { g with c := v }
  | .d => { g with d := v }
  | .e => { g with e := v }
  | .h => { g with h := v }
  | .l => { g with l := v }

/-- The byte of F: Z N H C in bits 7 to 4, zeros below (rule R24). -/
def Flags.toByte (f : Flags) : Byte :=
  BitVec.ofBool f.z ++ BitVec.ofBool f.n ++ BitVec.ofBool f.h ++ BitVec.ofBool f.c ++ 0#4

/-- A write of F: bits 3 to 0 are ignored (rule R24). -/
def Flags.ofByte (v : Byte) : Flags where
  z := v.getLsbD 7
  n := v.getLsbD 6
  h := v.getLsbD 5
  c := v.getLsbD 4

namespace State

/-- `x[r]`. -/
def getR (s : State) (r : R8) : Byte := s.regs.get r

/-- `x[r] <- v`. -/
def setR (s : State) (r : R8) (v : Byte) : State := { s with regs := s.regs.set r v }

/-- `F <- f`. -/
def setFlags (s : State) (f : Flags) : State := { s with flags := f }

/-- `sp <- v`. -/
def setSp (s : State) (v : Word) : State := { s with sp := v }

/-- `pc <- v`. -/
def setPc (s : State) (v : Word) : State := { s with pc := v }

/-- `cycles <- k` (rule R11). -/
def cost (s : State) (k : Nat) : State := { s with cycles := k }

/-- The pair `BC` (rule R21). -/
def bc (s : State) : Word := cat s.regs.b s.regs.c

/-- The pair `DE` (rule R21). -/
def de (s : State) : Word := cat s.regs.d s.regs.e

/-- The pair `HL` (rule R21). -/
def hl (s : State) : Word := cat s.regs.h s.regs.l

/-- The pair `AF` (rule R21). -/
def af (s : State) : Word := cat s.regs.a s.flags.toByte

/-- `BC <- v`. -/
def setBc (s : State) (v : Word) : State := (s.setR .b (hiByte v)).setR .c (loByte v)

/-- `DE <- v`. -/
def setDe (s : State) (v : Word) : State := (s.setR .d (hiByte v)).setR .e (loByte v)

/-- `HL <- v`. -/
def setHl (s : State) (v : Word) : State := (s.setR .h (hiByte v)).setR .l (loByte v)

/-- `AF <- v`: the low nibble of F is dropped (rules R21, R24). -/
def setAf (s : State) (v : Word) : State := (s.setR .a (hiByte v)).setFlags (Flags.ofByte (loByte v))

/-- `rp[p]` (rule R23). -/
def getRP (s : State) : RP → Word
  | .bc => s.bc
  | .de => s.de
  | .hl => s.hl
  | .sp => s.sp

/-- `rp[p] <- v`. -/
def setRP (s : State) (p : RP) (v : Word) : State :=
  match p with
  | .bc => s.setBc v
  | .de => s.setDe v
  | .hl => s.setHl v
  | .sp => s.setSp v

/-- `rp2[q]` (rule R23). -/
def getRP2 (s : State) : RP2 → Word
  | .bc => s.bc
  | .de => s.de
  | .hl => s.hl
  | .af => s.af

/-- `rp2[q] <- v`. -/
def setRP2 (s : State) (q : RP2) (v : Word) : State :=
  match q with
  | .bc => s.setBc v
  | .de => s.setDe v
  | .hl => s.setHl v
  | .af => s.setAf v

/-- `Cond(c)` (rule R300). -/
def cond (s : State) : Cond → Bool
  | .nz => !s.flags.z
  | .z => s.flags.z
  | .nc => !s.flags.c
  | .c => s.flags.c

end State

end Sys2Proof.Machine
end

