-- ==== Sys2Proof/Machine/Flags.lean ====
section
/-! DEFINITION. Every result and flag computation: 42_alu8.md, 43_alu16.md, 44_rotate_shift_bit.md. -/

namespace Sys2Proof.Machine

/-- An 8-bit result with the flags it leaves. -/
structure Alu where
  r     : Byte
  flags : Flags
  deriving DecidableEq, Repr

/-- `Add8(a, v, cin)` (rule R200). -/
def add8 (a v : Byte) (cin : Bool) : Alu :=
  let sum := a.toNat + v.toNat + cin.toNat
  let r := BitVec.ofNat 8 sum
  { r := r
    flags :=
      { z := r == 0#8
        n := false
        h := decide (a.toNat % 16 + v.toNat % 16 + cin.toNat > 0xF)
        c := decide (sum > 0xFF) } }

/-- `Sub8(a, v, cin)` (rule R201). -/
def sub8 (a v : Byte) (cin : Bool) : Alu :=
  let r := BitVec.ofInt 8 ((a.toNat : Int) - v.toNat - cin.toNat)
  { r := r
    flags :=
      { z := r == 0#8
        n := true
        h := decide (a.toNat % 16 < v.toNat % 16 + cin.toNat)
        c := decide (a.toNat < v.toNat + cin.toNat) } }

/-- The result and flags of AND (rule R202). -/
def and8 (a v : Byte) : Alu :=
  { r := a &&& v, flags := { z := (a &&& v) == 0#8, n := false, h := true, c := false } }

/-- The result and flags of XOR (rule R202). -/
def xor8 (a v : Byte) : Alu :=
  { r := a ^^^ v, flags := { z := (a ^^^ v) == 0#8, n := false, h := false, c := false } }

/-- The result and flags of OR (rule R202). -/
def or8 (a v : Byte) : Alu :=
  { r := a ||| v, flags := { z := (a ||| v) == 0#8, n := false, h := false, c := false } }

/-- Increment; C is kept (rules R228, R229). -/
def inc8 (v : Byte) (f : Flags) : Alu :=
  let r := v + 1#8
  { r := r, flags := { z := r == 0#8, n := false, h := decide (v.toNat % 16 = 0xF), c := f.c } }

/-- Decrement; C is kept (rules R230, R231). -/
def dec8 (v : Byte) (f : Flags) : Alu :=
  let r := v - 1#8
  { r := r, flags := { z := r == 0#8, n := true, h := decide (v.toNat % 16 = 0x0), c := f.c } }

/-- Decimal adjust (rule R232); the sums run over the unbounded integers. -/
def daa8 (a : Byte) (f : Flags) : Alu :=
  let a0 : Int := a.toNat
  let c := if f.n then f.c else f.c || decide (a0 > 0x99)
  let adjust : Int :=
    if f.n then (if f.c then -0x60 else 0) + (if f.h then -0x06 else 0)
    else (if c then 0x60 else 0) + (if f.h || decide (a.toNat % 16 > 0x09) then 0x06 else 0)
  let r := BitVec.ofInt 8 (a0 + adjust)
  { r := r, flags := { z := r == 0#8, n := f.n, h := false, c := c } }

/-- A 16-bit result with a half-carry and a carry. -/
structure Sum16 where
  r : Word
  h : Bool
  c : Bool
  deriving DecidableEq, Repr

/-- The addition of `ADD HL,rr` (rule R250): H out of bit 11, C out of bit 15. -/
def add16 (x v : Word) : Sum16 where
  r := x + v
  h := decide (x.toNat % 0x1000 + v.toNat % 0x1000 > 0xFFF)
  c := decide (x.toNat + v.toNat > 0xFFFF)

/-- `AddSpE(s, e)` (rule R253): H and C out of bits 3 and 7 of the unsigned addition of the low bytes. -/
def addSpE (x : Word) (e : Byte) : Sum16 where
  r := x + sext16 e
  h := decide (x.toNat % 16 + e.toNat % 16 > 0xF)
  c := decide (x.toNat % 256 + e.toNat > 0xFF)

/-- A result and the bit moved out. -/
structure Shift where
  r : Byte
  c : Bool
  deriving DecidableEq, Repr

/-- The byte 0 or 1. -/
def bitByte (b : Bool) : Byte := (BitVec.ofBool b).setWidth 8

/-- `Rlc(v)` (rule R260); the carry is not read. -/
def rlc8 (v : Byte) (_cin : Bool) : Shift where
  r := (v <<< 1) ||| bitByte (v.getLsbD 7)
  c := v.getLsbD 7

/-- `Rrc(v)` (rule R260); the carry is not read. -/
def rrc8 (v : Byte) (_cin : Bool) : Shift where
  r := (v >>> 1) ||| (bitByte (v.getLsbD 0) <<< 7)
  c := v.getLsbD 0

/-- `Rl(v, cin)` (rule R260). -/
def rl8 (v : Byte) (cin : Bool) : Shift where
  r := (v <<< 1) ||| bitByte cin
  c := v.getLsbD 7

/-- `Rr(v, cin)` (rule R260). -/
def rr8 (v : Byte) (cin : Bool) : Shift where
  r := (v >>> 1) ||| (bitByte cin <<< 7)
  c := v.getLsbD 0

/-- `Sla(v)` (rule R260); the carry is not read. -/
def sla8 (v : Byte) (_cin : Bool) : Shift where
  r := v <<< 1
  c := v.getLsbD 7

/-- `Sra(v)` (rule R260); the carry is not read. -/
def sra8 (v : Byte) (_cin : Bool) : Shift where
  r := (v >>> 1) ||| (v &&& 0x80#8)
  c := v.getLsbD 0

/-- `Swap(v)` (rule R260); the carry is not read. -/
def swap8 (v : Byte) (_cin : Bool) : Shift where
  r := (v <<< 4) ||| (v >>> 4)
  c := false

/-- `Srl(v)` (rule R260); the carry is not read. -/
def srl8 (v : Byte) (_cin : Bool) : Shift where
  r := v >>> 1
  c := v.getLsbD 0

/-- The flags of the prefixed rotates and shifts: Z per result, N = H = 0 (rules R265 to R280). -/
def Shift.flags (x : Shift) : Flags := { z := x.r == 0#8, n := false, h := false, c := x.c }

/-- The flags of RLCA, RRCA, RLA, RRA: Z = 0 always (rules R261 to R264). -/
def Shift.flagsA (x : Shift) : Flags := { z := false, n := false, h := false, c := x.c }

/-- The flags of BIT (rules R281, R282): Z the complement of the bit, N = 0, H = 1, C kept. -/
def bitFlags (b : Nat) (v : Byte) (f : Flags) : Flags := { z := !v.getLsbD b, n := false, h := true, c := f.c }

/-- `v & ~(1 << b)` (rules R283, R284). -/
def resBit (b : Nat) (v : Byte) : Byte := v &&& ~~~(1#8 <<< b)

/-- `v | (1 << b)` (rules R285, R286). -/
def setBit (b : Nat) (v : Byte) : Byte := v ||| (1#8 <<< b)

end Sys2Proof.Machine
end

