-- ==== Sys2Proof/Machine/Timer.lean ====
section
/-! DEFINITION. Interrupt requests and the Timer (60_exceptions.md rules R353, R354, R380 to R392). -/

namespace Sys2Proof.Machine

/-- `request(i)`: `IF[i] <- 1` and nothing else (rule R353). -/
def State.request (s : State) (i : Nat) : State := { s with ifl := s.ifl ||| (1#5 <<< i) }

/-- `IE[4:0] & IF[4:0]`, the enabled requests (rule R354). -/
def State.pendingMask (s : State) : BitVec 5 := s.ie.setWidth 5 &&& s.ifl

/-- `pending()` (rule R354). -/
def State.pending (s : State) : Bool := s.pendingMask != 0#5

/-- The divider bit that TAC's clock-select picks (rules R38, R381). -/
def Timer.selectedBit (t : Timer) : Nat :=
  match (t.tac.extractLsb' 0 2).toNat with
  | 0 => 9
  | 1 => 3
  | 2 => 5
  | _ => 7

/-- The reload at the start of the cycle after an overflow (rule R381). -/
def Timer.reload (t : Timer) : Timer :=
  if t.reloadPending then { t with tima := t.tma, reloadPending := false } else t

/-- One increment of TIMA (rules R381, R383): past 0xFF it reads 0x00 and the reload is pending. -/
def Timer.increment (t : Timer) : Timer :=
  if t.tima = 0xFF#8 then { t with tima := 0x00#8, reloadPending := true } else { t with tima := t.tima + 1#8 }

/-- Whether the next divider increment is a high-to-low edge of the selected bit with TAC's enable set (rule R382). -/
def Timer.edge (t : Timer) : Bool :=
  t.tac.getLsbD 2 && t.divctr.getLsbD t.selectedBit && !(t.divctr + 1#16).getLsbD t.selectedBit

/-- The divider's increment and the edge it makes. -/
def Timer.count (t : Timer) : Timer :=
  let t' := { t with divctr := t.divctr + 1#16 }
  if t.edge then t'.increment else t'

/-- The Timer's part of `TimerTick` (rule R381). -/
def Timer.tick (t : Timer) : Timer := t.reload.count

/-- `TimerTick` (rule R381): the reload requests the Timer interrupt. -/
def State.timerTick (s : State) : State :=
  let s' := { s with timer := s.timer.tick }
  if s.timer.reloadPending then s'.request 2 else s'

/-- The Timer's `advance(n)` (rule R380). -/
def State.timerAdvance : Nat → State → State
  | 0, s => s
  | n + 1, s => State.timerAdvance n s.timerTick

/-- A write to DIV clears all 16 bits; no edge (rule R387). -/
def Timer.writeDiv (t : Timer) : Timer := { t with divctr := 0 }

/-- A write to TIMA cancels a pending reload (rule R385). -/
def Timer.writeTima (t : Timer) (v : Byte) : Timer := { t with tima := v, reloadPending := false }

/-- A write to TMA; inside the reload window it also reaches TIMA and cancels the reload (rule R386). -/
def Timer.writeTma (t : Timer) (v : Byte) : Timer :=
  if t.reloadPending then { t with tma := v, tima := v, reloadPending := false } else { t with tma := v }

/-- A write to TAC stores three bits (rule R388). -/
def Timer.writeTac (t : Timer) (v : Byte) : Timer := { t with tac := v.setWidth 3 }

end Sys2Proof.Machine
end

