-- ==== Sys2Proof/Machine/Ppu.lean ====
section
/-! DEFINITION. The video state machine and the scanline renderer (60_exceptions.md rules R400 to R421). -/

namespace Sys2Proof.Machine

/-- The mode numbers of STAT bits 1 to 0 (rule R47). -/
def Mode.code : Mode → BitVec 2
  | .hblank => 0
  | .vblank => 1
  | .oamScan => 2
  | .pixelTransfer => 3

/-- LCDC bit 7 (rule R40). -/
def Ppu.lcdOn (p : Ppu) : Bool := p.lcdc.getLsbD 7

/-- The value read at STAT (rule R41). -/
def Ppu.statRead (p : Ppu) : Byte :=
  1#1 ++ p.stat ++ BitVec.ofBool (p.ly == p.lyc) ++ (if p.lcdOn then p.mode.code else 0#2)

/-- A write to LCDC, with the effects of LCD off and LCD on (rules R40, R410, R411). -/
def Ppu.writeLcdc (p : Ppu) (v : Byte) : Ppu :=
  if p.lcdOn && !v.getLsbD 7 then { p with lcdc := v, ly := 0, dot := 0, mode := .hblank }
  else if !p.lcdOn && v.getLsbD 7 then
    { p with lcdc := v, ly := 0, dot := 0, mode := .oamScan, winLine := 0, winLatch := p.wy == 0#8 }
  else { p with lcdc := v }

/-- A write to STAT stores bits 6 to 3 (rule R41). -/
def Ppu.writeStat (p : Ppu) (v : Byte) : Ppu := { p with stat := v.extractLsb' 3 4 }

/-- The tile map a bit of LCDC selects (rules R40, R414, R418). -/
def tileMap (hi : Bool) : Nat := if hi then 0x9C00 else 0x9800

/-- The address of a tile's data (rule R415): unsigned indexes from 0x8000, signed ones from 0x9000. -/
def tileBase (unsigned : Bool) (idx : Byte) : Nat :=
  if unsigned then 0x8000 + idx.toNat * 16 else (0x9000#16 + sext16 idx * 16#16).toNat

/-- `TilePixel(map, col, row)` (rule R415); VRAM is read directly. -/
def tilePixel (mem : Mem) (lcdc : Byte) (map : Nat) (col row : Byte) : BitVec 2 :=
  let idx := mem.read (map + row.toNat / 8 * 32 + col.toNat / 8)
  let base := tileBase (lcdc.getLsbD 4) idx
  let lo := mem.read (base + 2 * (row.toNat % 8))
  let hi := mem.read (base + 2 * (row.toNat % 8) + 1)
  let b := 7 - col.toNat % 8
  BitVec.ofBool (hi.getLsbD b) ++ BitVec.ofBool (lo.getLsbD b)

/-- The OAM contents handed to the object overlay (rule R97): the blocked value while a DMA runs. -/
def State.oamView (s : State) : List Byte :=
  if s.dma.active then List.replicate 160 s.par.blockedValue
  else (List.range 160).map fun i => s.mem.read (0xFE00 + i)

/-- The contents of VRAM. -/
def State.vramView (s : State) : List Byte := (List.range 0x2000).map fun i => s.mem.read (0x8000 + i)

/-- `OBJ_OVERLAY(px, x, y)` (rule R419). -/
def State.objOverlay (s : State) (px : BitVec 2) (x y : Nat) : BitVec 2 :=
  match s.par.overlay with
  | .background => px
  | .device k => Config.objOverlay k px x y s.oamView s.vramView s.ppu.lcdc

/-- The pipeline of `RenderLine` (rule R418) between two iterations. -/
structure Pipe where
  win  : Bool
  col  : Byte
  p    : Nat
  d    : Nat
  drew : Bool
  line : Line
  deriving DecidableEq, Repr

/-- `eligible` of rule R418. -/
def Ppu.eligible (p : Ppu) : Bool := p.lcdc.getLsbD 5 && p.winLatch

/-- Stage 1 of rule R418, the window switch. -/
def Ppu.windowSwitch (pp : Ppu) (x : Pipe) : Pipe :=
  if !x.win && pp.eligible && decide (x.p = pp.wx.toNat) then { x with win := true, col := 0, drew := true } else x

/-- The pixel of stage 3 of rule R418, before the overlay. -/
def State.pipePixel (s : State) (x : Pipe) : BitVec 2 :=
  if s.ppu.lcdc.getLsbD 0 then
    if x.win then tilePixel s.mem s.ppu.lcdc (tileMap (s.ppu.lcdc.getLsbD 6)) x.col s.ppu.winLine
    else tilePixel s.mem s.ppu.lcdc (tileMap (s.ppu.lcdc.getLsbD 3)) x.col (s.ppu.ly + s.ppu.scy)
  else 0

/-- Stage 3 of rule R418, the output of one pixel. -/
def State.pipeOutput (s : State) (x : Pipe) : Pipe :=
  { x with
    line := if 7 ≤ x.p then x.line.setIfInBounds (x.p - 7) (s.objOverlay (s.pipePixel x) (x.p - 7) s.ppu.ly.toNat) else x.line
    col := x.col + 1#8
    p := x.p + 1 }

/-- One iteration of the loop of rule R418. -/
def State.pipeStep (s : State) (x : Pipe) : Pipe :=
  let x := s.ppu.windowSwitch x
  if x.d > 0 then { x with d := x.d - 1, col := x.col + 1#8 } else s.pipeOutput x

/-- The loop of rule R418, which runs while `P < 167`. -/
def State.pipeRun (s : State) : Nat → Pipe → Pipe
  | 0, x => x
  | fuel + 1, x => if x.p < 167 then s.pipeRun fuel (s.pipeStep x) else x

/-- The pipeline at the start of a line (rule R418). -/
def State.pipeStart (s : State) : Pipe where
  win  := false
  col  := (s.ppu.scx &&& 0xF8#8) - 7#8
  p    := 0
  d    := (s.ppu.scx &&& 7#8).toNat
  drew := false
  line := (s.ppu.fb[s.ppu.ly.toNat]?).getD (Vector.replicate 160 0)

/-- The pipeline at the end of a line: 167 outputs and at most 7 discards. -/
def State.pipeEnd (s : State) : Pipe := s.pipeRun 174 s.pipeStart

/-- `RenderLine` (rule R418). -/
def State.renderLine (s : State) : State :=
  let x := s.pipeEnd
  { s with
    ppu :=
      { s.ppu with
        fb := s.ppu.fb.setIfInBounds s.ppu.ly.toNat x.line
        winLine := if x.drew then s.ppu.winLine + 1#8 else s.ppu.winLine } }

/-- A STAT request if bit `i` of the stored field is set: 0 mode 0, 1 mode 1, 2 mode 2, 3 coincidence (rules R41, R406). -/
def State.statRequest (s : State) (i : Nat) : State := if s.ppu.stat.getLsbD i then s.request 1 else s

/-- Enter a mode. -/
def State.setMode (s : State) (m : Mode) : State := { s with ppu := { s.ppu with mode := m } }

/-- The dot increment and the mode changes inside a visible line (rule R403). -/
def State.ppuDot (s : State) : State :=
  let s := { s with ppu := { s.ppu with dot := s.ppu.dot + 1#9 } }
  if s.ppu.ly.toNat < 144 then
    if s.ppu.dot = 80#9 then s.setMode .pixelTransfer
    else if s.ppu.dot = 252#9 then (s.renderLine.setMode .hblank).statRequest 0
    else s
  else s

/-- The mode events of a new line (rule R403): line 144 enters VBlank, a visible line enters OAMScan, line 0 starts a frame. -/
def State.ppuNewLine (s : State) : State :=
  if s.ppu.ly = 144#8 then ((s.setMode .vblank).request 0).statRequest 1
  else if s.ppu.ly.toNat < 144 then
    let s := if s.ppu.ly = 0#8 then { s with ppu := { s.ppu with winLatch := false, winLine := 0 } } else s
    (s.setMode .oamScan).statRequest 2
  else s

/-- The line coincidence (rule R407). -/
def State.ppuCoincidence (s : State) : State := if s.ppu.ly = s.ppu.lyc then s.statRequest 3 else s

/-- The window latch's comparison (rule R416). -/
def State.ppuWindowLatch (s : State) : State :=
  if s.ppu.ly = s.ppu.wy then { s with ppu := { s.ppu with winLatch := true } } else s

/-- The end of a line (rules R403, R404). -/
def State.ppuLineEnd (s : State) : State :=
  if s.ppu.dot = 456#9 then
    let ly := if s.ppu.ly = 153#8 then 0#8 else s.ppu.ly + 1#8
    let s := { s with ppu := { s.ppu with dot := 0, ly := ly } }
    s.ppuNewLine.ppuCoincidence.ppuWindowLatch
  else s

/-- `PpuTick` (rule R403): nothing while the LCD is off (rule R401). -/
def State.ppuTick (s : State) : State := if s.ppu.lcdOn then s.ppuDot.ppuLineEnd else s

/-- The PPU's `advance(n)` (rule R401). -/
def State.ppuAdvance : Nat → State → State
  | 0, s => s
  | n + 1, s => State.ppuAdvance n s.ppuTick

end Sys2Proof.Machine
end

