-- ==== Sys2Proof/Machine/Ops.lean ====
section
/-! DEFINITION. The named operations over memory: the bus (20_memory.md rules R70 to R92), the stack (00_scope.md rule R12),
taking an interrupt and the illegal-opcode exception, and the return from an interrupt (60_exceptions.md). -/

namespace Sys2Proof.Machine

/-- What a meaning answers. -/
abbrev Result := Host.Outcome State Fault Refusal

/-- What an address reaches (the table of rule R74, the register list of rules R81, R84). -/
inductive Target where
  | cart | vram | wram | echo | oam | unusable | hram | ie
  | joyp | div | tima | tma | tac | ifl
  | lcdc | stat | scy | scx | ly | lyc | dma | wy | wx
  | ext
  deriving DecidableEq, Repr

/-- The I/O page, per address (rules R81, R84 to R86). -/
def ioTarget (a : Word) : Target :=
  if a = 0xFF00#16 then .joyp
  else if a = 0xFF04#16 then .div
  else if a = 0xFF05#16 then .tima
  else if a = 0xFF06#16 then .tma
  else if a = 0xFF07#16 then .tac
  else if a = 0xFF0F#16 then .ifl
  else if a = 0xFF40#16 then .lcdc
  else if a = 0xFF41#16 then .stat
  else if a = 0xFF42#16 then .scy
  else if a = 0xFF43#16 then .scx
  else if a = 0xFF44#16 then .ly
  else if a = 0xFF45#16 then .lyc
  else if a = 0xFF46#16 then .dma
  else if a = 0xFF4A#16 then .wy
  else if a = 0xFF4B#16 then .wx
  else .ext

/-- The table of rule R74, first matching row. -/
def targetOf (a : Word) : Target :=
  if a.toNat < 0x8000 then .cart
  else if a.toNat < 0xA000 then .vram
  else if a.toNat < 0xC000 then .cart
  else if a.toNat < 0xE000 then .wram
  else if a.toNat < 0xFE00 then .echo
  else if a.toNat < 0xFEA0 then .oam
  else if a.toNat < 0xFF00 then .unusable
  else if a.toNat < 0xFF80 then ioTarget a
  else if a.toNat < 0xFFFF then .hram
  else .ie

/-- The storage address behind an address of VRAM, WRAM, OAM or HRAM; the echo is work RAM (rule R78). -/
def storageKey (a : Word) : Nat := if 0xE000 ≤ a.toNat ∧ a.toNat < 0xFE00 then a.toNat - 0x2000 else a.toNat

namespace State

/-- VRAM is blocked in mode 3 with the LCD on (rules R88, R91). -/
def vramBlocked (s : State) : Bool := s.ppu.lcdOn && decide (s.ppu.mode = .pixelTransfer)

/-- OAM is blocked while a DMA runs, and in modes 2 and 3 with the LCD on (rules R90, R91). -/
def oamBlocked (s : State) : Bool :=
  s.dma.active || (s.ppu.lcdOn && (decide (s.ppu.mode = .oamScan) || decide (s.ppu.mode = .pixelTransfer)))

/-- `BusRead(a)` (rules R70, R74; register reads of rule R59). It is total and changes nothing (rules R72, R104). -/
def busRead (s : State) (a : Word) : Byte :=
  match targetOf a with
  | .cart => s.cartRead a
  | .vram => if s.vramBlocked then s.par.blockedValue else s.mem.read (storageKey a)
  | .wram => s.mem.read (storageKey a)
  | .echo => s.mem.read (storageKey a)
  | .oam => if s.oamBlocked then s.par.blockedValue else s.mem.read (storageKey a)
  | .unusable => s.par.openBus
  | .hram => s.mem.read (storageKey a)
  | .ie => s.ie
  | .joyp => joyRead s.joy
  | .div => hiByte s.timer.divctr
  | .tima => s.timer.tima
  | .tma => s.timer.tma
  | .tac => 0x1F#5 ++ s.timer.tac
  | .ifl => 0x7#3 ++ s.ifl
  | .lcdc => s.ppu.lcdc
  | .stat => s.ppu.statRead
  | .scy => s.ppu.scy
  | .scx => s.ppu.scx
  | .ly => s.ppu.ly
  | .lyc => s.ppu.lyc
  | .dma => s.dma.reg
  | .wy => s.ppu.wy
  | .wx => s.ppu.wx
  | .ext => s.extRead a

/-- Store a byte of VRAM, WRAM, OAM or HRAM. -/
def store (s : State) (a : Word) (v : Byte) : State := { s with mem := s.mem.write (storageKey a) v }

/-- Replace the Timer. -/
def setTimer (s : State) (t : Timer) : State := { s with timer := t }

/-- Replace the PPU. -/
def setPpu (s : State) (p : Ppu) : State := { s with ppu := p }

/-- `BusWrite(a, v)` (rules R70, R73, R74, R105; register writes of rule R59). It is total (rule R72). -/
def busWrite (s : State) (a : Word) (v : Byte) : State :=
  match targetOf a with
  | .cart => s.cartWrite a v
  | .vram => if s.vramBlocked then s else s.store a v
  | .wram => s.store a v
  | .echo => s.store a v
  | .oam => if s.oamBlocked then s else s.store a v
  | .unusable => s
  | .hram => s.store a v
  | .ie => { s with ie := v }
  | .joyp => { s with joy := joyWrite s.joy v }
  | .div => s.setTimer s.timer.writeDiv
  | .tima => s.setTimer (s.timer.writeTima v)
  | .tma => s.setTimer (s.timer.writeTma v)
  | .tac => s.setTimer (s.timer.writeTac v)
  | .ifl => { s with ifl := v.setWidth 5 }
  | .lcdc => s.setPpu (s.ppu.writeLcdc v)
  | .stat => s.setPpu (s.ppu.writeStat v)
  | .scy => s.setPpu { s.ppu with scy := v }
  | .scx => s.setPpu { s.ppu with scx := v }
  | .ly => s
  | .lyc => s.setPpu { s.ppu with lyc := v }
  | .dma => s.writeDma v
  | .wy => s.setPpu { s.ppu with wy := v }
  | .wx => s.setPpu { s.ppu with wx := v }
  | .ext => { s with ext := extWrite s.ext a v }

/-- `Push16(v)` (rule R12): the high byte first. -/
def push16 (s : State) (v : Word) : State :=
  let s := s.setSp (s.sp - 1#16)
  let s := s.busWrite s.sp (hiByte v)
  let s := s.setSp (s.sp - 1#16)
  s.busWrite s.sp (loByte v)

/-- The word `Pop16()` returns (rule R12): the low byte at `sp`. -/
def popWord (s : State) : Word := cat (s.busRead (s.sp + 1#16)) (s.busRead s.sp)

/-- What `Pop16()` does to `sp` (rule R12). -/
def popSp (s : State) : State := s.setSp (s.sp + 2#16)

/-- The second operand in memory: the byte at HL (rule R203). -/
def readHl (s : State) : Byte := s.busRead s.hl

/-- `MemWrite(HL, 1, v)`. -/
def writeHl (s : State) (v : Byte) : State := s.busWrite s.hl v

/-- `A <- MemRead(a, 1)`. -/
def loadA (s : State) (a : Word) : State := s.setR .a (s.busRead a)

/-- `MemWrite(a, 1, A)`. -/
def storeA (s : State) (a : Word) : State := s.busWrite a s.regs.a

/-- `MemWrite(a, 2, v)` (rule R8): the low byte first; the second address wraps (rule R112). -/
def write16 (s : State) (a : Word) (v : Word) : State := (s.busWrite a (loByte v)).busWrite (a + 1#16) (hiByte v)

/-- The source an interrupt dispatch serves: the least set bit of the mask (rules R351, R360). -/
def leastSource (p : BitVec 5) : Nat :=
  if p.getLsbD 0 then 0 else if p.getLsbD 1 then 1 else if p.getLsbD 2 then 2 else if p.getLsbD 3 then 3 else 4

/-- The vector of source `i` (rule R352). -/
def vector (i : Nat) : Word := BitVec.ofNat 16 (0x0040 + 8 * i)

/-- TAKING AN INTERRUPT, `Dispatch(p)` (rule R360): the source is selected before anything is written, `pc` is pushed, the
latches are cleared, the request is acknowledged, `pc` goes to the vector, and the cost is 20 cycles (rule R361). -/
def dispatch (s : State) (p : BitVec 5) : State :=
  let i := leastSource p
  let s := s.push16 s.pc
  { s with
    ime := false
    imeArm := false
    haltBug := false
    ifl := s.ifl &&& ~~~(1#5 <<< i)
    pc := vector i
    cycles := 20 }

/-- RETURN FROM AN INTERRUPT (rules R310, R364): `pc` is popped and IME is set at once. -/
def returnFromInterrupt (s : State) : State :=
  let target := s.popWord
  { s.popSp with pc := target, ime := true, imeArm := false }

/-- TAKING THE ILLEGAL-OPCODE EXCEPTION (rules R370, R371): nothing changes but `run`. -/
def raiseIllegal (s : State) (op : Byte) : State := { s with run := .faulted op s.pc }

end State

end Sys2Proof.Machine
end

