-- ==== Sys2Proof/Machine/Alu16.lean ====
section
/-! DEFINITION. The 16-bit arithmetic instructions (43_alu16.md). -/

namespace Sys2Proof.Machine

/-- `ADD HL,rr` (rule R250): Z is kept. -/
def execAddHlRr (p : RP) (s : State) : Result :=
  let x := add16 s.hl (s.getRP p)
  .next (((s.setHl x.r).setFlags { s.flags with n := false, h := x.h, c := x.c }).cost 8)

/-- `INC rr` (rule R251). -/
def execIncRr (p : RP) (s : State) : Result :=
  .next ((s.setRP p (s.getRP p + 1#16)).cost 8)

/-- `DEC rr` (rule R252). -/
def execDecRr (p : RP) (s : State) : Result :=
  .next ((s.setRP p (s.getRP p - 1#16)).cost 8)

/-- `ADD SP,e` (rule R254). -/
def execAddSpE (e : Byte) (s : State) : Result :=
  let x := addSpE s.sp e
  .next (((s.setSp x.r).setFlags { z := false, n := false, h := x.h, c := x.c }).cost 16)

/-- `LD HL,SP+e` (rule R255). -/
def execLdHlSpE (e : Byte) (s : State) : Result :=
  let x := addSpE s.sp e
  .next (((s.setHl x.r).setFlags { z := false, n := false, h := x.h, c := x.c }).cost 12)

end Sys2Proof.Machine
end

