-- ==== Sys2Proof/Machine/Alu8.lean ====
section
/-! DEFINITION. The 8-bit arithmetic and logic instructions (42_alu8.md). The flag functions are those of Flags.lean. -/

namespace Sys2Proof.Machine

/-- Put an ALU result into A and the flags. -/
def State.setAlu (s : State) (x : Alu) : State := (s.setR .a x.r).setFlags x.flags

/-- `ADD A,r` (rule R204). -/
def execAddAR (rs : R8) (s : State) : Result :=
  .next ((s.setAlu (add8 s.regs.a (s.getR rs) false)).cost 4)

/-- `ADD A,(HL)` (rule R205). -/
def execAddAHl (s : State) : Result :=
  .next ((s.setAlu (add8 s.regs.a s.readHl false)).cost 8)

/-- `ADD A,n` (rule R206). -/
def execAddAN (n : Byte) (s : State) : Result :=
  .next ((s.setAlu (add8 s.regs.a n false)).cost 8)

/-- `ADC A,r` (rule R207). -/
def execAdcAR (rs : R8) (s : State) : Result :=
  .next ((s.setAlu (add8 s.regs.a (s.getR rs) s.flags.c)).cost 4)

/-- `ADC A,(HL)` (rule R208). -/
def execAdcAHl (s : State) : Result :=
  .next ((s.setAlu (add8 s.regs.a s.readHl s.flags.c)).cost 8)

/-- `ADC A,n` (rule R209). -/
def execAdcAN (n : Byte) (s : State) : Result :=
  .next ((s.setAlu (add8 s.regs.a n s.flags.c)).cost 8)

/-- `SUB A,r` (rule R210). -/
def execSubAR (rs : R8) (s : State) : Result :=
  .next ((s.setAlu (sub8 s.regs.a (s.getR rs) false)).cost 4)

/-- `SUB A,(HL)` (rule R211). -/
def execSubAHl (s : State) : Result :=
  .next ((s.setAlu (sub8 s.regs.a s.readHl false)).cost 8)

/-- `SUB A,n` (rule R212). -/
def execSubAN (n : Byte) (s : State) : Result :=
  .next ((s.setAlu (sub8 s.regs.a n false)).cost 8)

/-- `SBC A,r` (rule R213). -/
def execSbcAR (rs : R8) (s : State) : Result :=
  .next ((s.setAlu (sub8 s.regs.a (s.getR rs) s.flags.c)).cost 4)

/-- `SBC A,(HL)` (rule R214). -/
def execSbcAHl (s : State) : Result :=
  .next ((s.setAlu (sub8 s.regs.a s.readHl s.flags.c)).cost 8)

/-- `SBC A,n` (rule R215). -/
def execSbcAN (n : Byte) (s : State) : Result :=
  .next ((s.setAlu (sub8 s.regs.a n s.flags.c)).cost 8)

/-- `AND A,r` (rule R216). -/
def execAndAR (rs : R8) (s : State) : Result :=
  .next ((s.setAlu (and8 s.regs.a (s.getR rs))).cost 4)

/-- `AND A,(HL)` (rule R217). -/
def execAndAHl (s : State) : Result :=
  .next ((s.setAlu (and8 s.regs.a s.readHl)).cost 8)

/-- `AND A,n` (rule R218). -/
def execAndAN (n : Byte) (s : State) : Result :=
  .next ((s.setAlu (and8 s.regs.a n)).cost 8)

/-- `XOR A,r` (rule R219). -/
def execXorAR (rs : R8) (s : State) : Result :=
  .next ((s.setAlu (xor8 s.regs.a (s.getR rs))).cost 4)

/-- `XOR A,(HL)` (rule R220). -/
def execXorAHl (s : State) : Result :=
  .next ((s.setAlu (xor8 s.regs.a s.readHl)).cost 8)

/-- `XOR A,n` (rule R221). -/
def execXorAN (n : Byte) (s : State) : Result :=
  .next ((s.setAlu (xor8 s.regs.a n)).cost 8)

/-- `OR A,r` (rule R222). -/
def execOrAR (rs : R8) (s : State) : Result :=
  .next ((s.setAlu (or8 s.regs.a (s.getR rs))).cost 4)

/-- `OR A,(HL)` (rule R223). -/
def execOrAHl (s : State) : Result :=
  .next ((s.setAlu (or8 s.regs.a s.readHl)).cost 8)

/-- `OR A,n` (rule R224). -/
def execOrAN (n : Byte) (s : State) : Result :=
  .next ((s.setAlu (or8 s.regs.a n)).cost 8)

/-- `CP A,r` (rule R225). -/
def execCpAR (rs : R8) (s : State) : Result :=
  .next ((s.setFlags (sub8 s.regs.a (s.getR rs) false).flags).cost 4)

/-- `CP A,(HL)` (rule R226). -/
def execCpAHl (s : State) : Result :=
  .next ((s.setFlags (sub8 s.regs.a s.readHl false).flags).cost 8)

/-- `CP A,n` (rule R227). -/
def execCpAN (n : Byte) (s : State) : Result :=
  .next ((s.setFlags (sub8 s.regs.a n false).flags).cost 8)

/-- `INC r` (rule R228). -/
def execIncR (rd : R8) (s : State) : Result :=
  let x := inc8 (s.getR rd) s.flags
  .next (((s.setR rd x.r).setFlags x.flags).cost 4)

/-- `INC (HL)` (rule R229). -/
def execIncHl (s : State) : Result :=
  let x := inc8 s.readHl s.flags
  .next (((s.writeHl x.r).setFlags x.flags).cost 12)

/-- `DEC r` (rule R230). -/
def execDecR (rd : R8) (s : State) : Result :=
  let x := dec8 (s.getR rd) s.flags
  .next (((s.setR rd x.r).setFlags x.flags).cost 4)

/-- `DEC (HL)` (rule R231). -/
def execDecHl (s : State) : Result :=
  let x := dec8 s.readHl s.flags
  .next (((s.writeHl x.r).setFlags x.flags).cost 12)

/-- `DAA` (rule R232). -/
def execDaa (s : State) : Result :=
  .next ((s.setAlu (daa8 s.regs.a s.flags)).cost 4)

/-- `CPL` (rule R233). -/
def execCpl (s : State) : Result :=
  .next (((s.setR .a (s.regs.a ^^^ 0xFF#8)).setFlags { s.flags with n := true, h := true }).cost 4)

/-- `SCF` (rule R234). -/
def execScf (s : State) : Result :=
  .next ((s.setFlags { s.flags with n := false, h := false, c := true }).cost 4)

/-- `CCF` (rule R235). -/
def execCcf (s : State) : Result :=
  .next ((s.setFlags { s.flags with n := false, h := false, c := !s.flags.c }).cost 4)

end Sys2Proof.Machine
end

