-- ==== Sys2Proof/Machine/Control.lean ====
section
/-! DEFINITION. The control-transfer instructions (45_control.md). -/

namespace Sys2Proof.Machine

/-- `JP nn` (rule R301). -/
def execJpNn (nn : Word) (s : State) : Result :=
  .next ((s.setPc nn).cost 16)

/-- `JP cc,nn` (rule R302). -/
def execJpCcNn (cc : Cond) (nn : Word) (s : State) : Result :=
  if s.cond cc then .next ((s.setPc nn).cost 16) else .next (s.cost 12)

/-- `JP HL` (rule R303): memory is not read. -/
def execJpHl (s : State) : Result :=
  .next ((s.setPc s.hl).cost 4)

/-- `JR e` (rule R304). -/
def execJrE (e : Byte) (s : State) : Result :=
  .next ((s.setPc (s.pc + sext16 e)).cost 12)

/-- `JR cc,e` (rule R305). -/
def execJrCcE (cc : Cond) (e : Byte) (s : State) : Result :=
  if s.cond cc then .next ((s.setPc (s.pc + sext16 e)).cost 12) else .next (s.cost 8)

/-- `CALL nn` (rule R306). -/
def execCallNn (nn : Word) (s : State) : Result :=
  .next (((s.push16 s.pc).setPc nn).cost 24)

/-- `CALL cc,nn` (rule R307): not taken, the stack is not touched. -/
def execCallCcNn (cc : Cond) (nn : Word) (s : State) : Result :=
  if s.cond cc then .next (((s.push16 s.pc).setPc nn).cost 24) else .next (s.cost 12)

/-- `RET` (rule R308). -/
def execRet (s : State) : Result :=
  .next ((s.popSp.setPc s.popWord).cost 16)

/-- `RET cc` (rule R309). -/
def execRetCc (cc : Cond) (s : State) : Result :=
  if s.cond cc then .next ((s.popSp.setPc s.popWord).cost 20) else .next (s.cost 8)

/-- `RETI` (rule R310). -/
def execReti (s : State) : Result :=
  .next (s.returnFromInterrupt.cost 16)

/-- `RST t` (rule R311). -/
def execRst (t : Nat) (s : State) : Result :=
  .next (((s.push16 s.pc).setPc (BitVec.ofNat 16 (8 * t))).cost 16)

end Sys2Proof.Machine
end

