-- ==== Sys2Proof/Machine/Load16.lean ====
section
/-! DEFINITION. The 16-bit loads and the stack instructions (41_load16_stack.md). -/

namespace Sys2Proof.Machine

/-- `LD rr,nn` (rule R190). -/
def execLdRrNn (p : RP) (nn : Word) (s : State) : Result :=
  .next ((s.setRP p nn).cost 12)

/-- `LD (nn),SP` (rule R191): the low byte first. -/
def execLdNnSp (nn : Word) (s : State) : Result :=
  .next ((s.write16 nn s.sp).cost 20)

/-- `LD SP,HL` (rule R192). -/
def execLdSpHl (s : State) : Result :=
  .next ((s.setSp s.hl).cost 8)

/-- `PUSH qq` (rule R193). -/
def execPush (q : RP2) (s : State) : Result :=
  .next ((s.push16 (s.getRP2 q)).cost 16)

/-- `POP qq` (rule R194). -/
def execPop (q : RP2) (s : State) : Result :=
  .next ((s.popSp.setRP2 q s.popWord).cost 12)

end Sys2Proof.Machine
end

