-- ==== Sys2Proof/Machine/Load8.lean ====
section
/-! DEFINITION. The 8-bit loads (40_load8.md). A meaning runs with `pc` already past the instruction (rule R344). -/

namespace Sys2Proof.Machine

/-- `LD r,r'` (rule R160). -/
def execLdRR (rd rs : R8) (s : State) : Result :=
  .next ((s.setR rd (s.getR rs)).cost 4)

/-- `LD r,n` (rule R161). -/
def execLdRN (rd : R8) (n : Byte) (s : State) : Result :=
  .next ((s.setR rd n).cost 8)

/-- `LD r,(HL)` (rule R162). -/
def execLdRHl (rd : R8) (s : State) : Result :=
  .next ((s.setR rd s.readHl).cost 8)

/-- `LD (HL),r` (rule R163). -/
def execLdHlR (rs : R8) (s : State) : Result :=
  .next ((s.writeHl (s.getR rs)).cost 8)

/-- `LD (HL),n` (rule R164). -/
def execLdHlN (n : Byte) (s : State) : Result :=
  .next ((s.writeHl n).cost 12)

/-- `LD A,(BC)` (rule R165). -/
def execLdABc (s : State) : Result :=
  .next ((s.loadA s.bc).cost 8)

/-- `LD A,(DE)` (rule R166). -/
def execLdADe (s : State) : Result :=
  .next ((s.loadA s.de).cost 8)

/-- `LD (BC),A` (rule R167). -/
def execLdBcA (s : State) : Result :=
  .next ((s.storeA s.bc).cost 8)

/-- `LD (DE),A` (rule R168). -/
def execLdDeA (s : State) : Result :=
  .next ((s.storeA s.de).cost 8)

/-- `LD A,(nn)` (rule R169). -/
def execLdANn (nn : Word) (s : State) : Result :=
  .next ((s.loadA nn).cost 16)

/-- `LD (nn),A` (rule R170). -/
def execLdNnA (nn : Word) (s : State) : Result :=
  .next ((s.storeA nn).cost 16)

/-- `LDH A,(C)` (rule R171). -/
def execLdhAC (s : State) : Result :=
  .next ((s.loadA (highPage s.regs.c)).cost 8)

/-- `LDH (C),A` (rule R172). -/
def execLdhCA (s : State) : Result :=
  .next ((s.storeA (highPage s.regs.c)).cost 8)

/-- `LDH A,(n)` (rule R173). -/
def execLdhAN (n : Byte) (s : State) : Result :=
  .next ((s.loadA (highPage n)).cost 12)

/-- `LDH (n),A` (rule R174). -/
def execLdhNA (n : Byte) (s : State) : Result :=
  .next ((s.storeA (highPage n)).cost 12)

/-- `LD A,(HL-)` (rule R175). -/
def execLdAHlDec (s : State) : Result :=
  .next (((s.loadA s.hl).setHl (s.hl - 1#16)).cost 8)

/-- `LD (HL-),A` (rule R176). -/
def execLdHlDecA (s : State) : Result :=
  .next (((s.storeA s.hl).setHl (s.hl - 1#16)).cost 8)

/-- `LD A,(HL+)` (rule R177). -/
def execLdAHlInc (s : State) : Result :=
  .next (((s.loadA s.hl).setHl (s.hl + 1#16)).cost 8)

/-- `LD (HL+),A` (rule R178). -/
def execLdHlIncA (s : State) : Result :=
  .next (((s.storeA s.hl).setHl (s.hl + 1#16)).cost 8)

end Sys2Proof.Machine
end

