-- ==== Sys2Proof/Machine/RotShiftBit.lean ====
section
/-! DEFINITION. The rotates, shifts and bit instructions (44_rotate_shift_bit.md). -/

namespace Sys2Proof.Machine

/-- An accumulator rotation (rules R261 to R264). -/
def State.rotateA (s : State) (f : Byte → Bool → Shift) : State :=
  let x := f s.regs.a s.flags.c
  (s.setR .a x.r).setFlags x.flagsA

/-- A prefixed rotate or shift of a register (rules R265 to R279). -/
def State.rotateR (s : State) (f : Byte → Bool → Shift) (r : R8) : State :=
  let x := f (s.getR r) s.flags.c
  (s.setR r x.r).setFlags x.flags

/-- A prefixed rotate or shift of the byte at HL: one read, then one write (rules R266 to R280). -/
def State.rotateHl (s : State) (f : Byte → Bool → Shift) : State :=
  let x := f s.readHl s.flags.c
  (s.writeHl x.r).setFlags x.flags

/-- `RLCA` (rule R261). -/
def execRlca (s : State) : Result :=
  .next ((s.rotateA rlc8).cost 4)

/-- `RRCA` (rule R262). -/
def execRrca (s : State) : Result :=
  .next ((s.rotateA rrc8).cost 4)

/-- `RLA` (rule R263). -/
def execRla (s : State) : Result :=
  .next ((s.rotateA rl8).cost 4)

/-- `RRA` (rule R264). -/
def execRra (s : State) : Result :=
  .next ((s.rotateA rr8).cost 4)

/-- `RLC r` (rule R265). -/
def execRlcR (rs : R8) (s : State) : Result :=
  .next ((s.rotateR rlc8 rs).cost 8)

/-- `RLC (HL)` (rule R266). -/
def execRlcHl (s : State) : Result :=
  .next ((s.rotateHl rlc8).cost 16)

/-- `RRC r` (rule R267). -/
def execRrcR (rs : R8) (s : State) : Result :=
  .next ((s.rotateR rrc8 rs).cost 8)

/-- `RRC (HL)` (rule R268). -/
def execRrcHl (s : State) : Result :=
  .next ((s.rotateHl rrc8).cost 16)

/-- `RL r` (rule R269). -/
def execRlR (rs : R8) (s : State) : Result :=
  .next ((s.rotateR rl8 rs).cost 8)

/-- `RL (HL)` (rule R270). -/
def execRlHl (s : State) : Result :=
  .next ((s.rotateHl rl8).cost 16)

/-- `RR r` (rule R271). -/
def execRrR (rs : R8) (s : State) : Result :=
  .next ((s.rotateR rr8 rs).cost 8)

/-- `RR (HL)` (rule R272). -/
def execRrHl (s : State) : Result :=
  .next ((s.rotateHl rr8).cost 16)

/-- `SLA r` (rule R273). -/
def execSlaR (rs : R8) (s : State) : Result :=
  .next ((s.rotateR sla8 rs).cost 8)

/-- `SLA (HL)` (rule R274). -/
def execSlaHl (s : State) : Result :=
  .next ((s.rotateHl sla8).cost 16)

/-- `SRA r` (rule R275). -/
def execSraR (rs : R8) (s : State) : Result :=
  .next ((s.rotateR sra8 rs).cost 8)

/-- `SRA (HL)` (rule R276). -/
def execSraHl (s : State) : Result :=
  .next ((s.rotateHl sra8).cost 16)

/-- `SWAP r` (rule R277). -/
def execSwapR (rs : R8) (s : State) : Result :=
  .next ((s.rotateR swap8 rs).cost 8)

/-- `SWAP (HL)` (rule R278). -/
def execSwapHl (s : State) : Result :=
  .next ((s.rotateHl swap8).cost 16)

/-- `SRL r` (rule R279). -/
def execSrlR (rs : R8) (s : State) : Result :=
  .next ((s.rotateR srl8 rs).cost 8)

/-- `SRL (HL)` (rule R280). -/
def execSrlHl (s : State) : Result :=
  .next ((s.rotateHl srl8).cost 16)

/-- `BIT b,r` (rule R281). -/
def execBitR (b : Nat) (rs : R8) (s : State) : Result :=
  .next ((s.setFlags (bitFlags b (s.getR rs) s.flags)).cost 8)

/-- `BIT b,(HL)` (rule R282). -/
def execBitHl (b : Nat) (s : State) : Result :=
  .next ((s.setFlags (bitFlags b s.readHl s.flags)).cost 12)

/-- `RES b,r` (rule R283). -/
def execResR (b : Nat) (rs : R8) (s : State) : Result :=
  .next ((s.setR rs (resBit b (s.getR rs))).cost 8)

/-- `RES b,(HL)` (rule R284). -/
def execResHl (b : Nat) (s : State) : Result :=
  .next ((s.writeHl (resBit b s.readHl)).cost 16)

/-- `SET b,r` (rule R285). -/
def execSetR (b : Nat) (rs : R8) (s : State) : Result :=
  .next ((s.setR rs (setBit b (s.getR rs))).cost 8)

/-- `SET b,(HL)` (rule R286). -/
def execSetHl (b : Nat) (s : State) : Result :=
  .next ((s.writeHl (setBit b s.readHl)).cost 16)

end Sys2Proof.Machine
end

