-- ==== Sys2Proof/Machine/SystemInstr.lean ====
section
/-! DEFINITION. The system instructions and the illegal bytes (46_system.md). -/

namespace Sys2Proof.Machine

/-- HALT (rule R321): with IME clear and an enabled request pending the core does not halt. -/
def State.halt (s : State) : State :=
  if s.ime || !s.pending then { s with run := .halted }
  else if s.par.haltBug then { s with haltBug := true }
  else s

/-- STOP (rule R322): the clock is off and DIVCTR is cleared. -/
def State.stop (s : State) : State := { s with run := .stopped, timer := s.timer.writeDiv }

/-- DI (rule R323). -/
def State.disableInterrupts (s : State) : State := { s with ime := false, imeArm := false }

/-- EI (rule R324): IME itself is written by the step (rule R346). -/
def State.armInterrupts (s : State) : State := { s with imeArm := true }

/-- `NOP` (rule R320). -/
def execNop (s : State) : Result :=
  .next (s.cost 4)

/-- `HALT` (rule R321). -/
def execHalt (s : State) : Result :=
  .next (s.halt.cost 4)

/-- `STOP` (rule R322): the second byte is ignored. -/
def execStop (_x : Byte) (s : State) : Result :=
  .next (s.stop.cost 4)

/-- `DI` (rule R323). -/
def execDi (s : State) : Result :=
  .next (s.disableInterrupts.cost 4)

/-- `EI` (rule R324). -/
def execEi (s : State) : Result :=
  .next (s.armInterrupts.cost 4)

/-- The illegal byte 0xD3 (rule R325): the next state is Faulted, `pc` still at the byte, no cycle count. -/
def execIllegalD3 (s : State) : Result :=
  .next (s.raiseIllegal 0xD3#8)

/-- The illegal byte 0xDB (rule R325): the next state is Faulted, `pc` still at the byte, no cycle count. -/
def execIllegalDB (s : State) : Result :=
  .next (s.raiseIllegal 0xDB#8)

/-- The illegal byte 0xDD (rule R325): the next state is Faulted, `pc` still at the byte, no cycle count. -/
def execIllegalDD (s : State) : Result :=
  .next (s.raiseIllegal 0xDD#8)

/-- The illegal byte 0xE3 (rule R325): the next state is Faulted, `pc` still at the byte, no cycle count. -/
def execIllegalE3 (s : State) : Result :=
  .next (s.raiseIllegal 0xE3#8)

/-- The illegal byte 0xE4 (rule R325): the next state is Faulted, `pc` still at the byte, no cycle count. -/
def execIllegalE4 (s : State) : Result :=
  .next (s.raiseIllegal 0xE4#8)

/-- The illegal byte 0xEB (rule R325): the next state is Faulted, `pc` still at the byte, no cycle count. -/
def execIllegalEB (s : State) : Result :=
  .next (s.raiseIllegal 0xEB#8)

/-- The illegal byte 0xEC (rule R325): the next state is Faulted, `pc` still at the byte, no cycle count. -/
def execIllegalEC (s : State) : Result :=
  .next (s.raiseIllegal 0xEC#8)

/-- The illegal byte 0xED (rule R325): the next state is Faulted, `pc` still at the byte, no cycle count. -/
def execIllegalED (s : State) : Result :=
  .next (s.raiseIllegal 0xED#8)

/-- The illegal byte 0xF4 (rule R325): the next state is Faulted, `pc` still at the byte, no cycle count. -/
def execIllegalF4 (s : State) : Result :=
  .next (s.raiseIllegal 0xF4#8)

/-- The illegal byte 0xFC (rule R325): the next state is Faulted, `pc` still at the byte, no cycle count. -/
def execIllegalFC (s : State) : Result :=
  .next (s.raiseIllegal 0xFC#8)

/-- The illegal byte 0xFD (rule R325): the next state is Faulted, `pc` still at the byte, no cycle count. -/
def execIllegalFD (s : State) : Result :=
  .next (s.raiseIllegal 0xFD#8)

end Sys2Proof.Machine
end

