-- ==== Sys2Proof/Machine/Dispatch.lean ====
section
/-! DEFINITION. One arm per instruction, each a direct call of its meaning. -/

namespace Sys2Proof.Machine

def exec (i : Instr) (s : State) : Host.Outcome State Fault Refusal :=
  match i with
  -- 40_load8.md
  | .ldRR rd rs => Sys2Proof.Machine.execLdRR rd rs s
  | .ldRN rd n => Sys2Proof.Machine.execLdRN rd n s
  | .ldRHl rd => Sys2Proof.Machine.execLdRHl rd s
  | .ldHlR rs => Sys2Proof.Machine.execLdHlR rs s
  | .ldHlN n => Sys2Proof.Machine.execLdHlN n s
  | .ldABc => Sys2Proof.Machine.execLdABc s
  | .ldADe => Sys2Proof.Machine.execLdADe s
  | .ldBcA => Sys2Proof.Machine.execLdBcA s
  | .ldDeA => Sys2Proof.Machine.execLdDeA s
  | .ldANn nn => Sys2Proof.Machine.execLdANn nn s
  | .ldNnA nn => Sys2Proof.Machine.execLdNnA nn s
  | .ldhAC => Sys2Proof.Machine.execLdhAC s
  | .ldhCA => Sys2Proof.Machine.execLdhCA s
  | .ldhAN n => Sys2Proof.Machine.execLdhAN n s
  | .ldhNA n => Sys2Proof.Machine.execLdhNA n s
  | .ldAHlDec => Sys2Proof.Machine.execLdAHlDec s
  | .ldHlDecA => Sys2Proof.Machine.execLdHlDecA s
  | .ldAHlInc => Sys2Proof.Machine.execLdAHlInc s
  | .ldHlIncA => Sys2Proof.Machine.execLdHlIncA s
  -- 41_load16_stack.md
  | .ldRrNn p nn => Sys2Proof.Machine.execLdRrNn p nn s
  | .ldNnSp nn => Sys2Proof.Machine.execLdNnSp nn s
  | .ldSpHl => Sys2Proof.Machine.execLdSpHl s
  | .push q => Sys2Proof.Machine.execPush q s
  | .pop q => Sys2Proof.Machine.execPop q s
  -- 42_alu8.md
  | .addAR rs => Sys2Proof.Machine.execAddAR rs s
  | .addAHl => Sys2Proof.Machine.execAddAHl s
  | .addAN n => Sys2Proof.Machine.execAddAN n s
  | .adcAR rs => Sys2Proof.Machine.execAdcAR rs s
  | .adcAHl => Sys2Proof.Machine.execAdcAHl s
  | .adcAN n => Sys2Proof.Machine.execAdcAN n s
  | .subAR rs => Sys2Proof.Machine.execSubAR rs s
  | .subAHl => Sys2Proof.Machine.execSubAHl s
  | .subAN n => Sys2Proof.Machine.execSubAN n s
  | .sbcAR rs => Sys2Proof.Machine.execSbcAR rs s
  | .sbcAHl => Sys2Proof.Machine.execSbcAHl s
  | .sbcAN n => Sys2Proof.Machine.execSbcAN n s
  | .andAR rs => Sys2Proof.Machine.execAndAR rs s
  | .andAHl => Sys2Proof.Machine.execAndAHl s
  | .andAN n => Sys2Proof.Machine.execAndAN n s
  | .xorAR rs => Sys2Proof.Machine.execXorAR rs s
  | .xorAHl => Sys2Proof.Machine.execXorAHl s
  | .xorAN n => Sys2Proof.Machine.execXorAN n s
  | .orAR rs => Sys2Proof.Machine.execOrAR rs s
  | .orAHl => Sys2Proof.Machine.execOrAHl s
  | .orAN n => Sys2Proof.Machine.execOrAN n s
  | .cpAR rs => Sys2Proof.Machine.execCpAR rs s
  | .cpAHl => Sys2Proof.Machine.execCpAHl s
  | .cpAN n => Sys2Proof.Machine.execCpAN n s
  | .incR rd => Sys2Proof.Machine.execIncR rd s
  | .incHl => Sys2Proof.Machine.execIncHl s
  | .decR rd => Sys2Proof.Machine.execDecR rd s
  | .decHl => Sys2Proof.Machine.execDecHl s
  | .daa => Sys2Proof.Machine.execDaa s
  | .cpl => Sys2Proof.Machine.execCpl s
  | .scf => Sys2Proof.Machine.execScf s
  | .ccf => Sys2Proof.Machine.execCcf s
  -- 43_alu16.md
  | .addHlRr p => Sys2Proof.Machine.execAddHlRr p s
  | .incRr p => Sys2Proof.Machine.execIncRr p s
  | .decRr p => Sys2Proof.Machine.execDecRr p s
  | .addSpE e => Sys2Proof.Machine.execAddSpE e s
  | .ldHlSpE e => Sys2Proof.Machine.execLdHlSpE e s
  -- 44_rotate_shift_bit.md
  | .rlca => Sys2Proof.Machine.execRlca s
  | .rrca => Sys2Proof.Machine.execRrca s
  | .rla => Sys2Proof.Machine.execRla s
  | .rra => Sys2Proof.Machine.execRra s
  | .rlcR rs => Sys2Proof.Machine.execRlcR rs s
  | .rlcHl => Sys2Proof.Machine.execRlcHl s
  | .rrcR rs => Sys2Proof.Machine.execRrcR rs s
  | .rrcHl => Sys2Proof.Machine.execRrcHl s
  | .rlR rs => Sys2Proof.Machine.execRlR rs s
  | .rlHl => Sys2Proof.Machine.execRlHl s
  | .rrR rs => Sys2Proof.Machine.execRrR rs s
  | .rrHl => Sys2Proof.Machine.execRrHl s
  | .slaR rs => Sys2Proof.Machine.execSlaR rs s
  | .slaHl => Sys2Proof.Machine.execSlaHl s
  | .sraR rs => Sys2Proof.Machine.execSraR rs s
  | .sraHl => Sys2Proof.Machine.execSraHl s
  | .swapR rs => Sys2Proof.Machine.execSwapR rs s
  | .swapHl => Sys2Proof.Machine.execSwapHl s
  | .srlR rs => Sys2Proof.Machine.execSrlR rs s
  | .srlHl => Sys2Proof.Machine.execSrlHl s
  | .bitR b rs => Sys2Proof.Machine.execBitR b rs s
  | .bitHl b => Sys2Proof.Machine.execBitHl b s
  | .resR b rs => Sys2Proof.Machine.execResR b rs s
  | .resHl b => Sys2Proof.Machine.execResHl b s
  | .setR b rs => Sys2Proof.Machine.execSetR b rs s
  | .setHl b => Sys2Proof.Machine.execSetHl b s
  -- 45_control.md
  | .jpNn nn => Sys2Proof.Machine.execJpNn nn s
  | .jpCcNn cc nn => Sys2Proof.Machine.execJpCcNn cc nn s
  | .jpHl => Sys2Proof.Machine.execJpHl s
  | .jrE e => Sys2Proof.Machine.execJrE e s
  | .jrCcE cc e => Sys2Proof.Machine.execJrCcE cc e s
  | .callNn nn => Sys2Proof.Machine.execCallNn nn s
  | .callCcNn cc nn => Sys2Proof.Machine.execCallCcNn cc nn s
  | .ret => Sys2Proof.Machine.execRet s
  | .retCc cc => Sys2Proof.Machine.execRetCc cc s
  | .reti => Sys2Proof.Machine.execReti s
  | .rst t => Sys2Proof.Machine.execRst t s
  -- 46_system.md
  | .nop => Sys2Proof.Machine.execNop s
  | .halt => Sys2Proof.Machine.execHalt s
  | .stop x => Sys2Proof.Machine.execStop x s
  | .di => Sys2Proof.Machine.execDi s
  | .ei => Sys2Proof.Machine.execEi s
  | .illegalD3 => Sys2Proof.Machine.execIllegalD3 s
  | .illegalDB => Sys2Proof.Machine.execIllegalDB s
  | .illegalDD => Sys2Proof.Machine.execIllegalDD s
  | .illegalE3 => Sys2Proof.Machine.execIllegalE3 s
  | .illegalE4 => Sys2Proof.Machine.execIllegalE4 s
  | .illegalEB => Sys2Proof.Machine.execIllegalEB s
  | .illegalEC => Sys2Proof.Machine.execIllegalEC s
  | .illegalED => Sys2Proof.Machine.execIllegalED s
  | .illegalF4 => Sys2Proof.Machine.execIllegalF4 s
  | .illegalFC => Sys2Proof.Machine.execIllegalFC s
  | .illegalFD => Sys2Proof.Machine.execIllegalFD s

end Sys2Proof.Machine
end

