-- ==== Sys2Proof/Machine/System.lean ====
section
/-! DEFINITION. The CPU's step and the system step (60_exceptions.md rules R340 to R348, R358), and where a step fetches. -/

namespace Sys2Proof.Machine

namespace State

/-- The instruction at `pc` (rule R344). Under the halt bug the opcode fetch does not advance `pc`, so the byte after the
opcode is the opcode byte again (rules R31, R347). Reads change nothing (rule R104), so that a byte the instruction does not
have may be read and ignored (log entry 15). -/
def fetchedInstr (s : State) : Instr :=
  if s.haltBug then decodeBytes (s.busRead s.pc) (s.busRead s.pc) (s.busRead (s.pc + 1#16))
  else decodeBytes (s.busRead s.pc) (s.busRead (s.pc + 1#16)) (s.busRead (s.pc + 2#16))

/-- How far the fetch of `i` moves `pc` (rules R344, R347). -/
def fetchLength (s : State) (i : Instr) : Nat := if s.haltBug then i.length - 1 else i.length

/-- The state `i` executes in: `pc` past its bytes and the halt bug consumed; an illegal byte changes nothing (rule R344). -/
def fetched (s : State) (i : Instr) : State :=
  if i.illegalByte.isSome then s else { s with pc := s.pc + BitVec.ofNat 16 (s.fetchLength i), haltBug := false }

/-- Whether the CPU has faulted (rule R371). -/
def isFaulted (s : State) : Bool :=
  match s.run with
  | .faulted _ _ => true
  | _ => false

/-- The commit of EI (rule R346): armed before the instruction and still armed after it. -/
def commitIme (s : State) (armBefore : Bool) : State :=
  if armBefore && s.imeArm then { s with ime := true, imeArm := false } else s

/-- The end of `ExecuteOne` (rule R344): an illegal opcode ends the step before the commit. -/
def completed (s : State) (armBefore : Bool) : State := if s.isFaulted then s else s.commitIme armBefore

/-- `ExecuteOne` (rule R344). -/
def executeOne (s : State) : Result :=
  match exec s.fetchedInstr (s.fetched s.fetchedInstr) with
  | .next t => .next (t.completed s.imeArm)
  | .fault r => .fault r
  | .refused r => .refused r

/-- Admission (rule R341): an enabled pending interrupt is dispatched instead of the instruction at `pc`. -/
def admission (s : State) : Result :=
  if s.ime && s.pending then .next (s.dispatch s.pendingMask) else s.executeOne

/-- A halted core wakes (rule R345). -/
def wake (s : State) : State := { s with run := .running }

/-- `CpuStep` (rules R341, R345). -/
def cpuStep (s : State) : Result :=
  match s.run with
  | .halted => if s.pending then s.wake.admission else .next (s.cost 4)
  | _ => s.admission

/-- The external requests of this step, OR-ed in last (rule R358). -/
def takeExt (s : State) : State :=
  let x := s.inputs.headD { serial := false, joypad := false }
  { s with
    ifl := s.ifl ||| ((BitVec.ofBool x.serial).setWidth 5 <<< 3) ||| ((BitVec.ofBool x.joypad).setWidth 5 <<< 4)
    inputs := s.inputs.tail }

/-- The step's count goes to the external devices (rule R86) and to the running sum (rule R340). -/
def countCycles (s : State) : State :=
  { s with ext := extAdvance s.ext s.cycles, totalCycles := s.totalCycles + s.cycles }

/-- Everything after `CpuStep` in a system step (rule R340): Timer, PPU, DMA unit, external requests, the sum. -/
def deviceAdvance (s : State) : State :=
  (State.dmaAdvance s.cycles (State.ppuAdvance s.cycles (State.timerAdvance s.cycles s))).takeExt.countCycles

/-- JoypadWake (rule R348). -/
def joypadWake (s : State) : State := { s with run := .running, wakes := s.wakes - 1 }

/-- `SystemStep` (rule R340) while Running or Halted; JoypadWake while Stopped (rule R348); no step in Faulted (rule R371). -/
def systemStep (s : State) : Result :=
  match s.run with
  | .faulted op a => .fault (.illegalOpcode op a)
  | .stopped => if s.wakes = 0 then .fault .stopped else .next s.joypadWake
  | _ =>
    match s.cpuStep with
    | .next t => .next (if t.isFaulted then t else t.deviceAdvance)
    | .fault r => .fault r
    | .refused r => .refused r

/-- The storage a fetch from `a` reads, if it reads storage of this block or of a flat cartridge. -/
def fetchKey (s : State) (a : Word) : Option Nat :=
  match targetOf a with
  | .cart => match s.cart with
    | .flatRom => if a.toNat < 0x8000 then some a.toNat else none
    | .romRam => some a.toNat
    | .mapper _ _ => none
  | .vram => if s.vramBlocked then none else some a.toNat
  | .oam => if s.oamBlocked then none else some a.toNat
  | .wram => some a.toNat
  | .echo => some (storageKey a)
  | .hram => some a.toNat
  | _ => none

/-- Whether the three bytes at `pc` are all fetched from such storage. -/
def fetchable (s : State) : Bool :=
  (s.fetchKey s.pc).isSome && (s.fetchKey (s.pc + 1#16)).isSome && (s.fetchKey (s.pc + 2#16)).isSome

/-- Store a byte where a fetch from `a` reads it. -/
def placeByte (s : State) (a : Word) (v : Byte) : State :=
  match s.fetchKey a with
  | some k => { s with mem := s.mem.write k v }
  | none => s

/-- A state whose next step fetches: running, no halt bug, no interrupt that would be dispatched first, and `pc` where bytes
can be placed (it stays where it is whenever they can; otherwise it goes to the start of work RAM). -/
def fetchReady (s : State) : State :=
  { s with
    run := .running
    haltBug := false
    ime := s.ime && !s.pending
    pc := if s.fetchable then s.pc else 0xC000#16 }

/-- The bytes of an instruction placed where the next step fetches it (log entry 14). -/
def placeFetch (s : State) (b0 b1 b2 : Byte) : State :=
  let s := s.fetchReady
  ((s.placeByte s.pc b0).placeByte (s.pc + 1#16) b1).placeByte (s.pc + 2#16) b2

end State

end Sys2Proof.Machine
end

