-- ==== Sys2Proof/Safety.lean ====
section
/-! DEFINITION. What the claims mean by a safe state: the invariant of every reachable state, the machine's own stops, and
the parts of the state a frame speaks of. -/

namespace Sys2Proof.Machine

/-- The mode that line and dot determine (rule R404). -/
def modeAt (ly dot : Nat) : Mode :=
  if 144 ≤ ly then .vblank
  else if dot < 80 then .oamScan
  else if dot < 252 then .pixelTransfer
  else .hblank

/-- The PPU's invariant: rule R404 with the LCD on; the start of a line in mode 0 with it off (rule R410). -/
def Ppu.wf (p : Ppu) : Bool :=
  if p.lcdOn then
    decide (p.dot.toNat < 456) && decide (p.ly.toNat < 154) && decide (p.mode = modeAt p.ly.toNat p.dot.toNat)
  else p.dot == 0 && p.ly == 0 && decide (p.mode = .hblank)

/-- The Timer's invariant: inside the reload window TIMA reads 0 and the divider has just rolled over the selected bit
(rule R383), so that no bit falls in the tick of the reload. -/
def Timer.wf (t : Timer) : Bool := !t.reloadPending || (t.tima == 0 && t.divctr.extractLsb' 0 4 == 0)

/-- The DMA unit's invariant (rules R50, R96): its counters stay in range, and under Instant nothing moves. -/
def Dma.wf (d : Dma) (policy : DmaPolicy) : Bool :=
  match policy with
  | .instant => !d.active && d.delay == 0 && d.src == 0 && d.idx == 0 && d.sub == 0
  | .gradual =>
    decide (d.idx ≤ 160) && decide (d.sub < 4) && (!d.active || (d.delay == 0 && decide (d.idx < 160))) &&
      (d.delay == 0 || (d.idx == 0 && d.sub == 0))

/-- The CPU is running, or has faulted while it ran. -/
def Run.fetching : Run → Bool
  | .running => true
  | .faulted _ _ => true
  | .halted => false
  | .stopped => false

/-- The hidden CPU bits (rules R29, R31): an armed EI or a pending halt bug is never carried into Halted or Stopped, and
without the parameter HALT_BUG there is no halt bug. -/
def State.cpuWf (s : State) : Bool :=
  (!s.imeArm || s.run.fetching) && (!s.haltBug || (s.run.fetching && s.par.haltBug))

/-- The invariant of every state a run reaches. -/
def State.Inv (s : State) : Prop :=
  s.mem.wf = true ∧ s.mem.placed = true ∧ s.ppu.wf = true ∧ s.timer.wf = true ∧ s.dma.wf s.par.dmaPolicy = true ∧
    s.cpuWf = true

/-- The machine has a next step (rules R349, R456): all but Faulted, and Stopped with no wake to come. -/
def State.canStep (s : State) : Prop :=
  match s.run with
  | .running => True
  | .halted => True
  | .stopped => s.wakes ≠ 0
  | .faulted _ _ => False

/-- Nothing differs but the CPU's registers, F, `sp`, `pc` and the returned count; so every byte reads as before. -/
def State.onlyCpu (s t : State) : Prop :=
  t = { s with regs := t.regs, flags := t.flags, sp := t.sp, pc := t.pc, cycles := t.cycles } ∧
    ∀ a, t.busRead a = s.busRead a

/-- Every 8-bit register but those listed reads as before. -/
def State.keepsRegs (s t : State) (but : List R8) : Prop := ∀ r, r ∉ but → t.getR r = s.getR r

/-- `t` is `s` with `v` in register `rd`, after `k` cycles: no other register, no flag, nothing else changes. -/
def State.loaded (s t : State) (rd : R8) (v : Byte) (k : Nat) : Prop :=
  t.getR rd = v ∧ s.keepsRegs t [rd] ∧ t.flags = s.flags ∧ t.sp = s.sp ∧ t.pc = s.pc ∧ t.cycles = k ∧ s.onlyCpu t

/-- The addresses whose read a write to `a` may change (rule R105): its own storage byte, seen also through the echo (R78);
TIMA by a write to TMA (R386); STAT, LY, VRAM and OAM by a write to LCDC (R88, R90, R410, R411); STAT by a write to LYC (R41);
OAM by a write to DMA (R93); and the ports of a device whose behaviour is its own (R75, R86). -/
def State.reaches (s : State) (a b : Word) : Prop :=
  storageKey a = storageKey b ∨
  (a = 0xFF06#16 ∧ b = 0xFF05#16) ∨
  (a = 0xFF40#16 ∧ (b = 0xFF41#16 ∨ b = 0xFF44#16 ∨ targetOf b = .vram ∨ targetOf b = .oam)) ∨
  (a = 0xFF45#16 ∧ b = 0xFF41#16) ∨
  (a = 0xFF46#16 ∧ targetOf b = .oam) ∨
  (targetOf a = .cart ∧ targetOf b = .cart ∧ s.cart ≠ .flatRom ∧ s.cart ≠ .romRam) ∨
  (targetOf a = .ext ∧ targetOf b = .ext ∧ s.ext ≠ .null)

/-- What a bus write leaves alone: the CPU (rule R20), the host's part, and every address it does not reach. -/
def State.storedAt (s t : State) (written : List Word) : Prop :=
  t.ime = s.ime ∧ t.imeArm = s.imeArm ∧ t.run = s.run ∧ t.haltBug = s.haltBug ∧ t.par = s.par ∧
  t.inputs = s.inputs ∧ t.wakes = s.wakes ∧ t.totalCycles = s.totalCycles ∧
  ∀ b, (∀ a ∈ written, ¬ s.reaches a b) → t.busRead b = s.busRead b

/-- What a register instruction leaves alone: the registers not listed, `sp`, `pc`, and everything outside the CPU. -/
def State.regFrame (s t : State) (but : List R8) (k : Nat) : Prop :=
  s.keepsRegs t but ∧ t.sp = s.sp ∧ t.pc = s.pc ∧ t.cycles = k ∧ s.onlyCpu t

/-- `i` stores the byte `v` at `a` in `k` cycles, and touches no register and no flag. -/
def State.stores (s : State) (i : Instr) (a : Word) (v : Byte) (k : Nat) : Prop :=
  ∃ t, exec i s = .next t ∧ t = { s.busWrite a v with cycles := k } ∧ t.regs = s.regs ∧ t.flags = s.flags ∧ t.sp = s.sp ∧
    t.pc = s.pc ∧ s.storedAt t [a]

/-- `i` adds `v` and the carry-in to A: rule R200 in unbounded arithmetic. -/
def State.addsA (s : State) (i : Instr) (v : Byte) (cin : Bool) (k : Nat) : Prop :=
  ∃ t, exec i s = .next t ∧
    t.regs.a.toNat = (s.regs.a.toNat + v.toNat + cin.toNat) % 256 ∧
    (t.flags.z = true ↔ (s.regs.a.toNat + v.toNat + cin.toNat) % 256 = 0) ∧
    t.flags.n = false ∧
    (t.flags.h = true ↔ s.regs.a.toNat % 16 + v.toNat % 16 + cin.toNat > 0xF) ∧
    (t.flags.c = true ↔ s.regs.a.toNat + v.toNat + cin.toNat > 0xFF) ∧
    s.regFrame t [.a] k

/-- The flags of a subtraction: rule R201 in unbounded arithmetic. -/
def subFlags (f : Flags) (a v : Byte) (cin : Bool) : Prop :=
  (f.z = true ↔ ((a.toNat : Int) - v.toNat - cin.toNat) % 256 = 0) ∧
  f.n = true ∧
  (f.h = true ↔ a.toNat % 16 < v.toNat % 16 + cin.toNat) ∧
  (f.c = true ↔ a.toNat < v.toNat + cin.toNat)

/-- `i` subtracts `v` and the borrow-in from A (rule R201). -/
def State.subtractsA (s : State) (i : Instr) (v : Byte) (cin : Bool) (k : Nat) : Prop :=
  ∃ t, exec i s = .next t ∧
    (t.regs.a.toNat : Int) = ((s.regs.a.toNat : Int) - v.toNat - cin.toNat) % 256 ∧
    subFlags t.flags s.regs.a v cin ∧ s.regFrame t [.a] k

/-- `i` compares A with `v` (rules R225 to R227): the flags of the subtraction, and no register. -/
def State.comparesA (s : State) (i : Instr) (v : Byte) (k : Nat) : Prop :=
  ∃ t, exec i s = .next t ∧ subFlags t.flags s.regs.a v false ∧
    (t.flags.z = true ↔ s.regs.a = v) ∧ s.regFrame t [] k

/-- `i` puts into A the byte whose bits `f` gives, Z by the result, N = C = 0 and the given H (rule R202). -/
def State.logicA (s : State) (i : Instr) (f : Bool → Bool → Bool) (v : Byte) (h : Bool) (k : Nat) : Prop :=
  ∃ t, exec i s = .next t ∧
    (∀ j, j < 8 → t.regs.a.getLsbD j = f (s.regs.a.getLsbD j) (v.getLsbD j)) ∧
    (t.flags.z = true ↔ ∀ j, j < 8 → f (s.regs.a.getLsbD j) (v.getLsbD j) = false) ∧
    t.flags.n = false ∧ t.flags.h = h ∧ t.flags.c = false ∧ s.regFrame t [.a] k

/-- The flags INC leaves for the old value `v` (rule R228). -/
def incFlags (f old : Flags) (v : Byte) : Prop :=
  (f.z = true ↔ v.toNat = 0xFF) ∧ f.n = false ∧ (f.h = true ↔ v.toNat % 16 = 0xF) ∧ f.c = old.c

/-- The flags DEC leaves for the old value `v` (rule R230). -/
def decFlags (f old : Flags) (v : Byte) : Prop :=
  (f.z = true ↔ v.toNat = 1) ∧ f.n = true ∧ (f.h = true ↔ v.toNat % 16 = 0) ∧ f.c = old.c

/-- `i` reads the byte at HL once, writes `r` there once, and leaves the flags `P` says (rules R103, R229). -/
def State.modifiesHl (s : State) (i : Instr) (r : Byte) (P : Flags → Prop) (k : Nat) : Prop :=
  ∃ t, exec i s = .next t ∧ t = { s.busWrite s.hl r with flags := t.flags, cycles := k } ∧ P t.flags ∧
    t.regs = s.regs ∧ t.sp = s.sp ∧ t.pc = s.pc ∧ s.storedAt t [s.hl]

/-- The eight rotate and shift functions of rule R260 on numbers, by the code of bits 5 to 3: the result and the bit out. -/
def shiftSpec (y v cin : Nat) : Nat × Nat :=
  match y with
  | 0 => (2 * v % 256 + v / 128, v / 128)
  | 1 => (v / 2 + 128 * (v % 2), v % 2)
  | 2 => (2 * v % 256 + cin, v / 128)
  | 3 => (v / 2 + 128 * cin, v % 2)
  | 4 => (2 * v % 256, v / 128)
  | 5 => (v / 2 + 128 * (v / 128), v % 2)
  | 6 => (16 * (v % 16) + v / 16, 0)
  | _ => (v / 2, v % 2)

/-- The flags of a prefixed rotate or shift `y` of `v`. -/
def shiftFlags (f : Flags) (y v : Nat) (cin : Bool) : Prop :=
  (f.z = true ↔ (shiftSpec y v cin.toNat).1 = 0) ∧ f.n = false ∧ f.h = false ∧ f.c.toNat = (shiftSpec y v cin.toNat).2

/-- `i` applies function `y` of rule R260 to register `r`. -/
def State.shiftsR (s : State) (i : Instr) (r : R8) (y : Nat) : Prop :=
  ∃ t, exec i s = .next t ∧ (t.getR r).toNat = (shiftSpec y (s.getR r).toNat s.flags.c.toNat).1 ∧
    shiftFlags t.flags y (s.getR r).toNat s.flags.c ∧ s.regFrame t [r] 8

/-- `i` applies function `y` of rule R260 to A and clears Z whatever the result (rules R261 to R264). -/
def State.rotatesA (s : State) (i : Instr) (y : Nat) : Prop :=
  ∃ t, exec i s = .next t ∧ t.regs.a.toNat = (shiftSpec y s.regs.a.toNat s.flags.c.toNat).1 ∧
    t.flags.z = false ∧ t.flags.n = false ∧ t.flags.h = false ∧
    t.flags.c.toNat = (shiftSpec y s.regs.a.toNat s.flags.c.toNat).2 ∧ s.regFrame t [.a] 4

/-- `i` applies function `y` of rule R260 to the byte at HL. -/
def State.shiftsHl (s : State) (i : Instr) (y : Nat) : Prop :=
  ∃ r : Byte, r.toNat = (shiftSpec y (s.busRead s.hl).toNat s.flags.c.toNat).1 ∧
    s.modifiesHl i r (fun f => shiftFlags f y (s.busRead s.hl).toNat s.flags.c) 16

/-- `v` was pushed (rule R12): the high byte at `sp - 1`, then the low byte at `sp - 2`. -/
def State.pushed (s t : State) (v : Word) : Prop :=
  t = { (s.busWrite (s.sp - 1#16) (hiByte v)).busWrite (s.sp - 2#16) (loByte v) with
        sp := s.sp - 2#16, pc := t.pc, cycles := t.cycles } ∧
    t.regs = s.regs ∧ t.flags = s.flags ∧ s.storedAt t [s.sp - 1#16, s.sp - 2#16]

/-- `i` sets `pc` and nothing else of the CPU. -/
def State.jumps (s : State) (i : Instr) (target : Nat) (k : Nat) : Prop :=
  ∃ t, exec i s = .next t ∧ t.pc.toNat = target ∧ t.regs = s.regs ∧ t.flags = s.flags ∧ t.sp = s.sp ∧ t.cycles = k ∧
    s.onlyCpu t

/-- The target of a relative jump: the displacement is signed and the sum wraps (rule R304). -/
def relTarget (pc : Word) (e : Byte) : Nat :=
  if e.toNat < 128 then (pc.toNat + e.toNat) % 65536 else (pc.toNat + 65536 - (256 - e.toNat)) % 65536

/-- `i` calls `target` (rule R306). -/
def State.calls (s : State) (i : Instr) (target : Nat) (k : Nat) : Prop :=
  ∃ t, exec i s = .next t ∧ s.pushed t s.pc ∧ t.pc.toNat = target ∧ t.cycles = k

/-- `t` has taken its `pc` from the stack (rule R308). -/
def State.returned (s t : State) (k : Nat) : Prop :=
  t.pc.toNat = (s.busRead s.sp).toNat + 256 * (s.busRead (s.sp + 1#16)).toNat ∧
    t.sp.toNat = (s.sp.toNat + 2) % 65536 ∧ t.regs = s.regs ∧ t.flags = s.flags ∧ t.cycles = k

/-- The rules that list a flag under Flags (rule R25). -/
def writesFlags : Instr → Bool
  | .addAR _ | .addAHl | .addAN _ | .adcAR _ | .adcAHl | .adcAN _ | .subAR _ | .subAHl | .subAN _ | .sbcAR _ | .sbcAHl
  | .sbcAN _ | .andAR _ | .andAHl | .andAN _ | .xorAR _ | .xorAHl | .xorAN _ | .orAR _ | .orAHl | .orAN _ | .cpAR _
  | .cpAHl | .cpAN _ | .incR _ | .incHl | .decR _ | .decHl | .daa | .cpl | .scf | .ccf | .addHlRr _ | .addSpE _
  | .ldHlSpE _ | .rlca | .rrca | .rla | .rra | .rlcR _ | .rlcHl | .rrcR _ | .rrcHl | .rlR _ | .rlHl | .rrR _ | .rrHl
  | .slaR _ | .slaHl | .sraR _ | .sraHl | .swapR _ | .swapHl | .srlR _ | .srlHl | .bitR _ _ | .bitHl _ => true
  | .pop q => decide (q = .af)
  | _ => false

/-- The control-transfer instructions, the only ones that write `pc` (rule R26). -/
def writesPc : Instr → Bool
  | .jpNn _ | .jpCcNn _ _ | .jpHl | .jrE _ | .jrCcE _ _ | .callNn _ | .callCcNn _ _ | .ret | .retCc _ | .reti
  | .rst _ => true
  | _ => false

/-- The instructions that write `sp` (rule R27). -/
def writesSp : Instr → Bool
  | .ldRrNn p _ => decide (p = .sp)
  | .incRr p => decide (p = .sp)
  | .decRr p => decide (p = .sp)
  | .ldSpHl | .addSpE _ | .push _ | .pop _ | .callNn _ | .callCcNn _ _ | .ret
  | .retCc _ | .reti | .rst _ => true
  | _ => false

/-- The instructions that make a bus write (rule R103), and STOP, which clears DIVCTR. -/
def writesBus : Instr → Bool
  | .ldHlR _ | .ldHlN _ | .ldBcA | .ldDeA | .ldNnA _ | .ldhCA | .ldhNA _ | .ldHlDecA | .ldHlIncA | .ldNnSp _ | .push _
  | .incHl | .decHl | .rlcHl | .rrcHl | .rlHl | .rrHl | .slaHl | .sraHl | .swapHl | .srlHl | .resHl _ | .setHl _
  | .callNn _ | .callCcNn _ _ | .rst _ | .stop _ => true
  | _ => false

/-- The packed decimal byte of a number below 100. -/
def bcd (x : Nat) : Nat := 16 * (x / 10) + x % 10

/-- The column of the window or background that screen column `x` shows (rule R421), with `f = SCX mod 8`. -/
def Ppu.sourceColumn (p : Ppu) (window : Bool) (x : Nat) : Nat :=
  if window then
    if p.wx.toNat > 0 then x + 7 - p.wx.toNat else x + 7 + p.scx.toNat % 8
  else (p.scx.toNat + x) % 256

/-- Whether the window covers screen column `x` (rule R421). -/
def Ppu.windowCovers (p : Ppu) (x : Nat) : Bool := p.lcdc.getLsbD 5 && p.winLatch && decide (p.wx.toNat ≤ x + 7)

/-- The pixel of screen column `x`, before the overlay (rules R414, R420, R421). -/
def State.closedPixel (s : State) (x : Nat) : BitVec 2 :=
  if s.ppu.lcdc.getLsbD 0 = false then 0
  else if s.ppu.windowCovers x then
    tilePixel s.mem s.ppu.lcdc (if s.ppu.lcdc.getLsbD 6 then 0x9C00 else 0x9800)
      (BitVec.ofNat 8 (s.ppu.sourceColumn true x)) s.ppu.winLine
  else
    tilePixel s.mem s.ppu.lcdc (if s.ppu.lcdc.getLsbD 3 then 0x9C00 else 0x9800)
      (BitVec.ofNat 8 (s.ppu.sourceColumn false x)) (BitVec.ofNat 8 (s.ppu.ly.toNat + s.ppu.scy.toNat))

end Sys2Proof.Machine
end

