-- ==== Sys2Proof/Certificates/Slice0/Obligations.lean ====
section
/-! DEFINITION. The statements for the provers. -/

section

open Sys2Proof Sys2Proof.Machine

/-! Encoding. -/

/-- Every well-formed instruction is decoded from its own bytes, whatever follows them. -/
def Obligations.DecodeEncode : Prop :=
  ∀ (i : Instr) (rest : List Byte), i.wellFormed = true → decode (encode i ++ rest) = .ok (i, rest)

/-- Every byte string decodes to a well-formed instruction whose bytes are the front of the string, as many as the first byte
alone says (rules R142, R143). -/
def Obligations.EncodeDecode : Prop :=
  ∀ op b1 b2 : Byte,
    (decodeBytes op b1 b2).wellFormed = true ∧
    (decodeBytes op b1 b2).length = opLength op ∧
    encode (decodeBytes op b1 b2) = [op, b1, b2].take (opLength op)

/-- Words written out from the encoding patterns of files 40 to 46. -/
def Obligations.DecodeWords : Prop :=
  decode [0b01111000#8] = .ok (.ldRR .a .b, []) ∧
  decode [0b11111010#8, 0x34#8, 0xC2#8] = .ok (.ldANn 0xC234#16, []) ∧
  decode [0b11110101#8] = .ok (.push .af, []) ∧
  decode [0b10000110#8] = .ok (.addAHl, []) ∧
  decode [0b11101000#8, 0xFE#8] = .ok (.addSpE 0xFE#8, []) ∧
  decode [0b11001011#8, 0b11001011#8] = .ok (.setR 1 .e, []) ∧
  decode [0b11001100#8, 0x00#8, 0xC2#8] = .ok (.callCcNn .z 0xC200#16, []) ∧
  decode [0b01110110#8] = .ok (.halt, []) ∧
  decode [0b11010011#8] = .ok (.illegalD3, [])

/-! The 8-bit and 16-bit loads. -/

/-- The loads into a register that change nothing else. -/
def Obligations.LoadResult : Prop :=
  ∀ (s : State) (rd rs : R8) (n : Byte) (nn : Word),
    (∃ t, exec (.ldRR rd rs) s = .next t ∧ s.loaded t rd (s.getR rs) 4) ∧
    (∃ t, exec (.ldRN rd n) s = .next t ∧ s.loaded t rd n 8) ∧
    (∃ t, exec (.ldRHl rd) s = .next t ∧ s.loaded t rd (s.busRead s.hl) 8) ∧
    (∃ t, exec .ldABc s = .next t ∧ s.loaded t .a (s.busRead s.bc) 8) ∧
    (∃ t, exec .ldADe s = .next t ∧ s.loaded t .a (s.busRead s.de) 8) ∧
    (∃ t, exec (.ldANn nn) s = .next t ∧ s.loaded t .a (s.busRead nn) 16) ∧
    (∃ t, exec .ldhAC s = .next t ∧ s.loaded t .a (s.busRead (BitVec.ofNat 16 (0xFF00 + s.regs.c.toNat))) 8) ∧
    (∃ t, exec (.ldhAN n) s = .next t ∧ s.loaded t .a (s.busRead (BitVec.ofNat 16 (0xFF00 + n.toNat))) 12)

/-- The stores of a byte, each at its own address, with their frame. -/
def Obligations.StoreResult : Prop :=
  ∀ (s : State) (rs : R8) (n : Byte) (nn : Word),
    s.stores (.ldHlR rs) s.hl (s.getR rs) 8 ∧
    s.stores (.ldHlN n) s.hl n 12 ∧
    s.stores .ldBcA s.bc s.regs.a 8 ∧
    s.stores .ldDeA s.de s.regs.a 8 ∧
    s.stores (.ldNnA nn) nn s.regs.a 16 ∧
    s.stores .ldhCA (BitVec.ofNat 16 (0xFF00 + s.regs.c.toNat)) s.regs.a 8 ∧
    s.stores (.ldhNA n) (BitVec.ofNat 16 (0xFF00 + n.toNat)) s.regs.a 12

/-- The loads and stores at HL that then step HL, by one down or up modulo 2^16 (65535 is one down). -/
def Obligations.LoadStoreStepHl : Prop :=
  ∀ s : State,
    (∀ i k, (i = .ldAHlDec ∧ k = 65535) ∨ (i = .ldAHlInc ∧ k = 1) →
      ∃ t, exec i s = .next t ∧ t.regs.a = s.busRead s.hl ∧ t.hl.toNat = (s.hl.toNat + k) % 65536 ∧
        t.flags = s.flags ∧ s.regFrame t [.a, .h, .l] 8) ∧
    (∀ i k, (i = .ldHlDecA ∧ k = 65535) ∨ (i = .ldHlIncA ∧ k = 1) →
      ∃ t, exec i s = .next t ∧ t = { s.busWrite s.hl s.regs.a with regs := t.regs, cycles := 8 } ∧
        t.hl.toNat = (s.hl.toNat + k) % 65536 ∧ s.keepsRegs t [.h, .l] ∧ t.flags = s.flags ∧ t.sp = s.sp ∧
        t.pc = s.pc ∧ s.storedAt t [s.hl])

/-- `LD rr,nn`, `LD SP,HL`, `INC rr`, `DEC rr`: one pair (or `sp`) takes a value modulo 2^16, no flag changes. -/
def Obligations.PairResult : Prop :=
  ∀ (s : State) (p : RP) (nn : Word),
    (∀ i v k,
      (i = .ldRrNn p nn ∧ v = nn.toNat ∧ k = 12) ∨
      (i = .incRr p ∧ v = (s.getRP p).toNat + 1 ∧ k = 8) ∨
      (i = .decRr p ∧ v = (s.getRP p).toNat + 65535 ∧ k = 8) ∨
      (i = .ldSpHl ∧ p = .sp ∧ v = s.hl.toNat ∧ k = 8) →
      ∃ t, exec i s = .next t ∧ (t.getRP p).toNat = v % 65536 ∧ (∀ q, q ≠ p → t.getRP q = s.getRP q) ∧
        t.regs.a = s.regs.a ∧ t.flags = s.flags ∧ t.pc = s.pc ∧ t.cycles = k ∧ s.onlyCpu t)

/-- `LD (nn),SP`: the low byte at `nn`, then the high byte at `nn + 1`. -/
def Obligations.StoreSpResult : Prop :=
  ∀ (s : State) (nn : Word),
    ∃ t, exec (.ldNnSp nn) s = .next t ∧
      t = { (s.busWrite nn (BitVec.ofNat 8 (s.sp.toNat % 256))).busWrite (nn + 1#16) (BitVec.ofNat 8 (s.sp.toNat / 256)) with
            cycles := 20 } ∧
      t.regs = s.regs ∧ t.flags = s.flags ∧ t.sp = s.sp ∧ t.pc = s.pc ∧ s.storedAt t [nn, nn + 1#16]

/-- `PUSH qq`: the pair goes to the stack; of F only the high nibble has bits. -/
def Obligations.PushResult : Prop :=
  ∀ (s : State) (q : RP2),
    (∃ t, exec (.push q) s = .next t ∧ s.pushed t (s.getRP2 q) ∧ t.pc = s.pc ∧ t.cycles = 16) ∧
    (s.getRP2 .af).toNat =
      256 * s.regs.a.toNat + 128 * s.flags.z.toNat + 64 * s.flags.n.toNat + 32 * s.flags.h.toNat + 16 * s.flags.c.toNat

/-- `POP qq`: the pair takes the two bytes at `sp`, the low one first; F keeps bits 7 to 4 of its byte. -/
def Obligations.PopResult : Prop :=
  ∀ (s : State) (q : RP2),
    ∃ t, exec (.pop q) s = .next t ∧
      (t.getRP2 q).toNat =
        256 * (s.busRead (s.sp + 1#16)).toNat +
          (if q = .af then (s.busRead s.sp).toNat / 16 * 16 else (s.busRead s.sp).toNat) ∧
      (∀ q', q' ≠ q → t.getRP2 q' = s.getRP2 q') ∧ (q ≠ .af → t.flags = s.flags) ∧
      t.sp.toNat = (s.sp.toNat + 2) % 65536 ∧ t.pc = s.pc ∧ t.cycles = 12 ∧ s.onlyCpu t

/-! The arithmetic. -/

/-- ADD and ADC in their three operand forms. -/
def Obligations.AddResult : Prop :=
  ∀ (s : State) (rs : R8) (n : Byte),
    s.addsA (.addAR rs) (s.getR rs) false 4 ∧ s.addsA .addAHl (s.busRead s.hl) false 8 ∧ s.addsA (.addAN n) n false 8 ∧
    s.addsA (.adcAR rs) (s.getR rs) s.flags.c 4 ∧ s.addsA .adcAHl (s.busRead s.hl) s.flags.c 8 ∧
    s.addsA (.adcAN n) n s.flags.c 8

/-- SUB, SBC and CP in their three operand forms. -/
def Obligations.SubtractResult : Prop :=
  ∀ (s : State) (rs : R8) (n : Byte),
    s.subtractsA (.subAR rs) (s.getR rs) false 4 ∧ s.subtractsA .subAHl (s.busRead s.hl) false 8 ∧
    s.subtractsA (.subAN n) n false 8 ∧
    s.subtractsA (.sbcAR rs) (s.getR rs) s.flags.c 4 ∧ s.subtractsA .sbcAHl (s.busRead s.hl) s.flags.c 8 ∧
    s.subtractsA (.sbcAN n) n s.flags.c 8 ∧
    s.comparesA (.cpAR rs) (s.getR rs) 4 ∧ s.comparesA .cpAHl (s.busRead s.hl) 8 ∧ s.comparesA (.cpAN n) n 8

/-- AND, XOR and OR in their three operand forms, bit by bit. -/
def Obligations.LogicResult : Prop :=
  ∀ (s : State) (rs : R8) (n : Byte),
    s.logicA (.andAR rs) and (s.getR rs) true 4 ∧ s.logicA .andAHl and (s.busRead s.hl) true 8 ∧
    s.logicA (.andAN n) and n true 8 ∧
    s.logicA (.xorAR rs) xor (s.getR rs) false 4 ∧ s.logicA .xorAHl xor (s.busRead s.hl) false 8 ∧
    s.logicA (.xorAN n) xor n false 8 ∧
    s.logicA (.orAR rs) or (s.getR rs) false 4 ∧ s.logicA .orAHl or (s.busRead s.hl) false 8 ∧
    s.logicA (.orAN n) or n false 8

/-- INC and DEC of a register and of the byte at HL; C is kept. -/
def Obligations.IncDecResult : Prop :=
  ∀ (s : State) (rd : R8),
    (∃ t, exec (.incR rd) s = .next t ∧ (t.getR rd).toNat = ((s.getR rd).toNat + 1) % 256 ∧
      incFlags t.flags s.flags (s.getR rd) ∧ s.regFrame t [rd] 4) ∧
    (∃ t, exec (.decR rd) s = .next t ∧ (t.getR rd).toNat = ((s.getR rd).toNat + 255) % 256 ∧
      decFlags t.flags s.flags (s.getR rd) ∧ s.regFrame t [rd] 4) ∧
    s.modifiesHl .incHl (BitVec.ofNat 8 ((s.busRead s.hl).toNat + 1))
      (fun f => incFlags f s.flags (s.busRead s.hl)) 12 ∧
    s.modifiesHl .decHl (BitVec.ofNat 8 ((s.busRead s.hl).toNat + 255))
      (fun f => decFlags f s.flags (s.busRead s.hl)) 12

/-- DAA on any A and any flags. -/
def Obligations.DaaResult : Prop :=
  ∀ s : State,
    let a := s.regs.a.toNat
    let high := s.flags.c = true ∨ (s.flags.n = false ∧ a > 0x99)
    let low := s.flags.h = true ∨ (s.flags.n = false ∧ a % 16 > 9)
    ∃ (t : State) (adjust : Nat), exec .daa s = .next t ∧
      (high → low → adjust = 0x66) ∧ (high → ¬ low → adjust = 0x60) ∧ (¬ high → low → adjust = 0x06) ∧
      (¬ high → ¬ low → adjust = 0) ∧
      t.regs.a.toNat = (if s.flags.n then a + 256 - adjust else a + adjust) % 256 ∧
      (t.flags.z = true ↔ t.regs.a.toNat = 0) ∧ t.flags.n = s.flags.n ∧ t.flags.h = false ∧ (t.flags.c = true ↔ high) ∧
      s.regFrame t [.a] 4

/-- DAA after an addition or a subtraction of packed decimal bytes gives the packed decimal sum or difference, with C as the
decimal carry or borrow (corner cases of rule R232). -/
def Obligations.DaaDecimal : Prop :=
  ∀ (s : State) (rs : R8) (x y : Nat), x < 100 → y < 100 → s.regs.a.toNat = bcd x → (s.getR rs).toNat = bcd y →
    (∃ t u, exec (.adcAR rs) s = .next t ∧ exec .daa t = .next u ∧
      u.regs.a.toNat = bcd ((x + y + s.flags.c.toNat) % 100) ∧ (u.flags.c = true ↔ 100 ≤ x + y + s.flags.c.toNat)) ∧
    (∃ t u, exec (.sbcAR rs) s = .next t ∧ exec .daa t = .next u ∧
      u.regs.a.toNat = bcd ((x + 100 - (y + s.flags.c.toNat)) % 100) ∧ (u.flags.c = true ↔ x < y + s.flags.c.toNat))

/-- CPL, SCF and CCF: what each flag becomes, and A. -/
def Obligations.AccumulatorFlagResult : Prop :=
  ∀ s : State,
    (∃ t, exec .cpl s = .next t ∧ t.regs.a.toNat = 255 - s.regs.a.toNat ∧ t.flags.z = s.flags.z ∧ t.flags.n = true ∧
      t.flags.h = true ∧ t.flags.c = s.flags.c ∧ s.regFrame t [.a] 4) ∧
    (∃ t, exec .scf s = .next t ∧ t.flags.z = s.flags.z ∧ t.flags.n = false ∧ t.flags.h = false ∧ t.flags.c = true ∧
      s.regFrame t [] 4) ∧
    (∃ t, exec .ccf s = .next t ∧ t.flags.z = s.flags.z ∧ t.flags.n = false ∧ t.flags.h = false ∧
      t.flags.c.toNat = 1 - s.flags.c.toNat ∧ s.regFrame t [] 4)

/-- `ADD HL,rr`: HL takes the sum modulo 2^16, H and C the carries out of bits 11 and 15 of the old operands; Z is kept. -/
def Obligations.AddHlResult : Prop :=
  ∀ (s : State) (p : RP),
    ∃ t, exec (.addHlRr p) s = .next t ∧ t.hl.toNat = (s.hl.toNat + (s.getRP p).toNat) % 65536 ∧
      t.flags.z = s.flags.z ∧ t.flags.n = false ∧
      (t.flags.h = true ↔ s.hl.toNat % 4096 + (s.getRP p).toNat % 4096 > 0xFFF) ∧
      (t.flags.c = true ↔ s.hl.toNat + (s.getRP p).toNat > 0xFFFF) ∧ s.regFrame t [.h, .l] 8

/-- `ADD SP,e` and `LD HL,SP+e`: the signed displacement in the sum, the raw byte in the carries (rule R253). -/
def Obligations.AddSpResult : Prop :=
  ∀ (s : State) (e : Byte),
    let flagsOk := fun f : Flags =>
      f.z = false ∧ f.n = false ∧ (f.h = true ↔ s.sp.toNat % 16 + e.toNat % 16 > 0xF) ∧
      (f.c = true ↔ s.sp.toNat % 256 + e.toNat > 0xFF)
    (∃ t, exec (.addSpE e) s = .next t ∧ t.sp.toNat = relTarget s.sp e ∧ flagsOk t.flags ∧ s.keepsRegs t [] ∧
      t.pc = s.pc ∧ t.cycles = 16 ∧ s.onlyCpu t) ∧
    (∃ t, exec (.ldHlSpE e) s = .next t ∧ t.hl.toNat = relTarget s.sp e ∧ flagsOk t.flags ∧ s.regFrame t [.h, .l] 12)

/-! Rotates, shifts and bits. -/

/-- RLCA, RRCA, RLA, RRA. -/
def Obligations.RotateAResult : Prop :=
  ∀ s : State, s.rotatesA .rlca 0 ∧ s.rotatesA .rrca 1 ∧ s.rotatesA .rla 2 ∧ s.rotatesA .rra 3

/-- The eight prefixed rotates and shifts of a register. -/
def Obligations.ShiftRegisterResult : Prop :=
  ∀ (s : State) (rs : R8),
    s.shiftsR (.rlcR rs) rs 0 ∧ s.shiftsR (.rrcR rs) rs 1 ∧ s.shiftsR (.rlR rs) rs 2 ∧ s.shiftsR (.rrR rs) rs 3 ∧
    s.shiftsR (.slaR rs) rs 4 ∧ s.shiftsR (.sraR rs) rs 5 ∧ s.shiftsR (.swapR rs) rs 6 ∧ s.shiftsR (.srlR rs) rs 7

/-- The eight prefixed rotates and shifts of the byte at HL. -/
def Obligations.ShiftMemoryResult : Prop :=
  ∀ s : State,
    s.shiftsHl .rlcHl 0 ∧ s.shiftsHl .rrcHl 1 ∧ s.shiftsHl .rlHl 2 ∧ s.shiftsHl .rrHl 3 ∧
    s.shiftsHl .slaHl 4 ∧ s.shiftsHl .sraHl 5 ∧ s.shiftsHl .swapHl 6 ∧ s.shiftsHl .srlHl 7

/-- BIT, RES and SET on a register and on the byte at HL, bit by bit. -/
def Obligations.BitResult : Prop :=
  ∀ (s : State) (b : Nat) (rs : R8), b < 8 →
    (∃ t, exec (.bitR b rs) s = .next t ∧ (t.flags.z = true ↔ (s.getR rs).getLsbD b = false) ∧ t.flags.n = false ∧
      t.flags.h = true ∧ t.flags.c = s.flags.c ∧ s.regFrame t [] 8) ∧
    (∃ t, exec (.bitHl b) s = .next t ∧ (t.flags.z = true ↔ (s.busRead s.hl).getLsbD b = false) ∧ t.flags.n = false ∧
      t.flags.h = true ∧ t.flags.c = s.flags.c ∧ s.regFrame t [] 12) ∧
    (∃ t, exec (.resR b rs) s = .next t ∧
      (∀ j, j < 8 → (t.getR rs).getLsbD j = if j = b then false else (s.getR rs).getLsbD j) ∧ t.flags = s.flags ∧
      s.regFrame t [rs] 8) ∧
    (∃ t, exec (.setR b rs) s = .next t ∧
      (∀ j, j < 8 → (t.getR rs).getLsbD j = if j = b then true else (s.getR rs).getLsbD j) ∧ t.flags = s.flags ∧
      s.regFrame t [rs] 8) ∧
    (∃ r : Byte, (∀ j, j < 8 → r.getLsbD j = if j = b then false else (s.busRead s.hl).getLsbD j) ∧
      s.modifiesHl (.resHl b) r (fun f => f = s.flags) 16) ∧
    (∃ r : Byte, (∀ j, j < 8 → r.getLsbD j = if j = b then true else (s.busRead s.hl).getLsbD j) ∧
      s.modifiesHl (.setHl b) r (fun f => f = s.flags) 16)

/-! Control transfer. -/

/-- The four conditions, the jumps taken, and the conditional jumps not taken (rules R300 to R305). -/
def Obligations.JumpResult : Prop :=
  ∀ (s : State) (cc : Cond) (nn : Word) (e : Byte),
    (s.cond .nz = true ↔ s.flags.z = false) ∧ (s.cond .z = true ↔ s.flags.z = true) ∧
    (s.cond .nc = true ↔ s.flags.c = false) ∧ (s.cond .c = true ↔ s.flags.c = true) ∧
    s.jumps (.jpNn nn) nn.toNat 16 ∧
    s.jumps .jpHl (256 * s.regs.h.toNat + s.regs.l.toNat) 4 ∧
    s.jumps (.jrE e) (relTarget s.pc e) 12 ∧
    s.jumps (.jpCcNn cc nn) (if s.cond cc then nn.toNat else s.pc.toNat) (if s.cond cc then 16 else 12) ∧
    s.jumps (.jrCcE cc e) (if s.cond cc then relTarget s.pc e else s.pc.toNat) (if s.cond cc then 12 else 8)

/-- CALL, CALL cc and RST; a call not taken touches nothing (rules R306, R307, R311). -/
def Obligations.CallResult : Prop :=
  ∀ (s : State) (cc : Cond) (nn : Word) (t : Nat), t < 8 →
    s.calls (.callNn nn) nn.toNat 24 ∧
    (s.cond cc = true → s.calls (.callCcNn cc nn) nn.toNat 24) ∧
    (s.cond cc = false → s.jumps (.callCcNn cc nn) s.pc.toNat 12) ∧
    s.calls (.rst t) (8 * t) 16

/-- RET, RET cc and RETI (rules R308 to R310). -/
def Obligations.ReturnResult : Prop :=
  ∀ (s : State) (cc : Cond),
    (∃ t, exec .ret s = .next t ∧ s.returned t 16 ∧ s.onlyCpu t) ∧
    (s.cond cc = true → ∃ t, exec (.retCc cc) s = .next t ∧ s.returned t 20 ∧ s.onlyCpu t) ∧
    (s.cond cc = false → s.jumps (.retCc cc) s.pc.toNat 8) ∧
    (∃ t, exec .reti s = .next t ∧ s.returned t 16 ∧
      { s with ime := true, imeArm := false }.onlyCpu t)

/-! System instructions. -/

/-- NOP, DI and EI. -/
def Obligations.NopDiEiResult : Prop :=
  ∀ s : State,
    (∃ t, exec .nop s = .next t ∧ s.regFrame t [] 4 ∧ t.flags = s.flags) ∧
    (∃ t, exec .di s = .next t ∧ { s with ime := false, imeArm := false }.regFrame t [] 4 ∧ t.flags = s.flags ∧
      t.busRead 0xFFFF#16 = s.busRead 0xFFFF#16) ∧
    (∃ t, exec .ei s = .next t ∧ { s with imeArm := true }.regFrame t [] 4 ∧ t.flags = s.flags ∧ t.ime = s.ime)

/-- HALT and STOP. -/
def Obligations.HaltStopResult : Prop :=
  ∀ (s : State) (x : Byte),
    (∃ t, exec .halt s = .next t ∧
      ((s.ime = true ∨ ∀ j, j < 5 → (s.ie.getLsbD j && s.ifl.getLsbD j) = false) →
        { s with run := .halted }.regFrame t [] 4) ∧
      ((s.ime = false ∧ ∃ j, j < 5 ∧ (s.ie.getLsbD j && s.ifl.getLsbD j) = true) →
        { s with haltBug := s.haltBug || s.par.haltBug }.regFrame t [] 4) ∧ t.flags = s.flags) ∧
    (∃ t, exec (.stop x) s = .next t ∧
      { s with run := .stopped, timer := { s.timer with divctr := 0 } }.regFrame t [] 4 ∧ t.flags = s.flags)

/-- Each illegal byte faults the machine where it stands: only `run` changes (rules R325, R371). That the illegal byte's own
step is a next state, and that a step of Faulted answers the fault `illegalOpcode`, is the model's reading of R371: log entry
9, DEDUCED. -/
def Obligations.IllegalResult : Prop :=
  ∀ (s : State) (i : Instr) (op : Byte), i.illegalByte = some op →
    op ∈ [0xD3#8, 0xDB#8, 0xDD#8, 0xE3#8, 0xE4#8, 0xEB#8, 0xEC#8, 0xED#8, 0xF4#8, 0xFC#8, 0xFD#8] ∧
    encode i = [op] ∧ ∃ t, exec i s = .next t ∧ t = { s with run := .faulted op s.pc } ∧ step t = .fault (.illegalOpcode op s.pc)

/-! Rules over all instructions. -/

/-- Only the instructions whose rule lists a flag under Flags change F (rule R25). -/
def Obligations.FlagsOnlyByFlagRules : Prop :=
  ∀ (i : Instr) (s : State), writesFlags i = false → ∃ t, exec i s = .next t ∧ t.flags = s.flags

/-- Only control transfers write `pc` (rule R26), only the instructions of rule R27 write `sp`, and only DI and RETI write
IME at once (rule R356). -/
def Obligations.PcSpImeWriters : Prop :=
  ∀ (i : Instr) (s : State), ∃ t, exec i s = .next t ∧
    (writesPc i = false → t.pc = s.pc) ∧ (writesSp i = false → t.sp = s.sp) ∧
    (i ≠ .di → i ≠ .reti → t.ime = s.ime)

/-- An instruction that makes no bus write leaves every address reading as before (rule R104: reads have no effect). -/
def Obligations.MemoryOnlyByStores : Prop :=
  ∀ (i : Instr) (s : State), writesBus i = false → ∃ t, exec i s = .next t ∧ ∀ a, t.busRead a = s.busRead a

/-! The step. -/

/-- A step of a running machine with no interrupt to dispatch and no halt bug runs the instruction its bytes decode to: `exec`
with `pc` past them, then the commit of EI, then the device advance. The commit and the device advance of every state: Timer,
PPU and DMA unit tick `cycles` times each, in this order, then the host's two request bits are OR-ed in and consumed (rules
R340, R346, R358). That the host's bits are the list `inputs`, that the count is the field `cycles`, and what an external
device does with the count, are log entries 1, 11 and 7. -/
def Obligations.StepRunsDecoded : Prop :=
  (∀ (s t : State) (i : Instr) (rest : List Byte),
    s.run = .running → (s.ime && s.pending) = false → s.haltBug = false →
    decode [s.busRead s.pc, s.busRead (s.pc + 1#16), s.busRead (s.pc + 2#16)] = .ok (i, rest) → i.illegalByte = none →
    exec i { s with pc := s.pc + BitVec.ofNat 16 i.length } = .next t →
    step s = .next (t.commitIme s.imeArm).deviceAdvance) ∧
  (∀ (t : State) (armBefore : Bool),
    t.commitIme armBefore = { t with ime := t.ime || (armBefore && t.imeArm), imeArm := t.imeArm && !armBefore }) ∧
  (∀ (t : State) (x : ExtInput) (rest : List ExtInput),
    (t.inputs = x :: rest ∨ (t.inputs = [] ∧ rest = [] ∧ x = { serial := false, joypad := false })) →
    let d := Nat.repeat State.dmaTick t.cycles (Nat.repeat State.ppuTick t.cycles (Nat.repeat State.timerTick t.cycles t))
    ∃ f e, t.deviceAdvance = { d with ifl := f, inputs := rest, ext := e, totalCycles := t.totalCycles + t.cycles } ∧
      (∀ j, j < 5 → f.getLsbD j = (d.ifl.getLsbD j || (decide (j = 3) && x.serial) || (decide (j = 4) && x.joypad))) ∧
      (t.ext = .null → e = .null) ∧
      ∀ k st, t.ext = .device k st → e = .device k (Config.extAdvance k st t.cycles))

/-- Under the halt bug the byte at `pc` is read twice and the bit is consumed (rules R31, R347). -/
def Obligations.HaltBugFetch : Prop :=
  ∀ (s t : State) (i : Instr) (rest : List Byte),
    s.run = .running → (s.ime && s.pending) = false → s.haltBug = true →
    decode [s.busRead s.pc, s.busRead s.pc, s.busRead (s.pc + 1#16)] = .ok (i, rest) → i.illegalByte = none →
    exec i { s with pc := s.pc + BitVec.ofNat 16 (i.length - 1), haltBug := false } = .next t →
    step s = .next (t.commitIme s.imeArm).deviceAdvance

/-- An illegal byte at `pc` makes the step change nothing but `run`, and Faulted has no step (rules R370, R371). That the first
is a next state, and that "no step" is the fault `illegalOpcode`, is the model's reading of R371: log entry 9, DEDUCED. -/
def Obligations.IllegalStep : Prop :=
  ∀ s : State,
    (s.run = .running → (s.ime && s.pending) = false →
      s.busRead s.pc ∈ [0xD3#8, 0xDB#8, 0xDD#8, 0xE3#8, 0xE4#8, 0xEB#8, 0xEC#8, 0xED#8, 0xF4#8, 0xFC#8, 0xFD#8] →
      step s = .next { s with run := .faulted (s.busRead s.pc) s.pc }) ∧
    (∀ op a, s.run = .faulted op a → step s = .fault (.illegalOpcode op a))

/-- The dispatch of the least enabled pending source `i`: `pc` pushed, the latches cleared, the request acknowledged after the
pushes, the vector entered, 20 cycles; and then the device advance. From Halted the core runs again (rules R360, R361). -/
def Obligations.DispatchStep : Prop :=
  ∀ (s : State) (i : Nat), (s.run = .running ∨ s.run = .halted) → s.ime = true → i < 5 →
    (s.ie.getLsbD i && s.ifl.getLsbD i) = true → (∀ j, j < i → (s.ie.getLsbD j && s.ifl.getLsbD j) = false) →
    ∃ u : State, step s = .next u.deviceAdvance ∧
      let w := (s.busWrite (s.sp - 1#16) (hiByte s.pc)).busWrite (s.sp - 2#16) (loByte s.pc)
      u = { w with
            run := .running, ime := false, imeArm := false, haltBug := false, sp := s.sp - 2#16
            ifl := u.ifl, pc := BitVec.ofNat 16 (0x40 + 8 * i), cycles := 20 } ∧
      (∀ j, j < 5 → u.ifl.getLsbD j = (w.ifl.getLsbD j && decide (j ≠ i))) ∧
      u.regs = s.regs ∧ u.flags = s.flags ∧ (∀ b, ¬ s.reaches (s.sp - 1#16) b → ¬ s.reaches (s.sp - 2#16) b →
        b ≠ 0xFF0F#16 → u.busRead b = s.busRead b)

/-- A halted core idles 4 cycles while nothing enabled is pending, and with something pending steps as a running one
(rule R345). -/
def Obligations.HaltedStep : Prop :=
  ∀ s : State, s.run = .halted →
    (s.pending = false →
      step s = .next { s with cycles := 4 }.deviceAdvance ∧
      ∀ t, step s = .next t → t.regs = s.regs ∧ t.flags = s.flags ∧ t.sp = s.sp ∧ t.pc = s.pc ∧ t.run = .halted ∧
        t.ime = s.ime ∧ t.imeArm = s.imeArm ∧ t.totalCycles = s.totalCycles + 4) ∧
    (s.pending = true → step s = step { s with run := .running })

/-- A stopped core is stuck until the host's JoypadWake, which changes `run` only (rule R348). The model's own: the JoypadWake
events to come are the number `wakes` (log entry 1, DESIGN CHOICE), and the missing step is the fault `stopped`, which R348
calls no fault of the program (log entry 10, DEDUCED). -/
def Obligations.StoppedStep : Prop :=
  ∀ s : State, s.run = .stopped →
    (s.wakes = 0 → step s = .fault .stopped) ∧
    (∀ n, s.wakes = n + 1 → step s = .next { s with run := .running, wakes := n })

/-- IME and IME_ARM after a step that executes an instruction (rules R346, R356): DI clears, RETI sets, EI arms, and an armed
enable commits when the next instruction completes. -/
def Obligations.ImeRule : Prop :=
  ∀ s : State, s.run = .running → (s.ime && s.pending) = false → s.fetchedInstr.illegalByte = none →
    ∃ t, step s = .next t ∧
      t.ime = (if s.fetchedInstr = .di then false else if s.fetchedInstr = .reti then true else s.ime || s.imeArm) ∧
      t.imeArm = (decide (s.fetchedInstr = .ei) && !s.imeArm)

/-- Every running or halted machine has a step: it is the illegal opcode's, which changes `run` only, or it returns a cost
that is one of six and is added to the sum (rule R342). -/
def Obligations.StepOutcomes : Prop :=
  ∀ s : State, (s.run = .running ∨ s.run = .halted) →
    ∃ t, step s = .next t ∧
      ((∃ op, t = { s with run := .faulted op s.pc }) ∨
        (t.cycles ∈ [4, 8, 12, 16, 20, 24] ∧ t.totalCycles = s.totalCycles + t.cycles))

/-! The bus. -/

/-- A bus write leaves the CPU alone (rule R20) and every address it does not reach (rule R105). -/
def Obligations.BusFrame : Prop :=
  ∀ (s : State) (a : Word) (v : Byte),
    s.storedAt (s.busWrite a v) [a] ∧ (s.busWrite a v).regs = s.regs ∧ (s.busWrite a v).flags = s.flags ∧
    (s.busWrite a v).sp = s.sp ∧ (s.busWrite a v).pc = s.pc ∧ (s.busWrite a v).cycles = s.cycles

/-- A byte stored in VRAM, WRAM, the echo, OAM or HRAM, where it is not blocked, is read back; WRAM and HRAM are never blocked
and answer at their own address (rules R74, R76, R77, R79, R82, R88, R90, R91). -/
def Obligations.StoreThenRead : Prop :=
  ∀ (s : State) (a : Word) (v : Byte),
    ((0xC000 ≤ a.toNat ∧ a.toNat ≤ 0xDFFF) ∨ (0xFF80 ≤ a.toNat ∧ a.toNat ≤ 0xFFFE) →
      s.busRead a = s.mem.read a.toNat ∧ s.busWrite a v = { s with mem := s.mem.write a.toNat v }) ∧
    (s.mem.wf = true →
      (0xC000 ≤ a.toNat ∧ a.toNat ≤ 0xFDFF) ∨ (0xFF80 ≤ a.toNat ∧ a.toNat ≤ 0xFFFE) ∨
      (0x8000 ≤ a.toNat ∧ a.toNat ≤ 0x9FFF ∧ (s.ppu.lcdc.getLsbD 7 = false ∨ s.ppu.mode ≠ .pixelTransfer)) ∨
      (0xFE00 ≤ a.toNat ∧ a.toNat ≤ 0xFE9F ∧ s.dma.active = false ∧
        (s.ppu.lcdc.getLsbD 7 = false ∨ s.ppu.mode = .hblank ∨ s.ppu.mode = .vblank)) →
      (s.busWrite a v).busRead a = v)

/-- The echo is the same storage as work RAM (rule R78). -/
def Obligations.EchoIsWorkRam : Prop :=
  ∀ (s : State) (a : Word), 0xE000 ≤ a.toNat → a.toNat ≤ 0xFDFF →
    s.busRead a = s.busRead (a - 0x2000#16) ∧ ∀ v, s.busWrite a v = s.busWrite (a - 0x2000#16) v

/-- A register's stored bits read back as written, and the bits that are not stored read as 1 (rule R60); what each register
address reads in every state, the computed bits of STAT and the high byte of the divider among it (rules R35 to R50). -/
def Obligations.RegisterRoundTrip : Prop :=
  ∀ (s : State) (v : Byte),
    (∀ a mask, (a, mask) ∈
        [(0xFF05#16, 0xFF#8), (0xFF06#16, 0xFF#8), (0xFF07#16, 0x07#8), (0xFF0F#16, 0x1F#8), (0xFF40#16, 0xFF#8),
         (0xFF41#16, 0x78#8), (0xFF42#16, 0xFF#8), (0xFF43#16, 0xFF#8), (0xFF45#16, 0xFF#8), (0xFF46#16, 0xFF#8),
         (0xFF4A#16, 0xFF#8), (0xFF4B#16, 0xFF#8), (0xFFFF#16, 0xFF#8)] →
      (s.busWrite a v).busRead a &&& mask = v &&& mask) ∧
    s.busRead 0xFF07#16 &&& 0xF8#8 = 0xF8#8 ∧ s.busRead 0xFF0F#16 &&& 0xE0#8 = 0xE0#8 ∧
    s.busRead 0xFF41#16 &&& 0x80#8 = 0x80#8 ∧
    (s.busRead 0xFF04#16).toNat = s.timer.divctr.toNat / 256 ∧
    s.busRead 0xFF05#16 = s.timer.tima ∧ s.busRead 0xFF06#16 = s.timer.tma ∧
    (s.busRead 0xFF07#16).toNat = 0xF8 + s.timer.tac.toNat ∧
    (s.busRead 0xFF41#16).toNat / 8 = 16 + s.ppu.stat.toNat ∧
    ((s.busRead 0xFF41#16).getLsbD 2 = true ↔ s.ppu.ly = s.ppu.lyc) ∧
    (s.busRead 0xFF41#16).toNat % 4 =
      (if s.ppu.lcdc.getLsbD 7 = false then 0
       else if s.ppu.mode = .hblank then 0 else if s.ppu.mode = .vblank then 1 else if s.ppu.mode = .oamScan then 2 else 3) ∧
    s.busRead 0xFF40#16 = s.ppu.lcdc ∧ s.busRead 0xFF42#16 = s.ppu.scy ∧ s.busRead 0xFF43#16 = s.ppu.scx ∧
    s.busRead 0xFF45#16 = s.ppu.lyc ∧ s.busRead 0xFF46#16 = s.dma.reg ∧ s.busRead 0xFF4A#16 = s.ppu.wy ∧
    s.busRead 0xFF4B#16 = s.ppu.wx

/-- Blocked VRAM and OAM: reads give the blocked value, writes are dropped; with the LCD off only a DMA blocks, and only OAM
(rules R88, R90, R91). -/
def Obligations.BlockedAccess : Prop :=
  ∀ (s : State) (a : Word) (v : Byte),
    (0x8000 ≤ a.toNat → a.toNat ≤ 0x9FFF →
      (s.ppu.lcdc.getLsbD 7 = true → s.ppu.mode = .pixelTransfer →
        s.busRead a = s.par.blockedValue ∧ s.busWrite a v = s) ∧
      (s.ppu.lcdc.getLsbD 7 = false ∨ s.ppu.mode ≠ .pixelTransfer →
        s.busRead a = s.mem.read a.toNat ∧ (s.busWrite a v).mem = s.mem.write a.toNat v)) ∧
    (0xFE00 ≤ a.toNat → a.toNat ≤ 0xFE9F →
      ((s.dma.active = true ∨ (s.ppu.lcdc.getLsbD 7 = true ∧ (s.ppu.mode = .oamScan ∨ s.ppu.mode = .pixelTransfer))) →
        s.busRead a = s.par.blockedValue ∧ s.busWrite a v = s) ∧
      (s.dma.active = false → (s.ppu.lcdc.getLsbD 7 = false ∨ s.ppu.mode = .hblank ∨ s.ppu.mode = .vblank) →
        s.busRead a = s.mem.read a.toNat ∧ (s.busWrite a v).mem = s.mem.write a.toNat v))

/-- Where nothing answers, and the three ports: 0xFEA0 to 0xFEFF read the open-bus value and ignore writes, a write to LY changes
nothing (rules R43, R73, R80); 0xFF00 is the joypad, the I/O addresses of no register the external port, 0x0000 to 0x7FFF and
0xA000 to 0xBFFF the cartridge (rules R75, R81, R84 to R87). The kinds of collaborator are the model's: log entries 5 and 7,
and for the layout of the joypad's byte entry 6, PRESUMED. -/
def Obligations.UnansweredAccess : Prop :=
  ∀ (s : State) (a : Word) (v : Byte),
    (0xFEA0 ≤ a.toNat → a.toNat ≤ 0xFEFF → s.busRead a = s.par.openBus ∧ s.busWrite a v = s) ∧
    s.busRead 0xFF44#16 = s.ppu.ly ∧ s.busWrite 0xFF44#16 v = s ∧
    (∀ sel dirs btns, s.joy = .pad sel dirs btns →
      (∀ j, j < 4 → (s.busRead 0xFF00#16).getLsbD j =
        ((sel.getLsbD 0 || dirs.getLsbD j) && (sel.getLsbD 1 || btns.getLsbD j))) ∧
      (s.busRead 0xFF00#16).toNat / 16 = 12 + sel.toNat ∧
      ∃ w : BitVec 2, w.toNat = v.toNat / 16 % 4 ∧ s.busWrite 0xFF00#16 v = { s with joy := .pad w dirs btns }) ∧
    (∀ k st, s.joy = .device k st →
      s.busRead 0xFF00#16 = Config.joyRead k st ∧
      s.busWrite 0xFF00#16 v = { s with joy := .device k (Config.joyWrite k st v) }) ∧
    (0xFF00 < a.toNat → a.toNat ≤ 0xFF7F →
      a.toNat ∉ [0xFF04, 0xFF05, 0xFF06, 0xFF07, 0xFF0F, 0xFF40, 0xFF41, 0xFF42, 0xFF43, 0xFF44, 0xFF45, 0xFF46, 0xFF4A,
        0xFF4B] →
      (s.ext = .null → s.busRead a = s.par.openBus ∧ s.busWrite a v = s) ∧
      ∀ k st, s.ext = .device k st →
        s.busRead a = Config.extRead k st a ∧ s.busWrite a v = { s with ext := .device k (Config.extWrite k st a v) }) ∧
    (a.toNat ≤ 0x7FFF →
      (s.cart = .flatRom ∨ s.cart = .romRam → s.busRead a = s.mem.read a.toNat ∧ s.busWrite a v = s)) ∧
    (0xA000 ≤ a.toNat → a.toNat ≤ 0xBFFF →
      (s.cart = .flatRom → s.busRead a = s.par.openBus ∧ s.busWrite a v = s) ∧
      (s.cart = .romRam →
        s.busRead a = s.mem.read a.toNat ∧ s.busWrite a v = { s with mem := s.mem.write a.toNat v })) ∧
    (a.toNat ≤ 0x7FFF ∨ (0xA000 ≤ a.toNat ∧ a.toNat ≤ 0xBFFF) →
      ∀ k st, s.cart = .mapper k st →
        s.busRead a = Config.cartRead k st a ∧ s.busWrite a v = { s with cart := .mapper k (Config.cartWrite k st a v) })

/-- IE, IF, `request` and `pending` (rules R33, R34, R353 to R355, R357). -/
def Obligations.InterruptRegisters : Prop :=
  ∀ (s : State) (v : Byte) (i : Nat), i < 5 →
    s.busWrite 0xFFFF#16 v = { s with ie := v } ∧ s.busRead 0xFFFF#16 = s.ie ∧
    (∃ f, s.busWrite 0xFF0F#16 v = { s with ifl := f } ∧ ∀ j, j < 5 → f.getLsbD j = v.getLsbD j) ∧
    (s.busRead 0xFF0F#16).toNat = 0xE0 + s.ifl.toNat ∧
    (∃ f, s.request i = { s with ifl := f } ∧ ∀ j, j < 5 → f.getLsbD j = (s.ifl.getLsbD j || decide (j = i))) ∧
    (s.pending = true ↔ ∃ j, j < 5 ∧ (s.ie.getLsbD j && s.ifl.getLsbD j) = true)

/-! The Timer. -/

/-- An advance of `c` cycles moves the divider by `c` and, while TIMA does not overflow, increments TIMA once for each fall of
the selected divider bit, and only with TAC's enable set; nothing else changes (rules R381, R382, R389). -/
def Obligations.TimerCounts : Prop :=
  ∀ (s : State) (c k : Nat), s.timer.reloadPending = false →
    (s.timer.tac.toNat % 4, k) ∈ [(0, 9), (1, 3), (2, 5), (3, 7)] →
    let d := s.timer.divctr.toNat
    let edges := if s.timer.tac.toNat < 4 then 0 else (d + c) / 2 ^ (k + 1) - d / 2 ^ (k + 1)
    s.timer.tima.toNat + edges < 256 →
    let t := Nat.repeat State.timerTick c s
    t = { s with timer := { s.timer with divctr := t.timer.divctr, tima := t.timer.tima } } ∧
    t.timer.divctr.toNat = (d + c) % 65536 ∧ t.timer.tima.toNat = s.timer.tima.toNat + edges ∧
    t.timer.reloadPending = false ∧ t.ifl = s.ifl

/-- The overflowing tick leaves TIMA 0 with no request; the next tick reloads TMA and requests the Timer interrupt
(rule R383). -/
def Obligations.TimerReload : Prop :=
  ∀ (s : State) (k : Nat), s.timer.reloadPending = false → s.timer.tac.getLsbD 2 = true →
    (s.timer.tac.toNat % 4, k) ∈ [(0, 9), (1, 3), (2, 5), (3, 7)] → s.timer.tima.toNat = 0xFF →
    s.timer.divctr.toNat % 2 ^ (k + 1) = 2 ^ (k + 1) - 1 →
    let t := s.timerTick
    let u := t.timerTick
    t.timer.tima.toNat = 0 ∧ t.timer.reloadPending = true ∧ t.ifl = s.ifl ∧
    u.timer.tima = s.timer.tma ∧ u.timer.reloadPending = false ∧
    (∀ j, j < 5 → u.ifl.getLsbD j = (s.ifl.getLsbD j || decide (j = 2)))

/-- Writes to DIV, TIMA, TMA and TAC, inside and outside the reload window (rules R385 to R388). -/
def Obligations.TimerWrites : Prop :=
  ∀ (s : State) (v : Byte),
    s.busWrite 0xFF04#16 v = { s with timer := { s.timer with divctr := 0 } } ∧
    s.busWrite 0xFF05#16 v = { s with timer := { s.timer with tima := v, reloadPending := false } } ∧
    s.busWrite 0xFF06#16 v =
      { s with
        timer :=
          { s.timer with
            tma := v
            tima := if s.timer.reloadPending then v else s.timer.tima
            reloadPending := false } } ∧
    (∃ w : BitVec 3, w.toNat = v.toNat % 8 ∧ s.busWrite 0xFF07#16 v = { s with timer := { s.timer with tac := w } })

/-! The PPU. -/

/-- With the LCD on the PPU stays in the frame of rule R404: after `n` ticks it is `n` dots further in a frame of 70224, its
mode the one line and dot determine, the registers a program writes unchanged, and nothing outside the PPU but IF touched. -/
def Obligations.PpuTimeline : Prop :=
  ∀ (s : State) (n : Nat), s.ppu.lcdc.getLsbD 7 = true → s.ppu.wf = true →
    let t := Nat.repeat State.ppuTick n s
    t = { s with ppu := t.ppu, ifl := t.ifl } ∧
    t.ppu =
      { s.ppu with
        ly := t.ppu.ly, dot := t.ppu.dot, mode := t.ppu.mode, winLatch := t.ppu.winLatch, winLine := t.ppu.winLine
        fb := t.ppu.fb } ∧
    t.ppu.dot.toNat < 456 ∧ t.ppu.ly.toNat < 154 ∧
    t.ppu.ly.toNat * 456 + t.ppu.dot.toNat = (s.ppu.ly.toNat * 456 + s.ppu.dot.toNat + n) % 70224 ∧
    (t.ppu.mode = .vblank ↔ 144 ≤ t.ppu.ly.toNat) ∧
    (t.ppu.ly.toNat < 144 → (t.ppu.mode = .oamScan ↔ t.ppu.dot.toNat < 80) ∧
      (t.ppu.mode = .pixelTransfer ↔ 80 ≤ t.ppu.dot.toNat ∧ t.ppu.dot.toNat < 252) ∧
      (t.ppu.mode = .hblank ↔ 252 ≤ t.ppu.dot.toNat))

/-- The requests of one dot: VBlank on entering line 144 and at no other tick, STAT on the mode entries and the coincidence
that STAT enables, nothing else (rules R405 to R408). -/
def Obligations.PpuRequests : Prop :=
  ∀ (s : State) (next : Nat), s.ppu.lcdc.getLsbD 7 = true → s.ppu.wf = true →
    next = (if s.ppu.ly.toNat = 153 then 0 else s.ppu.ly.toNat + 1) →
    let lineEnd := decide (s.ppu.dot.toNat = 455)
    let t := s.ppuTick
    t.ifl.getLsbD 0 = (s.ifl.getLsbD 0 || (lineEnd && decide (next = 144))) ∧
    t.ifl.getLsbD 1 =
      (s.ifl.getLsbD 1 ||
        (s.ppu.stat.getLsbD 0 && decide (s.ppu.dot.toNat = 251) && decide (s.ppu.ly.toNat < 144)) ||
        (s.ppu.stat.getLsbD 1 && lineEnd && decide (next = 144)) ||
        (s.ppu.stat.getLsbD 2 && lineEnd && decide (next < 144)) ||
        (s.ppu.stat.getLsbD 3 && lineEnd && decide (next = s.ppu.lyc.toNat))) ∧
    (∀ j, 2 ≤ j → t.ifl.getLsbD j = s.ifl.getLsbD j)

/-- LCD off and LCD on by a write to LCDC, the plain write, and the PPU at rest while off (rules R401, R410, R411). -/
def Obligations.LcdSwitch : Prop :=
  ∀ (s : State) (v : Byte),
    (s.ppu.lcdc.getLsbD 7 = true → v.getLsbD 7 = false →
      s.busWrite 0xFF40#16 v = { s with ppu := { s.ppu with lcdc := v, ly := 0, dot := 0, mode := .hblank } }) ∧
    (s.ppu.lcdc.getLsbD 7 = false → v.getLsbD 7 = true →
      s.busWrite 0xFF40#16 v =
        { s with
          ppu :=
            { s.ppu with
              lcdc := v, ly := 0, dot := 0, mode := .oamScan, winLine := 0, winLatch := decide (s.ppu.wy.toNat = 0) } }) ∧
    (s.ppu.lcdc.getLsbD 7 = v.getLsbD 7 → s.busWrite 0xFF40#16 v = { s with ppu := { s.ppu with lcdc := v } }) ∧
    (s.ppu.lcdc.getLsbD 7 = false → ∀ n, Nat.repeat State.ppuTick n s = s)

/-- The window latch and the window line counter at a line start: cleared on entering line 0, then the latch is set where the
new line equals WY; inside a line the latch does not move (rules R416, R417). -/
def Obligations.WindowLatch : Prop :=
  ∀ (s : State) (next : Nat), s.ppu.lcdc.getLsbD 7 = true → s.ppu.wf = true →
    next = (if s.ppu.ly.toNat = 153 then 0 else s.ppu.ly.toNat + 1) →
    let t := s.ppuTick
    (s.ppu.dot.toNat = 455 →
      t.ppu.winLatch = ((s.ppu.winLatch && decide (next ≠ 0)) || decide (next = s.ppu.wy.toNat)) ∧
      t.ppu.winLine = (if next = 0 then 0 else s.ppu.winLine)) ∧
    (s.ppu.dot.toNat ≠ 455 → t.ppu.winLatch = s.ppu.winLatch)

/-- The closed form of `RenderLine` (rule R421): every pixel of the line, the other lines untouched, and the window line
counter moved exactly on a line where the window was drawn (rule R420). The tile pixel in terms of memory: the index from the
map, the data address unsigned from 0x8000 or signed from 0x9000, one bit of each of the two planes (rule R415). The overlay:
the pixel itself by default, else the device's function of the OAM view, VRAM and LCDC (rules R97, R419; log entry 8). And
where a tick renders: at the last dot of mode 3 of a visible line, and at no other (rules R403, R413). -/
def Obligations.RenderClosedForm : Prop :=
  (∀ s : State, s.ppu.ly.toNat < 144 →
    (∀ x, x < 160 →
      ((s.renderLine.ppu.fb[s.ppu.ly.toNat]?).bind fun row => row[x]?) =
        some (s.objOverlay (s.closedPixel x) x s.ppu.ly.toNat)) ∧
    (∀ y, y ≠ s.ppu.ly.toNat → s.renderLine.ppu.fb[y]? = s.ppu.fb[y]?) ∧
    s.renderLine.ppu.winLine =
      (if s.ppu.lcdc.getLsbD 5 && s.ppu.winLatch && decide (s.ppu.wx.toNat ≤ 166) then s.ppu.winLine + 1#8
       else s.ppu.winLine)) ∧
  (∀ (mem : Mem) (lcdc : Byte) (map : Nat) (col row : Byte),
    let idx := (mem.read (map + 32 * (row.toNat / 8) + col.toNat / 8)).toNat
    let base :=
      if lcdc.getLsbD 4 then 0x8000 + 16 * idx else if idx < 128 then 0x9000 + 16 * idx else 0x9000 + 16 * idx - 16 * 256
    let plane := base + 2 * (row.toNat % 8)
    let b := 7 - col.toNat % 8
    (tilePixel mem lcdc map col row).toNat =
      2 * ((mem.read (plane + 1)).getLsbD b).toNat + ((mem.read plane).getLsbD b).toNat) ∧
  (∀ (s : State) (px : BitVec 2) (x y : Nat),
    (s.par.overlay = .background → s.objOverlay px x y = px) ∧
    ∀ k, s.par.overlay = .device k →
      ∃ oam vram : List Byte, s.objOverlay px x y = Config.objOverlay k px x y oam vram s.ppu.lcdc ∧
        oam.length = 160 ∧ vram.length = 0x2000 ∧
        (∀ i, i < 160 → oam[i]? = some (if s.dma.active then s.par.blockedValue else s.mem.read (0xFE00 + i))) ∧
        ∀ i, i < 0x2000 → vram[i]? = some (s.mem.read (0x8000 + i))) ∧
  (∀ s : State, s.ppu.lcdc.getLsbD 7 = true → s.ppu.wf = true →
    let t := s.ppuTick
    (s.ppu.dot.toNat = 251 → s.ppu.ly.toNat < 144 →
      t.ppu.fb = s.renderLine.ppu.fb ∧ t.ppu.winLine = s.renderLine.ppu.winLine) ∧
    (s.ppu.dot.toNat ≠ 251 ∨ 144 ≤ s.ppu.ly.toNat →
      t.ppu.fb = s.ppu.fb ∧ (s.ppu.dot.toNat ≠ 455 → t.ppu.winLine = s.ppu.winLine)))

/-! The DMA unit. -/

/-- Under Instant a write to DMA copies 160 bytes from page `v` into OAM, and leaves the rest of memory and every other part of
the machine but the register alone (rules R93, R99). What the DMA unit reads at each source address, whatever is blocked: VRAM
and work RAM as they are stored, work RAM also for the pages 0xE0 to 0xFF, the cartridge's byte elsewhere (rule R94). -/
def Obligations.DmaInstant : Prop :=
  (∀ (s : State) (v : Byte), s.mem.wf = true → s.par.dmaPolicy = .instant →
    let t := s.busWrite 0xFF46#16 v
    t = { s with dma := { s.dma with reg := v }, mem := t.mem } ∧
    (∀ i, i < 160 → t.mem.read (0xFE00 + i) = s.dmaSrcRead (BitVec.ofNat 16 (256 * v.toNat + i))) ∧
    ∀ k, k < 0xFE00 ∨ 0xFEA0 ≤ k → t.mem.read k = s.mem.read k) ∧
  (∀ (s : State) (a : Word),
    (a.toNat ≤ 0x7FFF ∨ (0xA000 ≤ a.toNat ∧ a.toNat ≤ 0xBFFF) → s.dmaSrcRead a = s.busRead a) ∧
    ((0x8000 ≤ a.toNat ∧ a.toNat ≤ 0x9FFF) ∨ (0xC000 ≤ a.toNat ∧ a.toNat ≤ 0xDFFF) →
      s.dmaSrcRead a = s.mem.read a.toNat) ∧
    (0xE000 ≤ a.toNat → s.dmaSrcRead a = s.mem.read (a.toNat - 0x2000)))

/-- Under Gradual a transfer is active for exactly 640 cycles from DMA_START_DELAY cycles after the write on, and then OAM
holds the source bytes, one copied every 4 cycles (rules R95, R96). -/
def Obligations.DmaGradual : Prop :=
  ∀ (s : State) (v : Byte) (n : Nat), s.mem.wf = true → s.par.dmaPolicy = .gradual →
    let t := Nat.repeat State.dmaTick n (s.busWrite 0xFF46#16 v)
    let d := s.par.dmaStartDelay
    t = { s with dma := t.dma, mem := t.mem } ∧ t.dma.reg = v ∧ (t.dma.active = true ↔ d ≤ n ∧ n < d + 640) ∧
    (∀ i, i < 160 →
      t.mem.read (0xFE00 + i) =
        if d + 4 * (i + 1) ≤ n then s.dmaSrcRead (BitVec.ofNat 16 (256 * v.toNat + i)) else s.mem.read (0xFE00 + i)) ∧
    (∀ k, k < 0xFE00 ∨ 0xFEA0 ≤ k → t.mem.read k = s.mem.read k)

/-! Reset and the invariant. -/

/-- The reset values of rule R451, whatever the arguments and collaborators. -/
def Obligations.ResetValues : Prop :=
  ∀ (par : Params) (m : Mem) (cart : Cart) (joy : Joypad) (ext : ExtIO) (inputs : List ExtInput) (wakes : Nat),
    let s := State.resetWith par m cart joy ext inputs wakes
    s.af = 0x01B0#16 ∧ s.bc = 0x0013#16 ∧ s.de = 0x00D8#16 ∧ s.hl = 0x014D#16 ∧ s.sp = 0xFFFE#16 ∧ s.pc = 0x0100#16 ∧
    s.ime = false ∧ s.imeArm = false ∧ s.run = .running ∧ s.haltBug = false ∧ s.timer.reloadPending = false ∧
    s.timer.divctr = cat 0xAB#8 par.resetDivLow ∧
    (∀ a v, (a, v) ∈
        [(0xFF04#16, 0xAB#8), (0xFF05#16, 0x00#8), (0xFF06#16, 0x00#8), (0xFF07#16, 0xF8#8), (0xFF0F#16, 0xE1#8),
         (0xFF40#16, 0x91#8), (0xFF41#16, 0x86#8), (0xFF42#16, 0x00#8), (0xFF43#16, 0x00#8), (0xFF44#16, 0x00#8),
         (0xFF45#16, 0x00#8), (0xFF46#16, 0xFF#8), (0xFF4A#16, 0x00#8), (0xFF4B#16, 0x00#8), (0xFFFF#16, 0x00#8)] →
      s.busRead a = v) ∧
    s.ppu.dot = 0 ∧ s.ppu.mode = .oamScan ∧ s.ppu.winLatch = true ∧ s.ppu.winLine = 0 ∧
    (∀ y x, y < 144 → x < 160 → ((s.ppu.fb[y]?).bind fun row => row[x]?) = some 0#2) ∧
    s.dma.active = false ∧ s.dma.delay = 0 ∧ s.dma.src = 0 ∧ s.dma.idx = 0 ∧ s.dma.sub = 0 ∧
    s.mem = m ∧ s.totalCycles = 0 ∧ s.cart = cart ∧ s.joy = joy ∧ s.ext = ext ∧
    Params.default.resetDivLow = 0xCC#8

/-- The invariant holds right after reset, for every memory in canonical form. -/
def Obligations.InvAtReset : Prop :=
  State.reset.Inv ∧
  ∀ (par : Params) (m : Mem) (cart : Cart) (joy : Joypad) (ext : ExtIO) (inputs : List ExtInput) (wakes : Nat),
    m.wf = true → m.placed = true → (State.resetWith par m cart joy ext inputs wakes).Inv

/-- Every step keeps the invariant: memory canonical, PPU in its frame, reload window, DMA counters, hidden CPU bits. -/
def Obligations.StepKeepsInv : Prop :=
  ∀ s t : State, s.Inv → step s = .next t → t.Inv

end
end

