-- ==== Sys2Proof/Laws/Mem.lean ====
section
/-! SUPPORT. Memory: read after write, and the canonical form kept by every operation. -/

namespace Sys2Proof.Machine.Mem

theorem wfFrom_mono {m : Mem} {lo lo' : Nat} (h : wfFrom lo m = true) (hl : lo' ≤ lo) : wfFrom lo' m = true := by
  cases m with
  | nil => rfl
  | cons c m =>
    obtain ⟨k, v⟩ := c
    simp only [wfFrom, Bool.and_eq_true, decide_eq_true_eq] at h ⊢
    exact ⟨⟨by omega, h.1.2⟩, h.2⟩

/-- Below the first address nothing is listed. -/
theorem read_of_lt {m : Mem} {lo k : Nat} (h : wfFrom lo m = true) (hk : k < lo) : m.read k = memDefault := by
  induction m generalizing lo with
  | nil => rfl
  | cons c m ih =>
    obtain ⟨k', v'⟩ := c
    simp only [wfFrom, Bool.and_eq_true, decide_eq_true_eq] at h
    rw [read, if_neg (by omega)]
    exact ih h.2 (by omega)

theorem read_write_same (m : Mem) (k : Nat) (v : Byte) {lo : Nat} (h : wfFrom lo m = true) :
    (m.write k v).read k = v := by
  induction m generalizing lo with
  | nil =>
    by_cases hv : v = memDefault <;> simp [write, read, hv]
  | cons c m ih =>
    obtain ⟨k', v'⟩ := c
    simp only [wfFrom, Bool.and_eq_true, decide_eq_true_eq] at h
    unfold write
    split
    · split
      · rename_i h1 h2
        rw [read, if_neg (by omega), read_of_lt h.2 (by omega), h2]
      · simp [read]
    · split
      · split
        · rename_i h1 h2 h3
          rw [read_of_lt h.2 (by omega), h3]
        · simp [read]
      · rename_i h1 h2
        rw [read, if_neg h2]
        exact ih h.2

theorem read_write_other (m : Mem) {k k' : Nat} (v : Byte) (hne : k' ≠ k) : (m.write k v).read k' = m.read k' := by
  induction m with
  | nil =>
    by_cases hv : v = memDefault
    · simp [write, hv]
    · simp [write, read, hv, hne]
  | cons c m ih =>
    obtain ⟨kc, vc⟩ := c
    unfold write
    split
    · split
      · rfl
      · rw [read, if_neg hne]
    · split
      · rename_i h1 h2
        subst h2
        split
        · rw [read, if_neg hne]
        · simp [read, hne]
      · simp only [read, ih]

theorem wfFrom_write {m : Mem} {lo : Nat} (k : Nat) (v : Byte) (h : wfFrom lo m = true) (hk : lo ≤ k) :
    wfFrom lo (m.write k v) = true := by
  induction m generalizing lo with
  | nil =>
    by_cases hv : v = memDefault <;> simp [write, wfFrom, hv, hk]
  | cons c m ih =>
    obtain ⟨kc, vc⟩ := c
    simp only [wfFrom, Bool.and_eq_true, decide_eq_true_eq] at h
    unfold write
    split
    · split
      · simp [wfFrom, h]
      · rename_i h1 h2
        simp only [wfFrom, Bool.and_eq_true, decide_eq_true_eq]
        exact ⟨⟨hk, h2⟩, ⟨by omega, h.1.2⟩, h.2⟩
    · split
      · rename_i h1 h2
        subst h2
        split
        · exact wfFrom_mono h.2 (by omega)
        · rename_i h3
          simp only [wfFrom, Bool.and_eq_true, decide_eq_true_eq]
          exact ⟨⟨hk, h3⟩, h.2⟩
      · rename_i h1 h2
        simp only [wfFrom, Bool.and_eq_true, decide_eq_true_eq]
        exact ⟨h.1, ih h.2 (by omega)⟩

/-- A write keeps the canonical form. -/
theorem wf_write {m : Mem} (k : Nat) (v : Byte) (h : m.wf = true) : (m.write k v).wf = true :=
  wfFrom_write k v h (Nat.zero_le _)

theorem wf_writeList {m : Mem} (k : Nat) (vs : List Byte) (h : m.wf = true) : (m.writeList k vs).wf = true := by
  induction vs generalizing m k with
  | nil => exact h
  | cons v vs ih => exact ih (k + 1) (wf_write k v h)

/-- Read after write, same address, on a canonical memory. -/
theorem read_write_eq {m : Mem} (k : Nat) (v : Byte) (h : m.wf = true) : (m.write k v).read k = v :=
  read_write_same m k v h

/-- A write to an address that has storage keeps every listed address one that has storage. -/
theorem placed_write {m : Mem} {k : Nat} (v : Byte) (h : m.placed = true) (hk : isStorage k = true) :
    (m.write k v).placed = true := by
  unfold placed at *
  induction m with
  | nil =>
    by_cases hv : v = memDefault <;> simp [write, hv, hk]
  | cons c m ih =>
    obtain ⟨kc, vc⟩ := c
    simp only [List.all_cons, Bool.and_eq_true] at h
    unfold write
    repeat' split
    all_goals simp [h.1, h.2, hk, ih h.2]

/-- The canonical form is canonical: two such memories that read alike are the same list. -/
theorem wfFrom_ext {m m' : Mem} {lo : Nat} (h : wfFrom lo m = true) (h' : wfFrom lo m' = true)
    (hr : ∀ k, m.read k = m'.read k) : m = m' := by
  induction m generalizing m' lo with
  | nil =>
    cases m' with
    | nil => rfl
    | cons c m' =>
      obtain ⟨k', v'⟩ := c
      simp only [wfFrom, Bool.and_eq_true, decide_eq_true_eq] at h'
      exact absurd (hr k').symm (by simp [read, h'.1.2])
  | cons c m ih =>
    obtain ⟨k, v⟩ := c
    simp only [wfFrom, Bool.and_eq_true, decide_eq_true_eq] at h
    cases m' with
    | nil => exact absurd (hr k) (by simp [read, h.1.2])
    | cons c' m' =>
      obtain ⟨k', v'⟩ := c'
      simp only [wfFrom, Bool.and_eq_true, decide_eq_true_eq] at h'
      have hk : k = k' := by
        rcases Nat.lt_trichotomy k k' with hlt | heq | hgt
        · have e := hr k
          rw [read, if_pos rfl, read, if_neg (by omega), read_of_lt h'.2 (by omega)] at e
          exact absurd e h.1.2
        · exact heq
        · have e := hr k'
          rw [read, if_neg (by omega), read_of_lt h.2 (by omega), read, if_pos rfl] at e
          exact absurd e.symm h'.1.2
      subst hk
      have hv : v = v' := by simpa [read] using hr k
      subst hv
      congr 1
      refine ih h.2 h'.2 fun j => ?_
      by_cases hj : j = k
      · subst hj
        rw [read_of_lt h.2 (by omega), read_of_lt h'.2 (by omega)]
      · simpa [read, hj] using hr j

theorem wf_ext {m m' : Mem} (h : m.wf = true) (h' : m'.wf = true) (hr : ∀ k, m.read k = m'.read k) : m = m' :=
  wfFrom_ext h h' hr

end Sys2Proof.Machine.Mem
end

