-- ==== Sys2Proof/Laws/State.lean ====
section
/-! SUPPORT. One lemma per field per update of State. -/

namespace Sys2Proof.Machine.State

variable (s : State)

@[simp] theorem setR_regs (r : R8) (v : Byte) : (s.setR r v).regs = s.regs.set r v := rfl
@[simp] theorem setR_flags (r : R8) (v : Byte) : (s.setR r v).flags = s.flags := rfl
@[simp] theorem setR_sp (r : R8) (v : Byte) : (s.setR r v).sp = s.sp := rfl
@[simp] theorem setR_pc (r : R8) (v : Byte) : (s.setR r v).pc = s.pc := rfl
@[simp] theorem setR_ime (r : R8) (v : Byte) : (s.setR r v).ime = s.ime := rfl
@[simp] theorem setR_imeArm (r : R8) (v : Byte) : (s.setR r v).imeArm = s.imeArm := rfl
@[simp] theorem setR_run (r : R8) (v : Byte) : (s.setR r v).run = s.run := rfl
@[simp] theorem setR_haltBug (r : R8) (v : Byte) : (s.setR r v).haltBug = s.haltBug := rfl
@[simp] theorem setR_ie (r : R8) (v : Byte) : (s.setR r v).ie = s.ie := rfl
@[simp] theorem setR_ifl (r : R8) (v : Byte) : (s.setR r v).ifl = s.ifl := rfl
@[simp] theorem setR_timer (r : R8) (v : Byte) : (s.setR r v).timer = s.timer := rfl
@[simp] theorem setR_ppu (r : R8) (v : Byte) : (s.setR r v).ppu = s.ppu := rfl
@[simp] theorem setR_dma (r : R8) (v : Byte) : (s.setR r v).dma = s.dma := rfl
@[simp] theorem setR_mem (r : R8) (v : Byte) : (s.setR r v).mem = s.mem := rfl
@[simp] theorem setR_cart (r : R8) (v : Byte) : (s.setR r v).cart = s.cart := rfl
@[simp] theorem setR_joy (r : R8) (v : Byte) : (s.setR r v).joy = s.joy := rfl
@[simp] theorem setR_ext (r : R8) (v : Byte) : (s.setR r v).ext = s.ext := rfl
@[simp] theorem setR_par (r : R8) (v : Byte) : (s.setR r v).par = s.par := rfl
@[simp] theorem setR_inputs (r : R8) (v : Byte) : (s.setR r v).inputs = s.inputs := rfl
@[simp] theorem setR_wakes (r : R8) (v : Byte) : (s.setR r v).wakes = s.wakes := rfl
@[simp] theorem setR_cycles (r : R8) (v : Byte) : (s.setR r v).cycles = s.cycles := rfl
@[simp] theorem setR_totalCycles (r : R8) (v : Byte) : (s.setR r v).totalCycles = s.totalCycles := rfl

@[simp] theorem setFlags_regs (f : Flags) : (s.setFlags f).regs = s.regs := rfl
@[simp] theorem setFlags_flags (f : Flags) : (s.setFlags f).flags = f := rfl
@[simp] theorem setFlags_sp (f : Flags) : (s.setFlags f).sp = s.sp := rfl
@[simp] theorem setFlags_pc (f : Flags) : (s.setFlags f).pc = s.pc := rfl
@[simp] theorem setFlags_ime (f : Flags) : (s.setFlags f).ime = s.ime := rfl
@[simp] theorem setFlags_imeArm (f : Flags) : (s.setFlags f).imeArm = s.imeArm := rfl
@[simp] theorem setFlags_run (f : Flags) : (s.setFlags f).run = s.run := rfl
@[simp] theorem setFlags_haltBug (f : Flags) : (s.setFlags f).haltBug = s.haltBug := rfl
@[simp] theorem setFlags_ie (f : Flags) : (s.setFlags f).ie = s.ie := rfl
@[simp] theorem setFlags_ifl (f : Flags) : (s.setFlags f).ifl = s.ifl := rfl
@[simp] theorem setFlags_timer (f : Flags) : (s.setFlags f).timer = s.timer := rfl
@[simp] theorem setFlags_ppu (f : Flags) : (s.setFlags f).ppu = s.ppu := rfl
@[simp] theorem setFlags_dma (f : Flags) : (s.setFlags f).dma = s.dma := rfl
@[simp] theorem setFlags_mem (f : Flags) : (s.setFlags f).mem = s.mem := rfl
@[simp] theorem setFlags_cart (f : Flags) : (s.setFlags f).cart = s.cart := rfl
@[simp] theorem setFlags_joy (f : Flags) : (s.setFlags f).joy = s.joy := rfl
@[simp] theorem setFlags_ext (f : Flags) : (s.setFlags f).ext = s.ext := rfl
@[simp] theorem setFlags_par (f : Flags) : (s.setFlags f).par = s.par := rfl
@[simp] theorem setFlags_inputs (f : Flags) : (s.setFlags f).inputs = s.inputs := rfl
@[simp] theorem setFlags_wakes (f : Flags) : (s.setFlags f).wakes = s.wakes := rfl
@[simp] theorem setFlags_cycles (f : Flags) : (s.setFlags f).cycles = s.cycles := rfl
@[simp] theorem setFlags_totalCycles (f : Flags) : (s.setFlags f).totalCycles = s.totalCycles := rfl

@[simp] theorem setSp_regs (v : Word) : (s.setSp v).regs = s.regs := rfl
@[simp] theorem setSp_flags (v : Word) : (s.setSp v).flags = s.flags := rfl
@[simp] theorem setSp_sp (v : Word) : (s.setSp v).sp = v := rfl
@[simp] theorem setSp_pc (v : Word) : (s.setSp v).pc = s.pc := rfl
@[simp] theorem setSp_ime (v : Word) : (s.setSp v).ime = s.ime := rfl
@[simp] theorem setSp_imeArm (v : Word) : (s.setSp v).imeArm = s.imeArm := rfl
@[simp] theorem setSp_run (v : Word) : (s.setSp v).run = s.run := rfl
@[simp] theorem setSp_haltBug (v : Word) : (s.setSp v).haltBug = s.haltBug := rfl
@[simp] theorem setSp_ie (v : Word) : (s.setSp v).ie = s.ie := rfl
@[simp] theorem setSp_ifl (v : Word) : (s.setSp v).ifl = s.ifl := rfl
@[simp] theorem setSp_timer (v : Word) : (s.setSp v).timer = s.timer := rfl
@[simp] theorem setSp_ppu (v : Word) : (s.setSp v).ppu = s.ppu := rfl
@[simp] theorem setSp_dma (v : Word) : (s.setSp v).dma = s.dma := rfl
@[simp] theorem setSp_mem (v : Word) : (s.setSp v).mem = s.mem := rfl
@[simp] theorem setSp_cart (v : Word) : (s.setSp v).cart = s.cart := rfl
@[simp] theorem setSp_joy (v : Word) : (s.setSp v).joy = s.joy := rfl
@[simp] theorem setSp_ext (v : Word) : (s.setSp v).ext = s.ext := rfl
@[simp] theorem setSp_par (v : Word) : (s.setSp v).par = s.par := rfl
@[simp] theorem setSp_inputs (v : Word) : (s.setSp v).inputs = s.inputs := rfl
@[simp] theorem setSp_wakes (v : Word) : (s.setSp v).wakes = s.wakes := rfl
@[simp] theorem setSp_cycles (v : Word) : (s.setSp v).cycles = s.cycles := rfl
@[simp] theorem setSp_totalCycles (v : Word) : (s.setSp v).totalCycles = s.totalCycles := rfl

@[simp] theorem setPc_regs (v : Word) : (s.setPc v).regs = s.regs := rfl
@[simp] theorem setPc_flags (v : Word) : (s.setPc v).flags = s.flags := rfl
@[simp] theorem setPc_sp (v : Word) : (s.setPc v).sp = s.sp := rfl
@[simp] theorem setPc_pc (v : Word) : (s.setPc v).pc = v := rfl
@[simp] theorem setPc_ime (v : Word) : (s.setPc v).ime = s.ime := rfl
@[simp] theorem setPc_imeArm (v : Word) : (s.setPc v).imeArm = s.imeArm := rfl
@[simp] theorem setPc_run (v : Word) : (s.setPc v).run = s.run := rfl
@[simp] theorem setPc_haltBug (v : Word) : (s.setPc v).haltBug = s.haltBug := rfl
@[simp] theorem setPc_ie (v : Word) : (s.setPc v).ie = s.ie := rfl
@[simp] theorem setPc_ifl (v : Word) : (s.setPc v).ifl = s.ifl := rfl
@[simp] theorem setPc_timer (v : Word) : (s.setPc v).timer = s.timer := rfl
@[simp] theorem setPc_ppu (v : Word) : (s.setPc v).ppu = s.ppu := rfl
@[simp] theorem setPc_dma (v : Word) : (s.setPc v).dma = s.dma := rfl
@[simp] theorem setPc_mem (v : Word) : (s.setPc v).mem = s.mem := rfl
@[simp] theorem setPc_cart (v : Word) : (s.setPc v).cart = s.cart := rfl
@[simp] theorem setPc_joy (v : Word) : (s.setPc v).joy = s.joy := rfl
@[simp] theorem setPc_ext (v : Word) : (s.setPc v).ext = s.ext := rfl
@[simp] theorem setPc_par (v : Word) : (s.setPc v).par = s.par := rfl
@[simp] theorem setPc_inputs (v : Word) : (s.setPc v).inputs = s.inputs := rfl
@[simp] theorem setPc_wakes (v : Word) : (s.setPc v).wakes = s.wakes := rfl
@[simp] theorem setPc_cycles (v : Word) : (s.setPc v).cycles = s.cycles := rfl
@[simp] theorem setPc_totalCycles (v : Word) : (s.setPc v).totalCycles = s.totalCycles := rfl

@[simp] theorem cost_regs (k : Nat) : (s.cost k).regs = s.regs := rfl
@[simp] theorem cost_flags (k : Nat) : (s.cost k).flags = s.flags := rfl
@[simp] theorem cost_sp (k : Nat) : (s.cost k).sp = s.sp := rfl
@[simp] theorem cost_pc (k : Nat) : (s.cost k).pc = s.pc := rfl
@[simp] theorem cost_ime (k : Nat) : (s.cost k).ime = s.ime := rfl
@[simp] theorem cost_imeArm (k : Nat) : (s.cost k).imeArm = s.imeArm := rfl
@[simp] theorem cost_run (k : Nat) : (s.cost k).run = s.run := rfl
@[simp] theorem cost_haltBug (k : Nat) : (s.cost k).haltBug = s.haltBug := rfl
@[simp] theorem cost_ie (k : Nat) : (s.cost k).ie = s.ie := rfl
@[simp] theorem cost_ifl (k : Nat) : (s.cost k).ifl = s.ifl := rfl
@[simp] theorem cost_timer (k : Nat) : (s.cost k).timer = s.timer := rfl
@[simp] theorem cost_ppu (k : Nat) : (s.cost k).ppu = s.ppu := rfl
@[simp] theorem cost_dma (k : Nat) : (s.cost k).dma = s.dma := rfl
@[simp] theorem cost_mem (k : Nat) : (s.cost k).mem = s.mem := rfl
@[simp] theorem cost_cart (k : Nat) : (s.cost k).cart = s.cart := rfl
@[simp] theorem cost_joy (k : Nat) : (s.cost k).joy = s.joy := rfl
@[simp] theorem cost_ext (k : Nat) : (s.cost k).ext = s.ext := rfl
@[simp] theorem cost_par (k : Nat) : (s.cost k).par = s.par := rfl
@[simp] theorem cost_inputs (k : Nat) : (s.cost k).inputs = s.inputs := rfl
@[simp] theorem cost_wakes (k : Nat) : (s.cost k).wakes = s.wakes := rfl
@[simp] theorem cost_cycles (k : Nat) : (s.cost k).cycles = k := rfl
@[simp] theorem cost_totalCycles (k : Nat) : (s.cost k).totalCycles = s.totalCycles := rfl

@[simp] theorem store_regs (a : Word) (v : Byte) : (s.store a v).regs = s.regs := rfl
@[simp] theorem store_flags (a : Word) (v : Byte) : (s.store a v).flags = s.flags := rfl
@[simp] theorem store_sp (a : Word) (v : Byte) : (s.store a v).sp = s.sp := rfl
@[simp] theorem store_pc (a : Word) (v : Byte) : (s.store a v).pc = s.pc := rfl
@[simp] theorem store_ime (a : Word) (v : Byte) : (s.store a v).ime = s.ime := rfl
@[simp] theorem store_imeArm (a : Word) (v : Byte) : (s.store a v).imeArm = s.imeArm := rfl
@[simp] theorem store_run (a : Word) (v : Byte) : (s.store a v).run = s.run := rfl
@[simp] theorem store_haltBug (a : Word) (v : Byte) : (s.store a v).haltBug = s.haltBug := rfl
@[simp] theorem store_ie (a : Word) (v : Byte) : (s.store a v).ie = s.ie := rfl
@[simp] theorem store_ifl (a : Word) (v : Byte) : (s.store a v).ifl = s.ifl := rfl
@[simp] theorem store_timer (a : Word) (v : Byte) : (s.store a v).timer = s.timer := rfl
@[simp] theorem store_ppu (a : Word) (v : Byte) : (s.store a v).ppu = s.ppu := rfl
@[simp] theorem store_dma (a : Word) (v : Byte) : (s.store a v).dma = s.dma := rfl
@[simp] theorem store_mem (a : Word) (v : Byte) : (s.store a v).mem = s.mem.write (storageKey a) v := rfl
@[simp] theorem store_cart (a : Word) (v : Byte) : (s.store a v).cart = s.cart := rfl
@[simp] theorem store_joy (a : Word) (v : Byte) : (s.store a v).joy = s.joy := rfl
@[simp] theorem store_ext (a : Word) (v : Byte) : (s.store a v).ext = s.ext := rfl
@[simp] theorem store_par (a : Word) (v : Byte) : (s.store a v).par = s.par := rfl
@[simp] theorem store_inputs (a : Word) (v : Byte) : (s.store a v).inputs = s.inputs := rfl
@[simp] theorem store_wakes (a : Word) (v : Byte) : (s.store a v).wakes = s.wakes := rfl
@[simp] theorem store_cycles (a : Word) (v : Byte) : (s.store a v).cycles = s.cycles := rfl
@[simp] theorem store_totalCycles (a : Word) (v : Byte) : (s.store a v).totalCycles = s.totalCycles := rfl

@[simp] theorem setTimer_regs (t : Timer) : (s.setTimer t).regs = s.regs := rfl
@[simp] theorem setTimer_flags (t : Timer) : (s.setTimer t).flags = s.flags := rfl
@[simp] theorem setTimer_sp (t : Timer) : (s.setTimer t).sp = s.sp := rfl
@[simp] theorem setTimer_pc (t : Timer) : (s.setTimer t).pc = s.pc := rfl
@[simp] theorem setTimer_ime (t : Timer) : (s.setTimer t).ime = s.ime := rfl
@[simp] theorem setTimer_imeArm (t : Timer) : (s.setTimer t).imeArm = s.imeArm := rfl
@[simp] theorem setTimer_run (t : Timer) : (s.setTimer t).run = s.run := rfl
@[simp] theorem setTimer_haltBug (t : Timer) : (s.setTimer t).haltBug = s.haltBug := rfl
@[simp] theorem setTimer_ie (t : Timer) : (s.setTimer t).ie = s.ie := rfl
@[simp] theorem setTimer_ifl (t : Timer) : (s.setTimer t).ifl = s.ifl := rfl
@[simp] theorem setTimer_timer (t : Timer) : (s.setTimer t).timer = t := rfl
@[simp] theorem setTimer_ppu (t : Timer) : (s.setTimer t).ppu = s.ppu := rfl
@[simp] theorem setTimer_dma (t : Timer) : (s.setTimer t).dma = s.dma := rfl
@[simp] theorem setTimer_mem (t : Timer) : (s.setTimer t).mem = s.mem := rfl
@[simp] theorem setTimer_cart (t : Timer) : (s.setTimer t).cart = s.cart := rfl
@[simp] theorem setTimer_joy (t : Timer) : (s.setTimer t).joy = s.joy := rfl
@[simp] theorem setTimer_ext (t : Timer) : (s.setTimer t).ext = s.ext := rfl
@[simp] theorem setTimer_par (t : Timer) : (s.setTimer t).par = s.par := rfl
@[simp] theorem setTimer_inputs (t : Timer) : (s.setTimer t).inputs = s.inputs := rfl
@[simp] theorem setTimer_wakes (t : Timer) : (s.setTimer t).wakes = s.wakes := rfl
@[simp] theorem setTimer_cycles (t : Timer) : (s.setTimer t).cycles = s.cycles := rfl
@[simp] theorem setTimer_totalCycles (t : Timer) : (s.setTimer t).totalCycles = s.totalCycles := rfl

@[simp] theorem setPpu_regs (p : Ppu) : (s.setPpu p).regs = s.regs := rfl
@[simp] theorem setPpu_flags (p : Ppu) : (s.setPpu p).flags = s.flags := rfl
@[simp] theorem setPpu_sp (p : Ppu) : (s.setPpu p).sp = s.sp := rfl
@[simp] theorem setPpu_pc (p : Ppu) : (s.setPpu p).pc = s.pc := rfl
@[simp] theorem setPpu_ime (p : Ppu) : (s.setPpu p).ime = s.ime := rfl
@[simp] theorem setPpu_imeArm (p : Ppu) : (s.setPpu p).imeArm = s.imeArm := rfl
@[simp] theorem setPpu_run (p : Ppu) : (s.setPpu p).run = s.run := rfl
@[simp] theorem setPpu_haltBug (p : Ppu) : (s.setPpu p).haltBug = s.haltBug := rfl
@[simp] theorem setPpu_ie (p : Ppu) : (s.setPpu p).ie = s.ie := rfl
@[simp] theorem setPpu_ifl (p : Ppu) : (s.setPpu p).ifl = s.ifl := rfl
@[simp] theorem setPpu_timer (p : Ppu) : (s.setPpu p).timer = s.timer := rfl
@[simp] theorem setPpu_ppu (p : Ppu) : (s.setPpu p).ppu = p := rfl
@[simp] theorem setPpu_dma (p : Ppu) : (s.setPpu p).dma = s.dma := rfl
@[simp] theorem setPpu_mem (p : Ppu) : (s.setPpu p).mem = s.mem := rfl
@[simp] theorem setPpu_cart (p : Ppu) : (s.setPpu p).cart = s.cart := rfl
@[simp] theorem setPpu_joy (p : Ppu) : (s.setPpu p).joy = s.joy := rfl
@[simp] theorem setPpu_ext (p : Ppu) : (s.setPpu p).ext = s.ext := rfl
@[simp] theorem setPpu_par (p : Ppu) : (s.setPpu p).par = s.par := rfl
@[simp] theorem setPpu_inputs (p : Ppu) : (s.setPpu p).inputs = s.inputs := rfl
@[simp] theorem setPpu_wakes (p : Ppu) : (s.setPpu p).wakes = s.wakes := rfl
@[simp] theorem setPpu_cycles (p : Ppu) : (s.setPpu p).cycles = s.cycles := rfl
@[simp] theorem setPpu_totalCycles (p : Ppu) : (s.setPpu p).totalCycles = s.totalCycles := rfl

@[simp] theorem request_regs (i : Nat) : (s.request i).regs = s.regs := rfl
@[simp] theorem request_flags (i : Nat) : (s.request i).flags = s.flags := rfl
@[simp] theorem request_sp (i : Nat) : (s.request i).sp = s.sp := rfl
@[simp] theorem request_pc (i : Nat) : (s.request i).pc = s.pc := rfl
@[simp] theorem request_ime (i : Nat) : (s.request i).ime = s.ime := rfl
@[simp] theorem request_imeArm (i : Nat) : (s.request i).imeArm = s.imeArm := rfl
@[simp] theorem request_run (i : Nat) : (s.request i).run = s.run := rfl
@[simp] theorem request_haltBug (i : Nat) : (s.request i).haltBug = s.haltBug := rfl
@[simp] theorem request_ie (i : Nat) : (s.request i).ie = s.ie := rfl
@[simp] theorem request_ifl (i : Nat) : (s.request i).ifl = s.ifl ||| (1#5 <<< i) := rfl
@[simp] theorem request_timer (i : Nat) : (s.request i).timer = s.timer := rfl
@[simp] theorem request_ppu (i : Nat) : (s.request i).ppu = s.ppu := rfl
@[simp] theorem request_dma (i : Nat) : (s.request i).dma = s.dma := rfl
@[simp] theorem request_mem (i : Nat) : (s.request i).mem = s.mem := rfl
@[simp] theorem request_cart (i : Nat) : (s.request i).cart = s.cart := rfl
@[simp] theorem request_joy (i : Nat) : (s.request i).joy = s.joy := rfl
@[simp] theorem request_ext (i : Nat) : (s.request i).ext = s.ext := rfl
@[simp] theorem request_par (i : Nat) : (s.request i).par = s.par := rfl
@[simp] theorem request_inputs (i : Nat) : (s.request i).inputs = s.inputs := rfl
@[simp] theorem request_wakes (i : Nat) : (s.request i).wakes = s.wakes := rfl
@[simp] theorem request_cycles (i : Nat) : (s.request i).cycles = s.cycles := rfl
@[simp] theorem request_totalCycles (i : Nat) : (s.request i).totalCycles = s.totalCycles := rfl

@[simp] theorem setMode_regs (m : Mode) : (s.setMode m).regs = s.regs := rfl
@[simp] theorem setMode_flags (m : Mode) : (s.setMode m).flags = s.flags := rfl
@[simp] theorem setMode_sp (m : Mode) : (s.setMode m).sp = s.sp := rfl
@[simp] theorem setMode_pc (m : Mode) : (s.setMode m).pc = s.pc := rfl
@[simp] theorem setMode_ime (m : Mode) : (s.setMode m).ime = s.ime := rfl
@[simp] theorem setMode_imeArm (m : Mode) : (s.setMode m).imeArm = s.imeArm := rfl
@[simp] theorem setMode_run (m : Mode) : (s.setMode m).run = s.run := rfl
@[simp] theorem setMode_haltBug (m : Mode) : (s.setMode m).haltBug = s.haltBug := rfl
@[simp] theorem setMode_ie (m : Mode) : (s.setMode m).ie = s.ie := rfl
@[simp] theorem setMode_ifl (m : Mode) : (s.setMode m).ifl = s.ifl := rfl
@[simp] theorem setMode_timer (m : Mode) : (s.setMode m).timer = s.timer := rfl
@[simp] theorem setMode_ppu (m : Mode) : (s.setMode m).ppu = { s.ppu with mode := m } := rfl
@[simp] theorem setMode_dma (m : Mode) : (s.setMode m).dma = s.dma := rfl
@[simp] theorem setMode_mem (m : Mode) : (s.setMode m).mem = s.mem := rfl
@[simp] theorem setMode_cart (m : Mode) : (s.setMode m).cart = s.cart := rfl
@[simp] theorem setMode_joy (m : Mode) : (s.setMode m).joy = s.joy := rfl
@[simp] theorem setMode_ext (m : Mode) : (s.setMode m).ext = s.ext := rfl
@[simp] theorem setMode_par (m : Mode) : (s.setMode m).par = s.par := rfl
@[simp] theorem setMode_inputs (m : Mode) : (s.setMode m).inputs = s.inputs := rfl
@[simp] theorem setMode_wakes (m : Mode) : (s.setMode m).wakes = s.wakes := rfl
@[simp] theorem setMode_cycles (m : Mode) : (s.setMode m).cycles = s.cycles := rfl
@[simp] theorem setMode_totalCycles (m : Mode) : (s.setMode m).totalCycles = s.totalCycles := rfl

@[simp] theorem dmaCopyByte_regs (base : Word) (i : Nat) : (s.dmaCopyByte base i).regs = s.regs := rfl
@[simp] theorem dmaCopyByte_flags (base : Word) (i : Nat) : (s.dmaCopyByte base i).flags = s.flags := rfl
@[simp] theorem dmaCopyByte_sp (base : Word) (i : Nat) : (s.dmaCopyByte base i).sp = s.sp := rfl
@[simp] theorem dmaCopyByte_pc (base : Word) (i : Nat) : (s.dmaCopyByte base i).pc = s.pc := rfl
@[simp] theorem dmaCopyByte_ime (base : Word) (i : Nat) : (s.dmaCopyByte base i).ime = s.ime := rfl
@[simp] theorem dmaCopyByte_imeArm (base : Word) (i : Nat) : (s.dmaCopyByte base i).imeArm = s.imeArm := rfl
@[simp] theorem dmaCopyByte_run (base : Word) (i : Nat) : (s.dmaCopyByte base i).run = s.run := rfl
@[simp] theorem dmaCopyByte_haltBug (base : Word) (i : Nat) : (s.dmaCopyByte base i).haltBug = s.haltBug := rfl
@[simp] theorem dmaCopyByte_ie (base : Word) (i : Nat) : (s.dmaCopyByte base i).ie = s.ie := rfl
@[simp] theorem dmaCopyByte_ifl (base : Word) (i : Nat) : (s.dmaCopyByte base i).ifl = s.ifl := rfl
@[simp] theorem dmaCopyByte_timer (base : Word) (i : Nat) : (s.dmaCopyByte base i).timer = s.timer := rfl
@[simp] theorem dmaCopyByte_ppu (base : Word) (i : Nat) : (s.dmaCopyByte base i).ppu = s.ppu := rfl
@[simp] theorem dmaCopyByte_dma (base : Word) (i : Nat) : (s.dmaCopyByte base i).dma = s.dma := rfl
@[simp] theorem dmaCopyByte_mem (base : Word) (i : Nat) : (s.dmaCopyByte base i).mem = s.mem.write (0xFE00 + i) (s.dmaSrcRead (base + BitVec.ofNat 16 i)) := rfl
@[simp] theorem dmaCopyByte_cart (base : Word) (i : Nat) : (s.dmaCopyByte base i).cart = s.cart := rfl
@[simp] theorem dmaCopyByte_joy (base : Word) (i : Nat) : (s.dmaCopyByte base i).joy = s.joy := rfl
@[simp] theorem dmaCopyByte_ext (base : Word) (i : Nat) : (s.dmaCopyByte base i).ext = s.ext := rfl
@[simp] theorem dmaCopyByte_par (base : Word) (i : Nat) : (s.dmaCopyByte base i).par = s.par := rfl
@[simp] theorem dmaCopyByte_inputs (base : Word) (i : Nat) : (s.dmaCopyByte base i).inputs = s.inputs := rfl
@[simp] theorem dmaCopyByte_wakes (base : Word) (i : Nat) : (s.dmaCopyByte base i).wakes = s.wakes := rfl
@[simp] theorem dmaCopyByte_cycles (base : Word) (i : Nat) : (s.dmaCopyByte base i).cycles = s.cycles := rfl
@[simp] theorem dmaCopyByte_totalCycles (base : Word) (i : Nat) : (s.dmaCopyByte base i).totalCycles = s.totalCycles := rfl

@[simp] theorem setHl_regs (v : Word) : (s.setHl v).regs = (s.regs.set .h (hiByte v)).set .l (loByte v) := rfl
@[simp] theorem setHl_flags (v : Word) : (s.setHl v).flags = s.flags := rfl
@[simp] theorem setHl_sp (v : Word) : (s.setHl v).sp = s.sp := rfl
@[simp] theorem setHl_pc (v : Word) : (s.setHl v).pc = s.pc := rfl
@[simp] theorem setHl_ime (v : Word) : (s.setHl v).ime = s.ime := rfl
@[simp] theorem setHl_imeArm (v : Word) : (s.setHl v).imeArm = s.imeArm := rfl
@[simp] theorem setHl_run (v : Word) : (s.setHl v).run = s.run := rfl
@[simp] theorem setHl_haltBug (v : Word) : (s.setHl v).haltBug = s.haltBug := rfl
@[simp] theorem setHl_ie (v : Word) : (s.setHl v).ie = s.ie := rfl
@[simp] theorem setHl_ifl (v : Word) : (s.setHl v).ifl = s.ifl := rfl
@[simp] theorem setHl_timer (v : Word) : (s.setHl v).timer = s.timer := rfl
@[simp] theorem setHl_ppu (v : Word) : (s.setHl v).ppu = s.ppu := rfl
@[simp] theorem setHl_dma (v : Word) : (s.setHl v).dma = s.dma := rfl
@[simp] theorem setHl_mem (v : Word) : (s.setHl v).mem = s.mem := rfl
@[simp] theorem setHl_cart (v : Word) : (s.setHl v).cart = s.cart := rfl
@[simp] theorem setHl_joy (v : Word) : (s.setHl v).joy = s.joy := rfl
@[simp] theorem setHl_ext (v : Word) : (s.setHl v).ext = s.ext := rfl
@[simp] theorem setHl_par (v : Word) : (s.setHl v).par = s.par := rfl
@[simp] theorem setHl_inputs (v : Word) : (s.setHl v).inputs = s.inputs := rfl
@[simp] theorem setHl_wakes (v : Word) : (s.setHl v).wakes = s.wakes := rfl
@[simp] theorem setHl_cycles (v : Word) : (s.setHl v).cycles = s.cycles := rfl
@[simp] theorem setHl_totalCycles (v : Word) : (s.setHl v).totalCycles = s.totalCycles := rfl

@[simp] theorem popSp_regs : (s.popSp).regs = s.regs := rfl
@[simp] theorem popSp_flags : (s.popSp).flags = s.flags := rfl
@[simp] theorem popSp_sp : (s.popSp).sp = s.sp + 2#16 := rfl
@[simp] theorem popSp_pc : (s.popSp).pc = s.pc := rfl
@[simp] theorem popSp_ime : (s.popSp).ime = s.ime := rfl
@[simp] theorem popSp_imeArm : (s.popSp).imeArm = s.imeArm := rfl
@[simp] theorem popSp_run : (s.popSp).run = s.run := rfl
@[simp] theorem popSp_haltBug : (s.popSp).haltBug = s.haltBug := rfl
@[simp] theorem popSp_ie : (s.popSp).ie = s.ie := rfl
@[simp] theorem popSp_ifl : (s.popSp).ifl = s.ifl := rfl
@[simp] theorem popSp_timer : (s.popSp).timer = s.timer := rfl
@[simp] theorem popSp_ppu : (s.popSp).ppu = s.ppu := rfl
@[simp] theorem popSp_dma : (s.popSp).dma = s.dma := rfl
@[simp] theorem popSp_mem : (s.popSp).mem = s.mem := rfl
@[simp] theorem popSp_cart : (s.popSp).cart = s.cart := rfl
@[simp] theorem popSp_joy : (s.popSp).joy = s.joy := rfl
@[simp] theorem popSp_ext : (s.popSp).ext = s.ext := rfl
@[simp] theorem popSp_par : (s.popSp).par = s.par := rfl
@[simp] theorem popSp_inputs : (s.popSp).inputs = s.inputs := rfl
@[simp] theorem popSp_wakes : (s.popSp).wakes = s.wakes := rfl
@[simp] theorem popSp_cycles : (s.popSp).cycles = s.cycles := rfl
@[simp] theorem popSp_totalCycles : (s.popSp).totalCycles = s.totalCycles := rfl

@[simp] theorem wake_regs : (s.wake).regs = s.regs := rfl
@[simp] theorem wake_flags : (s.wake).flags = s.flags := rfl
@[simp] theorem wake_sp : (s.wake).sp = s.sp := rfl
@[simp] theorem wake_pc : (s.wake).pc = s.pc := rfl
@[simp] theorem wake_ime : (s.wake).ime = s.ime := rfl
@[simp] theorem wake_imeArm : (s.wake).imeArm = s.imeArm := rfl
@[simp] theorem wake_run : (s.wake).run = .running := rfl
@[simp] theorem wake_haltBug : (s.wake).haltBug = s.haltBug := rfl
@[simp] theorem wake_ie : (s.wake).ie = s.ie := rfl
@[simp] theorem wake_ifl : (s.wake).ifl = s.ifl := rfl
@[simp] theorem wake_timer : (s.wake).timer = s.timer := rfl
@[simp] theorem wake_ppu : (s.wake).ppu = s.ppu := rfl
@[simp] theorem wake_dma : (s.wake).dma = s.dma := rfl
@[simp] theorem wake_mem : (s.wake).mem = s.mem := rfl
@[simp] theorem wake_cart : (s.wake).cart = s.cart := rfl
@[simp] theorem wake_joy : (s.wake).joy = s.joy := rfl
@[simp] theorem wake_ext : (s.wake).ext = s.ext := rfl
@[simp] theorem wake_par : (s.wake).par = s.par := rfl
@[simp] theorem wake_inputs : (s.wake).inputs = s.inputs := rfl
@[simp] theorem wake_wakes : (s.wake).wakes = s.wakes := rfl
@[simp] theorem wake_cycles : (s.wake).cycles = s.cycles := rfl
@[simp] theorem wake_totalCycles : (s.wake).totalCycles = s.totalCycles := rfl

@[simp] theorem countCycles_regs : (s.countCycles).regs = s.regs := rfl
@[simp] theorem countCycles_flags : (s.countCycles).flags = s.flags := rfl
@[simp] theorem countCycles_sp : (s.countCycles).sp = s.sp := rfl
@[simp] theorem countCycles_pc : (s.countCycles).pc = s.pc := rfl
@[simp] theorem countCycles_ime : (s.countCycles).ime = s.ime := rfl
@[simp] theorem countCycles_imeArm : (s.countCycles).imeArm = s.imeArm := rfl
@[simp] theorem countCycles_run : (s.countCycles).run = s.run := rfl
@[simp] theorem countCycles_haltBug : (s.countCycles).haltBug = s.haltBug := rfl
@[simp] theorem countCycles_ie : (s.countCycles).ie = s.ie := rfl
@[simp] theorem countCycles_ifl : (s.countCycles).ifl = s.ifl := rfl
@[simp] theorem countCycles_timer : (s.countCycles).timer = s.timer := rfl
@[simp] theorem countCycles_ppu : (s.countCycles).ppu = s.ppu := rfl
@[simp] theorem countCycles_dma : (s.countCycles).dma = s.dma := rfl
@[simp] theorem countCycles_mem : (s.countCycles).mem = s.mem := rfl
@[simp] theorem countCycles_cart : (s.countCycles).cart = s.cart := rfl
@[simp] theorem countCycles_joy : (s.countCycles).joy = s.joy := rfl
@[simp] theorem countCycles_ext : (s.countCycles).ext = extAdvance s.ext s.cycles := rfl
@[simp] theorem countCycles_par : (s.countCycles).par = s.par := rfl
@[simp] theorem countCycles_inputs : (s.countCycles).inputs = s.inputs := rfl
@[simp] theorem countCycles_wakes : (s.countCycles).wakes = s.wakes := rfl
@[simp] theorem countCycles_cycles : (s.countCycles).cycles = s.cycles := rfl
@[simp] theorem countCycles_totalCycles : (s.countCycles).totalCycles = s.totalCycles + s.cycles := rfl

end Sys2Proof.Machine.State
end

