-- ==== Sys2Proof/Laws/Operands.lean ====
section
/-! SUPPORT. Registers, pairs, F, and joining and splitting words. -/

namespace Sys2Proof

theorem cat_toNat (h l : Byte) : (cat h l).toNat = 256 * h.toNat + l.toNat := by
  unfold cat
  rw [BitVec.toNat_append, ← Nat.shiftLeft_add_eq_or_of_lt l.isLt, Nat.shiftLeft_eq]
  omega

theorem hiByte_toNat (v : Word) : (hiByte v).toNat = v.toNat / 256 := by
  simp [hiByte, BitVec.extractLsb'_toNat, Nat.shiftRight_eq_div_pow]; omega

theorem loByte_toNat (v : Word) : (loByte v).toNat = v.toNat % 256 := by
  simp [loByte, BitVec.extractLsb'_toNat]

@[simp] theorem hiByte_cat (h l : Byte) : hiByte (cat h l) = h := by
  apply BitVec.eq_of_toNat_eq; rw [hiByte_toNat, cat_toNat]; omega

@[simp] theorem loByte_cat (h l : Byte) : loByte (cat h l) = l := by
  apply BitVec.eq_of_toNat_eq; rw [loByte_toNat, cat_toNat]; omega

@[simp] theorem cat_split (v : Word) : cat (hiByte v) (loByte v) = v := by
  apply BitVec.eq_of_toNat_eq; rw [cat_toNat, hiByte_toNat, loByte_toNat]; omega

theorem highPage_eq (n : Byte) : highPage n = BitVec.ofNat 16 (0xFF00 + n.toNat) := by
  apply BitVec.eq_of_toNat_eq; simp [highPage, zext16]

theorem sext16_toNat (e : Byte) : (sext16 e).toNat = if e.toNat < 128 then e.toNat else e.toNat + 65280 := by
  revert e; decide +kernel

namespace Machine

@[simp] theorem Regs.get_set_same (g : Regs) (r : R8) (v : Byte) : (g.set r v).get r = v := by cases r <;> rfl

theorem Regs.get_set_other (g : Regs) {r r' : R8} (v : Byte) (h : r' ≠ r) : (g.set r v).get r' = g.get r' := by
  cases r <;> cases r' <;> first | rfl | exact absurd rfl h

theorem Flags.toByte_toNat (f : Flags) :
    f.toByte.toNat = 128 * f.z.toNat + 64 * f.n.toNat + 32 * f.h.toNat + 16 * f.c.toNat := by
  obtain ⟨z, n, h, c⟩ := f
  cases z <;> cases n <;> cases h <;> cases c <;> rfl

@[simp] theorem Flags.ofByte_toByte (f : Flags) : Flags.ofByte f.toByte = f := by
  obtain ⟨z, n, h, c⟩ := f
  cases z <;> cases n <;> cases h <;> cases c <;> rfl

/-- A write of F drops bits 3 to 0 (rule R24). -/
theorem Flags.toByte_ofByte (v : Byte) : (Flags.ofByte v).toByte.toNat = v.toNat / 16 * 16 := by
  revert v; decide +kernel

namespace State

variable (s : State)

@[simp] theorem getR_setR_same (r : R8) (v : Byte) : (s.setR r v).getR r = v := Regs.get_set_same _ _ _

theorem getR_setR_other {r r' : R8} (v : Byte) (h : r' ≠ r) : (s.setR r v).getR r' = s.getR r' :=
  Regs.get_set_other _ _ h

@[simp] theorem getR_a : s.getR .a = s.regs.a := rfl

@[simp] theorem hl_setHl (v : Word) : (s.setHl v).hl = v := cat_split v
@[simp] theorem bc_setBc (v : Word) : (s.setBc v).bc = v := cat_split v
@[simp] theorem de_setDe (v : Word) : (s.setDe v).de = v := cat_split v

@[simp] theorem getRP_setRP_same (p : RP) (v : Word) : (s.setRP p v).getRP p = v := by
  cases p <;> first | rfl | exact cat_split v

theorem getRP_setRP_other {p q : RP} (v : Word) (h : q ≠ p) : (s.setRP p v).getRP q = s.getRP q := by
  cases p <;> cases q <;> first | rfl | exact absurd rfl h

/-- A pair written and read back: F loses its low nibble (rules R21, R24). -/
theorem getRP2_setRP2_same (q : RP2) (v : Word) :
    ((s.setRP2 q v).getRP2 q).toNat = if q = .af then v.toNat / 16 * 16 else v.toNat := by
  cases q
  case af =>
    show (cat (hiByte v) (Flags.ofByte (loByte v)).toByte).toNat = _
    rw [cat_toNat, Flags.toByte_ofByte, hiByte_toNat, loByte_toNat, if_pos rfl]
    omega
  all_goals exact congrArg BitVec.toNat (cat_split v)

theorem getRP2_setRP2_other {p q : RP2} (v : Word) (h : q ≠ p) : (s.setRP2 p v).getRP2 q = s.getRP2 q := by
  cases p <;> cases q <;> first | rfl | exact absurd rfl h

theorem setRP2_flags {q : RP2} (v : Word) (h : q ≠ .af) : (s.setRP2 q v).flags = s.flags := by
  cases q <;> first | rfl | exact absurd rfl h

theorem setRP_flags (p : RP) (v : Word) : (s.setRP p v).flags = s.flags := by cases p <;> rfl
theorem setRP_pc (p : RP) (v : Word) : (s.setRP p v).pc = s.pc := by cases p <;> rfl
/-- A write of a pair changes registers and `sp`. -/
theorem setRP_eq (p : RP) (v : Word) :
    s.setRP p v = { s with regs := (s.setRP p v).regs, sp := (s.setRP p v).sp } := by cases p <;> rfl
/-- A write of a stackable pair changes registers and F. -/
theorem setRP2_eq (q : RP2) (v : Word) :
    s.setRP2 q v = { s with regs := (s.setRP2 q v).regs, flags := (s.setRP2 q v).flags } := by cases q <;> rfl
theorem setRP_a (p : RP) (v : Word) : (s.setRP p v).regs.a = s.regs.a := by cases p <;> rfl

end State

end Machine

end Sys2Proof
end

