-- ==== Sys2Proof/Laws/Bus.lean ====
section
/-! SUPPORT. The bus: what a write leaves alone, and which addresses it reaches. -/

namespace Sys2Proof.Machine

namespace State

variable (s : State)

/-! A read does not look at the CPU. -/

@[simp] theorem busRead_setR (r : R8) (v : Byte) (a : Word) : (s.setR r v).busRead a = s.busRead a := rfl
@[simp] theorem busRead_setFlags (f : Flags) (a : Word) : (s.setFlags f).busRead a = s.busRead a := rfl
@[simp] theorem busRead_setSp (v a : Word) : (s.setSp v).busRead a = s.busRead a := rfl
@[simp] theorem busRead_setPc (v a : Word) : (s.setPc v).busRead a = s.busRead a := rfl
@[simp] theorem busRead_setHl (v a : Word) : (s.setHl v).busRead a = s.busRead a := rfl
@[simp] theorem busRead_cost (k : Nat) (a : Word) : (s.cost k).busRead a = s.busRead a := rfl

/-- Two states whose devices, memory and arguments agree read alike. -/
theorem busRead_congr {s t : State} (a : Word) (hie : t.ie = s.ie) (hifl : t.ifl = s.ifl) (ht : t.timer = s.timer)
    (hp : t.ppu = s.ppu) (hd : t.dma = s.dma) (hm : t.mem = s.mem) (hc : t.cart = s.cart) (hj : t.joy = s.joy)
    (he : t.ext = s.ext) (hpar : t.par = s.par) : t.busRead a = s.busRead a := by
  obtain ⟨⟩ := s
  obtain ⟨⟩ := t
  simp only at *
  subst hie hifl ht hp hd hm hc hj he hpar
  rfl

end State

/-! A transfer touches memory only. -/

/-- Everything but the memory. -/
def State.sameButMem (s t : State) : Prop := t = { s with mem := t.mem }

theorem State.sameButMem_refl (s : State) : s.sameButMem s := rfl

theorem State.sameButMem_trans {s t u : State} (h : s.sameButMem t) (h' : t.sameButMem u) : s.sameButMem u := by
  unfold State.sameButMem at *
  rw [h', h]

theorem State.dmaCopyByte_sameButMem (s : State) (b : Word) (i : Nat) : s.sameButMem (s.dmaCopyByte b i) := rfl

theorem State.dmaCopy_sameButMem (b : Word) (n i : Nat) (s : State) : s.sameButMem (State.dmaCopy b n i s) := by
  induction n generalizing i s with
  | zero => exact s.sameButMem_refl
  | succ n ih => exact State.sameButMem_trans (s.dmaCopyByte_sameButMem b i) (ih (i + 1) _)

/-- A transfer stores in OAM only. -/
theorem State.dmaCopy_read_other (b : Word) (n i : Nat) (s : State) {k : Nat} (hk : k < 0xFE00 + i ∨ 0xFE00 + i + n ≤ k) :
    (State.dmaCopy b n i s).mem.read k = s.mem.read k := by
  induction n generalizing i s with
  | zero => rfl
  | succ n ih =>
    rw [State.dmaCopy, ih (i + 1) _ (by omega)]
    exact Mem.read_write_other _ _ (by omega)

namespace State

variable (s : State) (a : Word) (v : Byte)

/-- A write to the DMA register changes the DMA unit and memory. -/
theorem writeDma_same : ∃ d m, s.writeDma v = { s with dma := d, mem := m } := by
  unfold writeDma
  split
  · exact ⟨_, _, dmaCopy_sameButMem _ _ _ _⟩
  · exact ⟨_, _, rfl⟩

end State

/-- What a bus write can change: the fields that are reached through the bus. -/
def State.sameButBus (s t : State) : Prop :=
  t = { s with
        ie := t.ie, ifl := t.ifl, timer := t.timer, ppu := t.ppu, dma := t.dma, mem := t.mem, cart := t.cart, joy := t.joy
        ext := t.ext }

theorem State.cartWrite_same (s : State) (a : Word) (v : Byte) : s.sameButBus (s.cartWrite a v) := by
  unfold State.cartWrite State.sameButBus
  split
  · rfl
  · split <;> rfl
  · rfl

/-- A bus write leaves the CPU, the arguments and the host's part alone (rule R20). -/
theorem State.busWrite_same (s : State) (a : Word) (v : Byte) : s.sameButBus (s.busWrite a v) := by
  unfold State.busWrite
  cases targetOf a
  case cart => exact s.cartWrite_same a v
  case dma =>
    obtain ⟨d, m, h⟩ := s.writeDma_same v
    show s.sameButBus (s.writeDma v)
    rw [h]
    rfl
  case vram => cases s.vramBlocked <;> rfl
  case oam => cases s.oamBlocked <;> rfl
  all_goals rfl

namespace State

variable (s : State) (a : Word) (v : Byte)

@[simp] theorem busWrite_regs : (s.busWrite a v).regs = s.regs := by rw [s.busWrite_same a v]
@[simp] theorem busWrite_flags : (s.busWrite a v).flags = s.flags := by rw [s.busWrite_same a v]
@[simp] theorem busWrite_sp : (s.busWrite a v).sp = s.sp := by rw [s.busWrite_same a v]
@[simp] theorem busWrite_pc : (s.busWrite a v).pc = s.pc := by rw [s.busWrite_same a v]
@[simp] theorem busWrite_ime : (s.busWrite a v).ime = s.ime := by rw [s.busWrite_same a v]
@[simp] theorem busWrite_imeArm : (s.busWrite a v).imeArm = s.imeArm := by rw [s.busWrite_same a v]
@[simp] theorem busWrite_run : (s.busWrite a v).run = s.run := by rw [s.busWrite_same a v]
@[simp] theorem busWrite_haltBug : (s.busWrite a v).haltBug = s.haltBug := by rw [s.busWrite_same a v]
@[simp] theorem busWrite_par : (s.busWrite a v).par = s.par := by rw [s.busWrite_same a v]
@[simp] theorem busWrite_inputs : (s.busWrite a v).inputs = s.inputs := by rw [s.busWrite_same a v]
@[simp] theorem busWrite_wakes : (s.busWrite a v).wakes = s.wakes := by rw [s.busWrite_same a v]
@[simp] theorem busWrite_cycles : (s.busWrite a v).cycles = s.cycles := by rw [s.busWrite_same a v]
@[simp] theorem busWrite_totalCycles : (s.busWrite a v).totalCycles = s.totalCycles := by rw [s.busWrite_same a v]

end State

/-! Which addresses are which. -/

/-- A target that is one register at one address. -/
def Target.isRegister : Target → Bool
  | .cart | .vram | .wram | .echo | .oam | .unusable | .hram | .ext => false
  | .ie | .joyp | .div | .tima | .tma | .tac | .ifl | .lcdc | .stat | .scy | .scx | .ly | .lyc | .dma | .wy | .wx => true

/-- The address of such a register (rules R83 to R85); of no meaning for the other targets. -/
def Target.address : Target → Word
  | .ie => 0xFFFF#16
  | .joyp => 0xFF00#16
  | .div => 0xFF04#16
  | .tima => 0xFF05#16
  | .tma => 0xFF06#16
  | .tac => 0xFF07#16
  | .ifl => 0xFF0F#16
  | .lcdc => 0xFF40#16
  | .stat => 0xFF41#16
  | .scy => 0xFF42#16
  | .scx => 0xFF43#16
  | .ly => 0xFF44#16
  | .lyc => 0xFF45#16
  | .dma => 0xFF46#16
  | .wy => 0xFF4A#16
  | .wx => 0xFF4B#16
  | .cart | .vram | .wram | .echo | .oam | .unusable | .hram | .ext => 0

/-- The addresses of a target: a row of the table of rule R74, or one register's address (rules R83 to R86). -/
def Target.holds (t : Target) (a : Word) : Prop :=
  match t with
  | .cart => a.toNat < 0x8000 ∨ (0xA000 ≤ a.toNat ∧ a.toNat < 0xC000)
  | .vram => 0x8000 ≤ a.toNat ∧ a.toNat ≤ 0x9FFF
  | .wram => 0xC000 ≤ a.toNat ∧ a.toNat ≤ 0xDFFF
  | .echo => 0xE000 ≤ a.toNat ∧ a.toNat ≤ 0xFDFF
  | .oam => 0xFE00 ≤ a.toNat ∧ a.toNat ≤ 0xFE9F
  | .unusable => 0xFEA0 ≤ a.toNat ∧ a.toNat ≤ 0xFEFF
  | .hram => 0xFF80 ≤ a.toNat ∧ a.toNat < 0xFFFF
  | .ext => 0xFF00 ≤ a.toNat ∧ a.toNat ≤ 0xFF7F
  | r => a = r.address

theorem Target.holds_ite {p : Prop} [Decidable p] {t u : Target} {a : Word} (ht : p → t.holds a) (hu : ¬ p → u.holds a) :
    (if p then t else u).holds a := by
  split
  · exact ht ‹_›
  · exact hu ‹_›

/-- The I/O page: a register at its address, or the external port. -/
theorem ioTarget_holds {a : Word} (h : 0xFF00 ≤ a.toNat) (h' : a.toNat ≤ 0xFF7F) : (ioTarget a).holds a := by
  unfold ioTarget
  repeat' (apply Target.holds_ite <;> intro _)
  all_goals first | assumption | exact ⟨h, h'⟩

/-- What an address reaches holds it. -/
theorem targetOf_holds (a : Word) : (targetOf a).holds a := by
  have hlt := a.isLt
  unfold targetOf
  iterate 7
    apply Target.holds_ite <;> intro _
    · simp only [Target.holds]
      omega
  apply Target.holds_ite <;> intro _
  · exact ioTarget_holds (by omega) (by omega)
  apply Target.holds_ite <;> intro _
  · exact ⟨by omega, ‹_›⟩
  · exact BitVec.eq_of_toNat_eq (by simp [Target.address]; omega)

theorem holds_of_targetOf {a : Word} {t : Target} (h : targetOf a = t) : t.holds a := h ▸ targetOf_holds a

/-- The address of a register is determined by the register. -/
theorem targetOf_address {a : Word} {t : Target} (h : targetOf a = t) (hr : t.isRegister = true) : a = t.address := by
  have := holds_of_targetOf h
  cases t <;> first | exact this | exact absurd hr (by decide)

theorem targetOf_cart {a : Word} (h : targetOf a = .cart) :
    a.toNat < 0x8000 ∨ (0xA000 ≤ a.toNat ∧ a.toNat < 0xC000) := holds_of_targetOf h

theorem targetOf_hram {a : Word} (h : targetOf a = .hram) : 0xFF80 ≤ a.toNat ∧ a.toNat < 0xFFFF := holds_of_targetOf h

/-! The table read both ways, for each row. -/

theorem targetOf_vram {a : Word} : targetOf a = .vram ↔ 0x8000 ≤ a.toNat ∧ a.toNat ≤ 0x9FFF where
  mp := holds_of_targetOf (t := .vram)
  mpr h := by simp (disch := omega) only [targetOf, if_pos, if_neg]

theorem targetOf_oam {a : Word} : targetOf a = .oam ↔ 0xFE00 ≤ a.toNat ∧ a.toNat ≤ 0xFE9F where
  mp := holds_of_targetOf (t := .oam)
  mpr h := by simp (disch := omega) only [targetOf, if_pos, if_neg]

theorem targetOf_wram {a : Word} : targetOf a = .wram ↔ 0xC000 ≤ a.toNat ∧ a.toNat ≤ 0xDFFF where
  mp := holds_of_targetOf (t := .wram)
  mpr h := by simp (disch := omega) only [targetOf, if_pos, if_neg]

theorem targetOf_echo {a : Word} : targetOf a = .echo ↔ 0xE000 ≤ a.toNat ∧ a.toNat ≤ 0xFDFF where
  mp := holds_of_targetOf (t := .echo)
  mpr h := by simp (disch := omega) only [targetOf, if_pos, if_neg]

theorem targetOf_unusable {a : Word} : targetOf a = .unusable ↔ 0xFEA0 ≤ a.toNat ∧ a.toNat ≤ 0xFEFF where
  mp := holds_of_targetOf (t := .unusable)
  mpr h := by simp (disch := omega) only [targetOf, if_pos, if_neg]

theorem targetOf_cart_of {a : Word} (h : a.toNat ≤ 0x7FFF ∨ (0xA000 ≤ a.toNat ∧ a.toNat ≤ 0xBFFF)) : targetOf a = .cart := by
  rcases h with h | h <;> simp (disch := omega) only [targetOf, if_pos, if_neg]

theorem targetOf_hram_of {a : Word} (h : 0xFF80 ≤ a.toNat) (h' : a.toNat ≤ 0xFFFE) : targetOf a = .hram := by
  simp (disch := omega) only [targetOf, if_pos, if_neg]

/-- An I/O address that is no register's belongs to the external port (rules R85, R86). -/
theorem targetOf_ext_of {a : Word} (h : 0xFF00 < a.toNat) (h' : a.toNat ≤ 0xFF7F)
    (hr : ∀ t : Target, t.isRegister = true → a ≠ t.address) : targetOf a = .ext := by
  have hold := targetOf_holds a
  cases e : targetOf a <;> rw [e] at hold <;>
    first | rfl | exact absurd hold (hr _ rfl) | (simp only [Target.holds] at hold; omega)

/-- Outside the echo a storage address is the address itself. -/
theorem storageKey_self {a : Word} (h : a.toNat < 0xE000 ∨ 0xFE00 ≤ a.toNat) : storageKey a = a.toNat := if_neg (by omega)

theorem storageKey_of_cart {a : Word} (h : targetOf a = .cart) : storageKey a = a.toNat := by
  have := targetOf_cart h
  unfold storageKey
  rw [if_neg (by omega)]

/-- The bytes a store changes. -/
theorem State.busRead_mem_other (s : State) (k : Nat) (v : Byte) (b : Word)
    (h : targetOf b = .cart ∨ targetOf b = .vram ∨ targetOf b = .wram ∨ targetOf b = .echo ∨ targetOf b = .oam ∨
      targetOf b = .hram → storageKey b ≠ k) :
    { s with mem := s.mem.write k v }.busRead b = s.busRead b := by
  unfold State.busRead
  cases hb : targetOf b <;> simp only [hb, reduceCtorEq, or_true, forall_const, or_false] at h
  case cart =>
    rw [storageKey_of_cart hb] at h
    unfold State.cartRead
    cases s.cart
    · simp only; split
      · exact Mem.read_write_other _ _ h
      · rfl
    · exact Mem.read_write_other _ _ h
    · rfl
  case vram => exact congrArg (fun x => if s.vramBlocked then s.par.blockedValue else x) (Mem.read_write_other _ _ h)
  case oam => exact congrArg (fun x => if s.oamBlocked then s.par.blockedValue else x) (Mem.read_write_other _ _ h)
  case wram => exact Mem.read_write_other _ _ h
  case echo => exact Mem.read_write_other _ _ h
  case hram => exact Mem.read_write_other _ _ h
  all_goals rfl

namespace Ppu

variable (p : Ppu) (v : Byte)

@[simp] theorem writeLcdc_lcdc : (p.writeLcdc v).lcdc = v := by unfold writeLcdc; split <;> (try split) <;> rfl
@[simp] theorem writeLcdc_stat : (p.writeLcdc v).stat = p.stat := by unfold writeLcdc; split <;> (try split) <;> rfl
@[simp] theorem writeLcdc_scy : (p.writeLcdc v).scy = p.scy := by unfold writeLcdc; split <;> (try split) <;> rfl
@[simp] theorem writeLcdc_scx : (p.writeLcdc v).scx = p.scx := by unfold writeLcdc; split <;> (try split) <;> rfl
@[simp] theorem writeLcdc_lyc : (p.writeLcdc v).lyc = p.lyc := by unfold writeLcdc; split <;> (try split) <;> rfl
@[simp] theorem writeLcdc_wy : (p.writeLcdc v).wy = p.wy := by unfold writeLcdc; split <;> (try split) <;> rfl
@[simp] theorem writeLcdc_wx : (p.writeLcdc v).wx = p.wx := by unfold writeLcdc; split <;> (try split) <;> rfl
@[simp] theorem writeLcdc_fb : (p.writeLcdc v).fb = p.fb := by unfold writeLcdc; split <;> (try split) <;> rfl

end Ppu

theorem State.writeDma_read_other (s : State) (v : Byte) {k : Nat} (hk : k < 0xFE00 ∨ 0xFEA0 ≤ k) :
    (s.writeDma v).mem.read k = s.mem.read k := by
  unfold State.writeDma
  split
  · exact State.dmaCopy_read_other _ _ _ _ (by omega)
  · rfl

/-- A write to the DMA register is read back there, and is seen nowhere else but in OAM. -/
theorem State.writeDma_busRead (s : State) (v : Byte) (b : Word) (hd : targetOf b ≠ .dma) (ho : targetOf b ≠ .oam) :
    (s.writeDma v).busRead b = s.busRead b := by
  have hm := fun k hk => s.writeDma_read_other v (k := k) hk
  obtain ⟨d, m, h⟩ := s.writeDma_same v
  rw [h] at hm ⊢
  simp only at hm
  unfold State.busRead
  cases hb : targetOf b
  case cart =>
    have hc := targetOf_cart hb
    unfold State.cartRead
    cases s.cart
    · simp only; split
      · exact hm _ (by omega)
      · rfl
    · exact hm _ (by omega)
    · rfl
  case vram =>
    have hc := targetOf_vram.1 hb
    have e : storageKey b = b.toNat := if_neg (by omega)
    exact congrArg (fun x => if s.vramBlocked then s.par.blockedValue else x) (hm _ (by omega))
  case wram =>
    have hc := targetOf_wram.1 hb
    have e : storageKey b = b.toNat := if_neg (by omega)
    exact hm _ (by omega)
  case echo =>
    have hc := targetOf_echo.1 hb
    have e : storageKey b = b.toNat - 0x2000 := if_pos (by omega)
    exact hm _ (by omega)
  case hram =>
    have hc := targetOf_hram hb
    have e : storageKey b = b.toNat := if_neg (by omega)
    exact hm _ (by omega)
  case oam => exact absurd hb ho
  case dma => exact absurd hb hd
  all_goals rfl

/-- A bus write is seen at no address it does not reach (rule R105). -/
theorem State.busWrite_frame (s : State) (a : Word) (v : Byte) (b : Word) (h : ¬ s.reaches a b) :
    (s.busWrite a v).busRead b = s.busRead b := by
  unfold State.reaches at h
  simp only [not_or, not_and] at h
  obtain ⟨hkey, htma, hlcdc, hlyc, hdma, hcart, hext⟩ := h
  have hne : targetOf b = targetOf a → (targetOf a).isRegister = true → False := fun e hr =>
    hkey (by rw [targetOf_address rfl hr, targetOf_address e hr])
  have hstore : ∀ k, k = storageKey a → { s with mem := s.mem.write k v }.busRead b = s.busRead b := fun k hk =>
    s.busRead_mem_other k v b fun _ => by rw [hk]; exact fun e => hkey e.symm
  unfold State.busWrite
  cases ha : targetOf a <;> rw [ha] at hne <;> simp only
  case cart =>
    unfold State.cartWrite
    cases hc : s.cart
    · rfl
    · simp only; split
      · rfl
      · have := hstore _ (storageKey_of_cart ha).symm
        rw [hc] at this
        exact this
    · have hb : targetOf b ≠ .cart := fun hb => by
        exact hcart ha hb (by rw [hc]; nofun) (by rw [hc]; nofun)
      unfold State.busRead
      cases hb' : targetOf b
      case cart => exact absurd hb' hb
      all_goals rfl
  case vram => split; · rfl
               · exact hstore _ rfl
  case oam => split; · rfl
              · exact hstore _ rfl
  case wram => exact hstore _ rfl
  case echo => exact hstore _ rfl
  case hram => exact hstore _ rfl
  case dma =>
    refine s.writeDma_busRead v b (fun e => hne e rfl) (hdma ?_)
    exact targetOf_address ha rfl
  case ext =>
    cases he : s.ext
    · rw [extWrite, ← he]
    · unfold State.busRead
      cases hb : targetOf b
      case ext => exact absurd (by rw [he]; nofun) (hext ha hb)
      all_goals rfl
  case lcdc =>
    have haddr := targetOf_address ha rfl
    obtain ⟨h1, h2, h3, h4⟩ := hlcdc haddr
    unfold State.busRead
    cases hb : targetOf b <;> simp only [State.setPpu, Ppu.writeLcdc_scy, Ppu.writeLcdc_scx, Ppu.writeLcdc_lyc,
      Ppu.writeLcdc_wy, Ppu.writeLcdc_wx]
    case vram => exact absurd hb h3
    case oam => exact absurd hb h4
    case lcdc => exact absurd rfl (fun e => hne hb e)
    case stat => exact absurd (targetOf_address hb rfl) h1
    case ly => exact absurd (targetOf_address hb rfl) h2
    all_goals rfl
  case lyc =>
    have haddr := targetOf_address ha rfl
    unfold State.busRead
    cases hb : targetOf b
    case lyc => exact absurd rfl (fun e => hne hb e)
    case stat => exact absurd (targetOf_address hb rfl) (hlyc haddr)
    all_goals rfl
  case tma =>
    have haddr := targetOf_address ha rfl
    unfold State.busRead
    cases hb : targetOf b <;> simp only [State.setTimer]
    case tma => exact absurd rfl (fun e => hne hb e)
    case tima => exact absurd (targetOf_address hb rfl) (htma haddr)
    all_goals first | rfl | (unfold Timer.writeTma; split <;> rfl)
  all_goals
    unfold State.busRead
    cases hb : targetOf b
    all_goals first | rfl | exact absurd rfl (fun e => hne hb e)

end Sys2Proof.Machine
end

