-- ==== Sys2Proof/Laws/Decode.lean ====
section
/-! SUPPORT. The decoder: how many bytes it looks at, and which bytes are illegal. -/

namespace Sys2Proof

/-- The pair fields of rule R131 are parts of the field `y`. -/
theorem opField_pair : ∀ op : Byte, opField op 4 2 = opField op 3 3 / 2 ∧ opField op 3 1 = opField op 3 3 % 2 := by
  decide +kernel

theorem lt_eight {n : Nat} (h : n < 8) : n = 0 ∨ n = 1 ∨ n = 2 ∨ n = 3 ∨ n = 4 ∨ n = 5 ∨ n = 6 ∨ n = 7 := by omega

/-- A byte the instruction does not have is not looked at, and the first byte alone gives the length (rules R142, R143). -/
theorem decodeBytes_short (op b1 b2 : Byte) :
    (opLength op = 1 → decodeBytes op b1 b2 = decodeBytes op 0 0) ∧
    (opLength op = 2 → decodeBytes op b1 b2 = decodeBytes op b1 0) := by
  obtain ⟨hp, hq⟩ := opField_pair op
  have hy : opField op 3 3 < 8 := (op.extractLsb' 3 3).isLt
  have hz : opField op 0 3 < 8 := (op.extractLsb' 0 3).isLt
  unfold opLength decodeBytes
  split
  · unfold decodeX0
    simp only [hp, hq]
    generalize opField op 3 3 = y at *
    generalize opField op 0 3 = z at *
    rcases lt_eight hz with rfl | rfl | rfl | rfl | rfl | rfl | rfl | rfl <;>
      rcases lt_eight hy with rfl | rfl | rfl | rfl | rfl | rfl | rfl | rfl <;>
      constructor <;> intro h <;> first | rfl | cases h
  · exact ⟨fun _ => rfl, fun _ => rfl⟩
  · exact ⟨fun _ => rfl, fun _ => rfl⟩
  · unfold decodeX3
    simp only [hp, hq]
    generalize opField op 3 3 = y at *
    generalize opField op 0 3 = z at *
    rcases lt_eight hz with rfl | rfl | rfl | rfl | rfl | rfl | rfl | rfl <;>
      rcases lt_eight hy with rfl | rfl | rfl | rfl | rfl | rfl | rfl | rfl <;>
      constructor <;> intro h <;> first | rfl | cases h

/-- The decoder reads three bytes as `decode` reads a list of three. -/
theorem decodeBytes_of_decode {op b1 b2 : Byte} {i : Instr} {rest : List Byte} (h : decode [op, b1, b2] = .ok (i, rest)) :
    decodeBytes op b1 b2 = i := by
  obtain ⟨h1, h2⟩ := decodeBytes_short op b1 b2
  unfold decode at h
  simp only at h
  split at h
  · rw [h1 ‹_›]
    exact (Prod.mk.inj (Except.ok.inj h)).1
  · rw [h2 ‹_›]
    exact (Prod.mk.inj (Except.ok.inj h)).1
  · exact (Prod.mk.inj (Except.ok.inj h)).1

/-- The eleven illegal bytes (rule R140). -/
def illegalBytes : List Byte :=
  [0xD3#8, 0xDB#8, 0xDD#8, 0xE3#8, 0xE4#8, 0xEB#8, 0xEC#8, 0xED#8, 0xF4#8, 0xFC#8, 0xFD#8]

theorem illegalByte_zero : ∀ op : Byte,
    (decodeBytes op 0 0).illegalByte = (if op ∈ illegalBytes then some op else none) ∧
    (op ∈ illegalBytes → opLength op = 1) := by
  decide +kernel

/-- A first byte is illegal whatever follows it. -/
theorem illegalByte_of_mem {op : Byte} (b1 b2 : Byte) (h : op ∈ illegalBytes) :
    (decodeBytes op b1 b2).illegalByte = some op := by
  obtain ⟨h1, h2⟩ := illegalByte_zero op
  rw [(decodeBytes_short op b1 b2).1 (h2 h), h1, if_pos h]

end Sys2Proof
end

