-- ==== Sys2Proof/Laws/Frame.lean ====
section
/-! SUPPORT. The frames of Safety.lean for the shared operations. -/

namespace Sys2Proof.Machine.State

variable (s : State)

theorem onlyCpu_of {s t : State}
    (h : t = { s with regs := t.regs, flags := t.flags, sp := t.sp, pc := t.pc, cycles := t.cycles }) : s.onlyCpu t := by
  refine ⟨h, fun a => ?_⟩
  rw [h]
  rfl

theorem keepsRegs_setR (r : R8) (v : Byte) : s.keepsRegs (s.setR r v) [r] :=
  fun _ hr => s.getR_setR_other v (by simpa using hr)

theorem keepsRegs_of_regs {s t : State} (h : t.regs = s.regs) (l : List R8) : s.keepsRegs t l := fun r _ => by
  unfold getR
  rw [h]

theorem keepsRegs_setHl {s t : State} (v : Word) (h : t.regs = (s.setHl v).regs) : s.keepsRegs t [.h, .l] := fun r hr => by
  unfold getR
  rw [h]
  cases r <;> first | rfl | exact absurd (by simp) hr

theorem loaded_setR (rd : R8) (v : Byte) (k : Nat) : s.loaded ((s.setR rd v).cost k) rd v k :=
  ⟨s.getR_setR_same rd v, s.keepsRegs_setR rd v, rfl, rfl, rfl, rfl, rfl, fun _ => rfl⟩

/-- A state that reads as one after a bus write, and whose other parts are the old ones. -/
theorem storedAt_of {s t : State} {l : List Word} (u : State) (hu : s.storedAt u l) (h1 : t.ime = u.ime)
    (h2 : t.imeArm = u.imeArm) (h3 : t.run = u.run) (h4 : t.haltBug = u.haltBug) (h5 : t.par = u.par)
    (h6 : t.inputs = u.inputs) (h7 : t.wakes = u.wakes) (h8 : t.totalCycles = u.totalCycles)
    (hr : ∀ b, t.busRead b = u.busRead b) : s.storedAt t l := by
  obtain ⟨g1, g2, g3, g4, g5, g6, g7, g8, g9⟩ := hu
  exact ⟨h1.trans g1, h2.trans g2, h3.trans g3, h4.trans g4, h5.trans g5, h6.trans g6, h7.trans g7, h8.trans g8,
    fun b hb => (hr b).trans (g9 b hb)⟩

theorem storedAt_busWrite (a : Word) (v : Byte) : s.storedAt (s.busWrite a v) [a] := by
  refine ⟨by simp, by simp, by simp, by simp, by simp, by simp, by simp, by simp, fun b hb => ?_⟩
  exact s.busWrite_frame a v b (hb a (by simp))

/-- A bus write does not change what kind of device sits behind a port, so it reaches the same addresses afterwards. -/
theorem reaches_busWrite (a : Word) (v : Byte) (c b : Word) : (s.busWrite a v).reaches c b ↔ s.reaches c b := by
  have hc : ∀ k : Cart, (k = .flatRom ∨ k = .romRam) → ((s.busWrite a v).cart = k ↔ s.cart = k) := by
    intro k hk
    unfold busWrite
    cases targetOf a
    case cart =>
      unfold cartWrite
      cases h : s.cart
      · simp only [h]
      · simp only
        split
        · rw [h]
        · simp only
      · rcases hk with rfl | rfl <;> simp
    case dma => obtain ⟨d, m, h⟩ := s.writeDma_same v; simp only [h]
    case vram => cases s.vramBlocked <;> rfl
    case oam => cases s.oamBlocked <;> rfl
    all_goals rfl
  have he : (s.busWrite a v).ext = .null ↔ s.ext = .null := by
    unfold busWrite
    cases targetOf a
    case cart =>
      unfold cartWrite
      cases s.cart
      · rfl
      · simp only; split <;> rfl
      · rfl
    case dma => obtain ⟨d, m, h⟩ := s.writeDma_same v; simp only [h]
    case vram => cases s.vramBlocked <;> rfl
    case oam => cases s.oamBlocked <;> rfl
    case ext => cases h : s.ext <;> simp [extWrite]
    all_goals rfl
  unfold reaches
  simp only [ne_eq, hc _ (.inl rfl), hc _ (.inr rfl), he]

theorem storedAt_two (a a' : Word) (v v' : Byte) : s.storedAt ((s.busWrite a v).busWrite a' v') [a, a'] := by
  refine ⟨by simp, by simp, by simp, by simp, by simp, by simp, by simp, by simp, fun b hb => ?_⟩
  rw [busWrite_frame, busWrite_frame]
  · exact hb a (by simp)
  · rw [reaches_busWrite]
    exact hb a' (by simp)

theorem stores_of {i : Instr} {a : Word} {v : Byte} {k : Nat} (h : exec i s = .next ((s.busWrite a v).cost k)) :
    s.stores i a v k := by
  refine ⟨_, h, rfl, by simp, by simp, by simp, by simp, ?_⟩
  exact storedAt_of _ (s.storedAt_busWrite a v) rfl rfl rfl rfl rfl rfl rfl rfl fun _ => rfl

theorem modifiesHl_of {i : Instr} {r : Byte} {f : Flags} {P : Flags → Prop} {k : Nat}
    (h : exec i s = .next (((s.writeHl r).setFlags f).cost k)) (hP : P f) : s.modifiesHl i r P k := by
  refine ⟨_, h, rfl, hP, by simp [writeHl], by simp [writeHl], by simp [writeHl], ?_⟩
  exact storedAt_of _ (s.storedAt_busWrite s.hl r) rfl rfl rfl rfl rfl rfl rfl rfl fun _ => rfl

/-- The CPU's own fields, those of `t`, over the devices of `u`. -/
def withCpu (u t : State) : State :=
  { u with
    regs := t.regs, flags := t.flags, sp := t.sp, pc := t.pc, ime := t.ime, imeArm := t.imeArm, run := t.run
    haltBug := t.haltBug, cycles := t.cycles }

theorem dmaCopy_withCpu (b : Word) (t : State) (n i : Nat) (s : State) :
    dmaCopy b n i (s.withCpu t) = (dmaCopy b n i s).withCpu t := by
  induction n generalizing i s with
  | zero => rfl
  | succ n ih => exact ih (i + 1) (s.dmaCopyByte b i)

/-- A bus write does not look at the CPU. -/
theorem busWrite_withCpu (t : State) (a : Word) (v : Byte) : (s.withCpu t).busWrite a v = (s.busWrite a v).withCpu t := by
  unfold busWrite
  cases targetOf a
  case cart =>
    show (s.withCpu t).cartWrite a v = (s.cartWrite a v).withCpu t
    unfold cartWrite
    have e : (s.withCpu t).cart = s.cart := rfl
    rw [e]
    cases h : s.cart <;> simp only
    · split <;> rfl
    · rfl
  case vram =>
    show (if s.vramBlocked then _ else _) = State.withCpu (if s.vramBlocked then _ else _) t
    split <;> rfl
  case oam =>
    show (if s.oamBlocked then _ else _) = State.withCpu (if s.oamBlocked then _ else _) t
    split <;> rfl
  case dma =>
    show (s.withCpu t).writeDma v = (s.writeDma v).withCpu t
    unfold writeDma
    have e : (s.withCpu t).par = s.par := rfl
    rw [e]
    cases h : s.par.dmaPolicy <;> simp only
    · exact dmaCopy_withCpu _ t 160 0 { s with dma := { s.dma with reg := v } }
    · rfl
  all_goals rfl

/-- A bus write does not look at `sp`. -/
theorem busWrite_setSp (x a : Word) (v : Byte) : (s.setSp x).busWrite a v = (s.busWrite a v).setSp x := by
  have h := s.busWrite_withCpu (s.setSp x) a v
  rw [show s.withCpu (s.setSp x) = s.setSp x from rfl] at h
  rw [h, s.busWrite_same a v]
  rfl

/-- A bus write does not look at `run`. -/
theorem busWrite_wake (a : Word) (v : Byte) : s.wake.busWrite a v = (s.busWrite a v).wake := by
  have h := s.busWrite_withCpu s.wake a v
  rw [show s.withCpu s.wake = s.wake from rfl] at h
  rw [h, s.busWrite_same a v]
  rfl

/-- `Push16` is two bus writes and `sp - 2` (rule R12). -/
theorem push16_eq (v : Word) :
    s.push16 v =
      { (s.busWrite (s.sp - 1#16) (hiByte v)).busWrite (s.sp - 2#16) (loByte v) with sp := s.sp - 2#16 } := by
  have h : s.sp - 1#16 - 1#16 = s.sp - 2#16 := by rw [BitVec.sub_sub]; rfl
  unfold push16
  simp only [setSp_sp, busWrite_setSp, h]
  rfl

@[simp] theorem push16_regs (v : Word) : (s.push16 v).regs = s.regs := by simp [push16_eq]
@[simp] theorem push16_flags (v : Word) : (s.push16 v).flags = s.flags := by simp [push16_eq]
@[simp] theorem push16_pc (v : Word) : (s.push16 v).pc = s.pc := by simp [push16_eq]
@[simp] theorem push16_ime (v : Word) : (s.push16 v).ime = s.ime := by simp [push16_eq]
@[simp] theorem push16_imeArm (v : Word) : (s.push16 v).imeArm = s.imeArm := by simp [push16_eq]
@[simp] theorem push16_run (v : Word) : (s.push16 v).run = s.run := by simp [push16_eq]
@[simp] theorem push16_haltBug (v : Word) : (s.push16 v).haltBug = s.haltBug := by simp [push16_eq]
@[simp] theorem push16_par (v : Word) : (s.push16 v).par = s.par := by simp [push16_eq]
@[simp] theorem push16_inputs (v : Word) : (s.push16 v).inputs = s.inputs := by simp [push16_eq]
@[simp] theorem push16_wakes (v : Word) : (s.push16 v).wakes = s.wakes := by simp [push16_eq]
@[simp] theorem push16_cycles (v : Word) : (s.push16 v).cycles = s.cycles := by simp [push16_eq]
@[simp] theorem push16_totalCycles (v : Word) : (s.push16 v).totalCycles = s.totalCycles := by simp [push16_eq]
@[simp] theorem push16_sp (v : Word) : (s.push16 v).sp = s.sp - 2#16 := by rw [push16_eq]

end Sys2Proof.Machine.State
end

