-- ==== Sys2Proof/Laws/Exec.lean ====
section
/-! SUPPORT. What an instruction can do to the state: it always answers a next state, it reaches the devices through at most
two bus writes (STOP clears the divider), and the control fields move only where a rule says so. -/

namespace Sys2Proof.Machine

/-- Everything outside the CPU is as in `u`. -/
def State.sameDevices (u t : State) : Prop :=
  t = { u with
        regs := t.regs, flags := t.flags, sp := t.sp, pc := t.pc, ime := t.ime, imeArm := t.imeArm, run := t.run
        haltBug := t.haltBug, cycles := t.cycles }

/-- The ways an instruction reaches the devices. -/
inductive State.Wrote (s : State) : State → Prop
  | none : s.Wrote s
  | one (a : Word) (v : Byte) : s.Wrote (s.busWrite a v)
  | two (a : Word) (v : Byte) (a' : Word) (v' : Byte) : s.Wrote ((s.busWrite a v).busWrite a' v')
  | stop : s.Wrote (s.setTimer s.timer.writeDiv)

/-- The control fields after an instruction: `run`, IME, IME_ARM, the halt bug and the cycle count. -/
structure ExecControl (i : Instr) (s t : State) : Prop where
  run : t.run =
    (match i.illegalByte with
     | some op => .faulted op s.pc
     | none =>
       match i with
       | .stop _ => .stopped
       | .halt => if s.ime || !s.pending then .halted else s.run
       | _ => s.run)
  ime : t.ime = (if i = .di then false else if i = .reti then true else s.ime)
  imeArm : t.imeArm = (if i = .di ∨ i = .reti then false else if i = .ei then true else s.imeArm)
  haltBug : t.haltBug = (s.haltBug || (decide (i = .halt) && !(s.ime || !s.pending) && s.par.haltBug))
  cycles : i.illegalByte = none → t.cycles ∈ [4, 8, 12, 16, 20, 24]

/-- An instruction that writes no control field. -/
theorem ExecControl.plain {i : Instr} {s t : State} (hk : t.cycles ∈ [4, 8, 12, 16, 20, 24])
    (hi : i.illegalByte = none ∧ (∀ x, i ≠ .stop x) ∧ i ≠ .halt ∧ i ≠ .di ∧ i ≠ .reti ∧ i ≠ .ei) (h1 : t.run = s.run)
    (h2 : t.ime = s.ime) (h3 : t.imeArm = s.imeArm) (h4 : t.haltBug = s.haltBug) : ExecControl i s t := by
  obtain ⟨hi, hs, hh, hd, hr, he⟩ := hi
  refine ⟨?_, by simp [hd, hr, h2], by simp [hd, hr, he, h3], by simp [hh, h4], fun _ => hk⟩
  rw [hi, h1]
  cases i
  case stop x => exact absurd rfl (hs x)
  case halt => exact absurd rfl hh
  all_goals rfl

theorem exec_control (i : Instr) (s : State) : ∃ t, exec i s = .next t ∧ ExecControl i s t := by
  cases i
  case halt =>
    refine ⟨_, rfl, ?_⟩
    unfold State.halt
    by_cases h : (s.ime || !s.pending) = true
    · rw [if_pos h]
      constructor <;> simp [State.cost, Instr.illegalByte, h]
    · rw [if_neg h]
      by_cases hb : s.par.haltBug = true
      · rw [if_pos hb]
        constructor <;> simp [State.cost, Instr.illegalByte, h, hb]
      · rw [if_neg hb]
        constructor <;> simp [State.cost, Instr.illegalByte, h, hb]
  case stop => exact ⟨_, rfl, by constructor <;> simp [State.cost, State.stop, Instr.illegalByte]⟩
  case di => exact ⟨_, rfl, by constructor <;> simp [State.cost, State.disableInterrupts, Instr.illegalByte]⟩
  case ei => exact ⟨_, rfl, by constructor <;> simp [State.cost, State.armInterrupts, Instr.illegalByte]⟩
  case reti => exact ⟨_, rfl, by constructor <;> simp [State.cost, State.returnFromInterrupt, Instr.illegalByte]⟩
  case jpCcNn cc nn =>
    by_cases h : s.cond cc = true
    · exact ⟨_, if_pos h, .plain (by simp) (by simp [Instr.illegalByte]) rfl rfl rfl rfl⟩
    · exact ⟨_, if_neg h, .plain (by simp) (by simp [Instr.illegalByte]) rfl rfl rfl rfl⟩
  case jrCcE cc e =>
    by_cases h : s.cond cc = true
    · exact ⟨_, if_pos h, .plain (by simp) (by simp [Instr.illegalByte]) rfl rfl rfl rfl⟩
    · exact ⟨_, if_neg h, .plain (by simp) (by simp [Instr.illegalByte]) rfl rfl rfl rfl⟩
  case retCc cc =>
    by_cases h : s.cond cc = true
    · exact ⟨_, if_pos h, .plain (by simp) (by simp [Instr.illegalByte]) rfl rfl rfl rfl⟩
    · exact ⟨_, if_neg h, .plain (by simp) (by simp [Instr.illegalByte]) rfl rfl rfl rfl⟩
  case callCcNn cc nn =>
    by_cases h : s.cond cc = true
    · exact ⟨_, if_pos h, .plain (by simp) (by simp [Instr.illegalByte]) (by simp) (by simp) (by simp) (by simp)⟩
    · exact ⟨_, if_neg h, .plain (by simp) (by simp [Instr.illegalByte]) rfl rfl rfl rfl⟩
  case illegalD3 => exact ⟨_, rfl, by constructor <;> simp [State.raiseIllegal, Instr.illegalByte]⟩
  case illegalDB => exact ⟨_, rfl, by constructor <;> simp [State.raiseIllegal, Instr.illegalByte]⟩
  case illegalDD => exact ⟨_, rfl, by constructor <;> simp [State.raiseIllegal, Instr.illegalByte]⟩
  case illegalE3 => exact ⟨_, rfl, by constructor <;> simp [State.raiseIllegal, Instr.illegalByte]⟩
  case illegalE4 => exact ⟨_, rfl, by constructor <;> simp [State.raiseIllegal, Instr.illegalByte]⟩
  case illegalEB => exact ⟨_, rfl, by constructor <;> simp [State.raiseIllegal, Instr.illegalByte]⟩
  case illegalEC => exact ⟨_, rfl, by constructor <;> simp [State.raiseIllegal, Instr.illegalByte]⟩
  case illegalED => exact ⟨_, rfl, by constructor <;> simp [State.raiseIllegal, Instr.illegalByte]⟩
  case illegalF4 => exact ⟨_, rfl, by constructor <;> simp [State.raiseIllegal, Instr.illegalByte]⟩
  case illegalFC => exact ⟨_, rfl, by constructor <;> simp [State.raiseIllegal, Instr.illegalByte]⟩
  case illegalFD => exact ⟨_, rfl, by constructor <;> simp [State.raiseIllegal, Instr.illegalByte]⟩
  case ldRrNn p nn =>
    refine ⟨_, rfl, ?_⟩
    rw [s.setRP_eq p]
    exact .plain (by simp) (by simp [Instr.illegalByte]) rfl rfl rfl rfl
  case incRr p =>
    refine ⟨_, rfl, ?_⟩
    rw [s.setRP_eq p]
    exact .plain (by simp) (by simp [Instr.illegalByte]) rfl rfl rfl rfl
  case decRr p =>
    refine ⟨_, rfl, ?_⟩
    rw [s.setRP_eq p]
    exact .plain (by simp) (by simp [Instr.illegalByte]) rfl rfl rfl rfl
  case pop q =>
    refine ⟨_, rfl, ?_⟩
    rw [s.popSp.setRP2_eq q]
    exact .plain (by simp) (by simp [Instr.illegalByte]) rfl rfl rfl rfl
  all_goals
    refine ⟨_, rfl, .plain ?_ (by simp [Instr.illegalByte]) ?_ ?_ ?_ ?_⟩ <;>
      simp [State.writeHl, State.storeA, State.loadA, State.write16, State.rotateHl, State.rotateR, State.rotateA, State.setAlu]

/-- Every instruction answers a state that differs from the old one by the CPU's own fields and what it wrote on the bus. -/
theorem exec_wrote (i : Instr) (s : State) : ∃ t u, exec i s = .next t ∧ s.Wrote u ∧ u.sameDevices t := by
  cases i
  case stop x => exact ⟨_, _, rfl, .stop, rfl⟩
  case halt => exact ⟨_, _, rfl, .none, by unfold State.halt; split; rfl; split <;> rfl⟩
  case jpCcNn cc nn =>
    by_cases h : s.cond cc = true
    · exact ⟨_, _, if_pos h, .none, rfl⟩
    · exact ⟨_, _, if_neg h, .none, rfl⟩
  case jrCcE cc e =>
    by_cases h : s.cond cc = true
    · exact ⟨_, _, if_pos h, .none, rfl⟩
    · exact ⟨_, _, if_neg h, .none, rfl⟩
  case retCc cc =>
    by_cases h : s.cond cc = true
    · exact ⟨_, _, if_pos h, .none, rfl⟩
    · exact ⟨_, _, if_neg h, .none, rfl⟩
  case callCcNn cc nn =>
    by_cases h : s.cond cc = true
    · exact ⟨_, _, if_pos h, .two _ _ _ _, by rw [State.push16_eq]; rfl⟩
    · exact ⟨_, _, if_neg h, .none, rfl⟩
  case ldRrNn p nn => exact ⟨_, _, rfl, .none, by rw [s.setRP_eq p]; rfl⟩
  case incRr p => exact ⟨_, _, rfl, .none, by rw [s.setRP_eq p]; rfl⟩
  case decRr p => exact ⟨_, _, rfl, .none, by rw [s.setRP_eq p]; rfl⟩
  case pop q => exact ⟨_, _, rfl, .none, by rw [s.popSp.setRP2_eq q]; rfl⟩
  case ldNnSp nn => exact ⟨_, _, rfl, .two _ _ _ _, rfl⟩
  case push q => exact ⟨_, _, rfl, .two _ _ _ _, by rw [State.push16_eq]; rfl⟩
  case callNn nn => exact ⟨_, _, rfl, .two _ _ _ _, by rw [State.push16_eq]; rfl⟩
  case rst t => exact ⟨_, _, rfl, .two _ _ _ _, by rw [State.push16_eq]; rfl⟩
  case ldHlR => exact ⟨_, _, rfl, .one _ _, rfl⟩
  case ldHlN => exact ⟨_, _, rfl, .one _ _, rfl⟩
  case ldBcA => exact ⟨_, _, rfl, .one _ _, rfl⟩
  case ldDeA => exact ⟨_, _, rfl, .one _ _, rfl⟩
  case ldNnA => exact ⟨_, _, rfl, .one _ _, rfl⟩
  case ldhCA => exact ⟨_, _, rfl, .one _ _, rfl⟩
  case ldhNA => exact ⟨_, _, rfl, .one _ _, rfl⟩
  case ldHlDecA => exact ⟨_, _, rfl, .one _ _, rfl⟩
  case ldHlIncA => exact ⟨_, _, rfl, .one _ _, rfl⟩
  case incHl => exact ⟨_, _, rfl, .one _ _, rfl⟩
  case decHl => exact ⟨_, _, rfl, .one _ _, rfl⟩
  case rlcHl => exact ⟨_, _, rfl, .one _ _, rfl⟩
  case rrcHl => exact ⟨_, _, rfl, .one _ _, rfl⟩
  case rlHl => exact ⟨_, _, rfl, .one _ _, rfl⟩
  case rrHl => exact ⟨_, _, rfl, .one _ _, rfl⟩
  case slaHl => exact ⟨_, _, rfl, .one _ _, rfl⟩
  case sraHl => exact ⟨_, _, rfl, .one _ _, rfl⟩
  case swapHl => exact ⟨_, _, rfl, .one _ _, rfl⟩
  case srlHl => exact ⟨_, _, rfl, .one _ _, rfl⟩
  case resHl => exact ⟨_, _, rfl, .one _ _, rfl⟩
  case setHl => exact ⟨_, _, rfl, .one _ _, rfl⟩
  all_goals exact ⟨_, _, rfl, .none, rfl⟩

end Sys2Proof.Machine
end

