-- ==== Sys2Proof/Laws/Device.lean ====
section
/-! SUPPORT. The devices' advance: what a tick of the Timer, the PPU and the DMA unit touches, and that it keeps their part of
the invariant. -/

namespace Sys2Proof.Machine

/-! The Timer. -/

/-- A tick touches the Timer and IF. -/
theorem State.timerTick_same (s : State) : s.timerTick = { s with timer := s.timer.tick, ifl := s.timerTick.ifl } := by
  unfold State.timerTick
  simp only
  split <;> rfl

/-- The Timer's advance is its tick, `n` times. -/
theorem State.timerAdvance_eq_repeat (n : Nat) (s : State) : State.timerAdvance n s = Nat.repeat State.timerTick n s := by
  have comm : ∀ n s, Nat.repeat State.timerTick n s.timerTick = (Nat.repeat State.timerTick n s).timerTick := by
    intro n
    induction n with
    | zero => exact fun _ => rfl
    | succ n ih => exact fun s => congrArg State.timerTick (ih s)
  induction n generalizing s with
  | zero => rfl
  | succ n ih => rw [State.timerAdvance, ih, comm]; rfl

theorem State.timerAdvance_same (n : Nat) (s : State) :
    State.timerAdvance n s = { s with timer := (State.timerAdvance n s).timer, ifl := (State.timerAdvance n s).ifl } := by
  induction n generalizing s with
  | zero => rfl
  | succ n ih =>
    rw [State.timerAdvance, ih, s.timerTick_same]

/-- A selected bit falls exactly where the count below and with it rolls over to zero (rule R382). -/
theorem falls_iff (d : Word) (k : Nat) (hk : k ∈ [9, 3, 5, 7]) :
    (d.getLsbD k && !(d + 1#16).getLsbD k) = true ↔ (d.toNat + 1) % 2 ^ (k + 1) = 0 := by
  have h := d.isLt
  rw [Bool.and_eq_true, Bool.not_eq_true', BitVec.getLsbD, BitVec.getLsbD, BitVec.toNat_add, Nat.testBit_eq_decide_div_mod_eq,
    Nat.testBit_eq_decide_div_mod_eq, decide_eq_true_eq, decide_eq_false_iff_not]
  simp only [List.mem_cons, List.not_mem_nil, or_false] at hk
  rcases hk with rfl | rfl | rfl | rfl <;> simp <;> omega

theorem Timer.selectedBit_mem (t : Timer) : t.selectedBit ∈ [9, 3, 5, 7] := by
  unfold Timer.selectedBit
  split <;> simp

theorem Timer.edge_iff (t : Timer) :
    t.edge = true ↔ t.tac.getLsbD 2 = true ∧ (t.divctr.toNat + 1) % 2 ^ (t.selectedBit + 1) = 0 := by
  rw [← falls_iff t.divctr _ t.selectedBit_mem]
  simp [Timer.edge, and_assoc]

theorem Timer.wf_iff (t : Timer) : t.wf = true ↔ (t.reloadPending = true → t.tima = 0 ∧ t.divctr.toNat % 16 = 0) := by
  have : t.divctr.extractLsb' 0 4 = 0 ↔ t.divctr.toNat % 16 = 0 := by
    rw [← BitVec.toNat_inj]
    simp
  cases h : t.reloadPending
  · simp [Timer.wf, h]
  · simp [Timer.wf, h]
    exact fun _ => this

theorem Timer.wf_tick (t : Timer) : t.tick.wf = true := by
  rw [Timer.wf_iff]
  have hr : t.reload.reloadPending = false := by
    unfold Timer.reload
    split
    · rfl
    · rename_i h; simpa using h
  unfold Timer.tick Timer.count
  simp only
  split
  · rename_i h
    rw [Timer.edge_iff] at h
    have hd := h.2
    have hm := t.reload.selectedBit_mem
    unfold Timer.increment
    split
    · intro _
      refine ⟨rfl, ?_⟩
      simp only [BitVec.toNat_add]
      generalize t.reload.selectedBit = k at hm hd
      simp only [List.mem_cons, List.not_mem_nil, or_false] at hm
      rcases hm with rfl | rfl | rfl | rfl <;> simp at hd ⊢ <;> omega
    · intro h
      exact absurd h (by simp [hr])
  · intro h
    exact absurd h (by simp [hr])

theorem State.timer_wf_advance (n : Nat) (s : State) (h : s.timer.wf = true) : (State.timerAdvance n s).timer.wf = true := by
  induction n generalizing s with
  | zero => exact h
  | succ n ih =>
    rw [State.timerAdvance]
    refine ih _ ?_
    rw [s.timerTick_same]
    exact s.timer.wf_tick

/-! The PPU. -/

namespace State

variable (s : State)

/-- The parts of the PPU that rendering a line leaves alone. -/
theorem renderLine_same :
    s.renderLine = { s with ppu := { s.ppu with fb := s.renderLine.ppu.fb, winLine := s.renderLine.ppu.winLine } } := rfl

theorem statRequest_same (i : Nat) : s.statRequest i = { s with ifl := (s.statRequest i).ifl } := by
  unfold statRequest
  split <;> rfl

@[simp] theorem statRequest_ppu (i : Nat) : (s.statRequest i).ppu = s.ppu := by rw [statRequest_same]

/-- A tick touches the PPU and IF. -/
def sameButPpu (t : State) : Prop := t = { s with ppu := t.ppu, ifl := t.ifl }

theorem ppuDot_same : s.sameButPpu s.ppuDot := by
  unfold ppuDot
  simp only
  split
  · split
    · rfl
    · split
      · rw [statRequest_same]
        rfl
      · rfl
  · rfl

theorem ppuNewLine_same : s.sameButPpu s.ppuNewLine := by
  unfold ppuNewLine
  split
  · rw [statRequest_same]
    rfl
  · split
    · simp only
      rw [statRequest_same]
      split <;> rfl
    · rfl

theorem ppuCoincidence_same : s.ppuCoincidence = { s with ifl := s.ppuCoincidence.ifl } := by
  unfold ppuCoincidence
  split
  · rw [statRequest_same]
  · rfl

theorem ppuWindowLatch_same :
    s.ppuWindowLatch = { s with ppu := { s.ppu with winLatch := s.ppuWindowLatch.ppu.winLatch } } := by
  unfold ppuWindowLatch
  split <;> rfl

theorem ppuLineEnd_same : s.sameButPpu s.ppuLineEnd := by
  unfold ppuLineEnd
  split
  · simp only
    rw [ppuWindowLatch_same, ppuCoincidence_same, ppuNewLine_same]
    rfl
  · rfl

/-- A tick of the PPU touches the PPU and IF. -/
theorem ppuTick_same : s.sameButPpu s.ppuTick := by
  unfold ppuTick
  split
  · rw [ppuLineEnd_same, ppuDot_same]
    rfl
  · rfl

/-- The PPU's advance is its tick, `n` times. -/
theorem ppuAdvance_eq_repeat (n : Nat) (s : State) : ppuAdvance n s = Nat.repeat ppuTick n s := by
  have comm : ∀ n s, Nat.repeat ppuTick n s.ppuTick = (Nat.repeat ppuTick n s).ppuTick := by
    intro n
    induction n with
    | zero => exact fun _ => rfl
    | succ n ih => exact fun s => congrArg ppuTick (ih s)
  induction n generalizing s with
  | zero => rfl
  | succ n ih => rw [ppuAdvance, ih, comm]; rfl

theorem ppuAdvance_same (n : Nat) (s : State) : s.sameButPpu (ppuAdvance n s) := by
  induction n generalizing s with
  | zero => rfl
  | succ n ih =>
    rw [ppuAdvance, ih, ppuTick_same]
    rfl

end State

/-! One tick of the PPU, field by field. -/

/-- No register of the PPU differs but LY: what a tick leaves alone of the PPU. -/
def Ppu.sameRegs (q p : Ppu) : Prop :=
  q = { p with ly := q.ly, dot := q.dot, mode := q.mode, winLatch := q.winLatch, winLine := q.winLine, fb := q.fb }

theorem Ppu.sameRegs_trans {r q p : Ppu} (h : r.sameRegs q) (h' : q.sameRegs p) : r.sameRegs p := by
  unfold Ppu.sameRegs at *
  rw [h, h']

namespace State

variable (s : State)

/-- Rendering does not look at the dot. -/
theorem renderLine_dot (d : BitVec 9) :
    State.renderLine { s with ppu := { s.ppu with dot := d } } =
      { s.renderLine with ppu := { s.renderLine.ppu with dot := d } } := by
  have run : ∀ n x, State.pipeRun { s with ppu := { s.ppu with dot := d } } n x = s.pipeRun n x := by
    intro n
    induction n with
    | zero => exact fun _ => rfl
    | succ n ih =>
      intro x
      unfold pipeRun
      rw [ih]
      rfl
  have h : State.pipeEnd { s with ppu := { s.ppu with dot := d } } = s.pipeEnd := run _ _
  unfold renderLine
  rw [h]

theorem statRequest_ifl (i : Nat) :
    (s.statRequest i).ifl = if s.ppu.stat.getLsbD i = true then s.ifl ||| (1#5 <<< 1) else s.ifl := by
  unfold statRequest
  split <;> rfl

/-- What the dot increment leaves alone, and the dot. -/
structure DotFields (t : State) : Prop where
  dot : t.ppu.dot = s.ppu.dot + 1#9
  ly : t.ppu.ly = s.ppu.ly
  lcdc : t.ppu.lcdc = s.ppu.lcdc
  stat : t.ppu.stat = s.ppu.stat
  lyc : t.ppu.lyc = s.ppu.lyc
  wy : t.ppu.wy = s.ppu.wy
  winLatch : t.ppu.winLatch = s.ppu.winLatch
  mode : t.ppu.mode =
    if s.ppu.ly.toNat < 144 ∧ s.ppu.dot + 1#9 = 80#9 then .pixelTransfer
    else if s.ppu.ly.toNat < 144 ∧ s.ppu.dot + 1#9 = 252#9 then .hblank
    else s.ppu.mode
  ifl : t.ifl =
    if (s.ppu.ly.toNat < 144 ∧ s.ppu.dot + 1#9 = 252#9) ∧ s.ppu.stat.getLsbD 0 = true then s.ifl ||| (1#5 <<< 1) else s.ifl
  fb : t.ppu.fb = if s.ppu.ly.toNat < 144 ∧ s.ppu.dot + 1#9 = 252#9 then s.renderLine.ppu.fb else s.ppu.fb
  winLine : t.ppu.winLine =
    if s.ppu.ly.toNat < 144 ∧ s.ppu.dot + 1#9 = 252#9 then s.renderLine.ppu.winLine else s.ppu.winLine
  same : t.ppu.sameRegs s.ppu

theorem ppuDot_fields : s.DotFields s.ppuDot := by
  unfold ppuDot
  simp only
  by_cases h1 : s.ppu.ly.toNat < 144
  · rw [if_pos h1]
    by_cases h2 : s.ppu.dot + 1#9 = 80#9
    · rw [if_pos h2]
      have h3 : s.ppu.dot + 1#9 ≠ 252#9 := by rw [h2]; decide
      exact ⟨rfl, rfl, rfl, rfl, rfl, rfl, rfl, (if_pos ⟨h1, h2⟩).symm, (if_neg fun h => h3 h.1.2).symm,
        (if_neg fun h => h3 h.2).symm, (if_neg fun h => h3 h.2).symm, rfl⟩
    · rw [if_neg h2]
      by_cases h3 : s.ppu.dot + 1#9 = 252#9
      · rw [if_pos h3]
        have e := fun u : State => u.statRequest_ppu 0
        constructor
        case ifl =>
          rw [statRequest_ifl]
          simp only [h1, h3, true_and]
          rfl
        case fb =>
          rw [e, if_pos ⟨h1, h3⟩, renderLine_dot]
          rfl
        case winLine =>
          rw [e, if_pos ⟨h1, h3⟩, renderLine_dot]
          rfl
        case mode =>
          rw [e, if_neg fun h => h2 h.2, if_pos ⟨h1, h3⟩]
          rfl
        all_goals
          rw [e]
          rfl
      · rw [if_neg h3]
        exact ⟨rfl, rfl, rfl, rfl, rfl, rfl, rfl, by rw [if_neg fun h => h2 h.2, if_neg fun h => h3 h.2],
          (if_neg fun h => h3 h.1.2).symm, (if_neg fun h => h3 h.2).symm, (if_neg fun h => h3 h.2).symm, rfl⟩
  · rw [if_neg h1]
    exact ⟨rfl, rfl, rfl, rfl, rfl, rfl, rfl, by rw [if_neg fun h => h1 h.1, if_neg fun h => h1 h.1],
      (if_neg fun h => h1 h.1.1).symm, (if_neg fun h => h1 h.1).symm, (if_neg fun h => h1 h.1).symm, rfl⟩

/-- The line after line `ly` (rule R404). -/
def nextLine (ly : Byte) : Byte := if ly = 153#8 then 0#8 else ly + 1#8

/-- The requests of a new line: VBlank, then STAT by the mode entered, then STAT by the coincidence. -/
def lineRequests (p : Ppu) (ly : Byte) (f : BitVec 5) : BitVec 5 :=
  let f := if ly = 144#8 then f ||| (1#5 <<< 0) else f
  let f := if ly = 144#8 ∧ p.stat.getLsbD 1 = true then f ||| (1#5 <<< 1) else f
  let f := if ly.toNat < 144 ∧ p.stat.getLsbD 2 = true then f ||| (1#5 <<< 1) else f
  if ly = p.lyc ∧ p.stat.getLsbD 3 = true then f ||| (1#5 <<< 1) else f

/-- The end of a line: the new line `n`, its mode, its requests, and the window. -/
structure LineFields (n : Byte) (t : State) : Prop where
  dot : t.ppu.dot = 0#9
  ly : t.ppu.ly = n
  lcdc : t.ppu.lcdc = s.ppu.lcdc
  mode : t.ppu.mode = if n = 144#8 then .vblank else if n.toNat < 144 then .oamScan else s.ppu.mode
  ifl : t.ifl = lineRequests s.ppu n s.ifl
  winLatch : t.ppu.winLatch = ((s.ppu.winLatch && decide (n ≠ 0#8)) || decide (n = s.ppu.wy))
  winLine : t.ppu.winLine = if n = 0#8 then 0#8 else s.ppu.winLine
  fb : t.ppu.fb = s.ppu.fb
  same : t.ppu.sameRegs s.ppu

/-- The mode events of a new line. -/
structure NewLineFields (t : State) : Prop where
  same : t.ppu = { s.ppu with mode := t.ppu.mode, winLatch := t.ppu.winLatch, winLine := t.ppu.winLine }
  mode : t.ppu.mode = if s.ppu.ly = 144#8 then .vblank else if s.ppu.ly.toNat < 144 then .oamScan else s.ppu.mode
  ifl : t.ifl =
    let f := if s.ppu.ly = 144#8 then s.ifl ||| (1#5 <<< 0) else s.ifl
    let f := if s.ppu.ly = 144#8 ∧ s.ppu.stat.getLsbD 1 = true then f ||| (1#5 <<< 1) else f
    if s.ppu.ly.toNat < 144 ∧ s.ppu.stat.getLsbD 2 = true then f ||| (1#5 <<< 1) else f
  winLatch : t.ppu.winLatch = (s.ppu.winLatch && decide (s.ppu.ly ≠ 0#8))
  winLine : t.ppu.winLine = if s.ppu.ly = 0#8 then 0#8 else s.ppu.winLine

theorem ppuNewLine_fields : s.NewLineFields s.ppuNewLine := by
  unfold ppuNewLine
  by_cases h1 : s.ppu.ly = 144#8
  · have h2 : ¬ s.ppu.ly.toNat < 144 := by rw [h1]; decide
    have h3 : s.ppu.ly ≠ 0#8 := by rw [h1]; decide
    rw [if_pos h1]
    constructor <;> (try rw [statRequest_ppu]) <;> (try rw [statRequest_ifl]) <;> simp [h1, request, setMode]
  · rw [if_neg h1]
    by_cases h2 : s.ppu.ly.toNat < 144
    · rw [if_pos h2]
      by_cases h3 : s.ppu.ly = 0#8
      · simp only [if_pos h3]
        constructor <;> (try rw [statRequest_ppu]) <;> (try rw [statRequest_ifl]) <;> simp [h3, setMode]
      · simp only [if_neg h3]
        constructor <;> (try rw [statRequest_ppu]) <;> (try rw [statRequest_ifl]) <;> simp [h1, h2, h3, setMode]
    · rw [if_neg h2]
      have h3 : s.ppu.ly ≠ 0#8 := by
        intro e
        rw [e] at h2
        exact h2 (by decide)
      constructor <;> simp [h1, h2, h3]

theorem ppuLineEnd_fields (h : s.ppu.dot = 456#9) : s.LineFields (nextLine s.ppu.ly) s.ppuLineEnd := by
  unfold ppuLineEnd
  rw [if_pos h]
  show s.LineFields (nextLine s.ppu.ly)
    (State.ppuNewLine { s with ppu := { s.ppu with dot := 0, ly := nextLine s.ppu.ly } }).ppuCoincidence.ppuWindowLatch
  generalize nextLine s.ppu.ly = n
  obtain ⟨h1, h2, h3, h4, h5⟩ := ppuNewLine_fields { s with ppu := { s.ppu with dot := 0, ly := n } }
  generalize State.ppuNewLine { s with ppu := { s.ppu with dot := 0, ly := n } } = u at *
  simp only at h1 h2 h3 h4 h5
  have hc : u.ppuCoincidence.ppu = u.ppu := by rw [ppuCoincidence_same]
  have hi : u.ppuCoincidence.ifl = if n = s.ppu.lyc ∧ s.ppu.stat.getLsbD 3 = true then u.ifl ||| (1#5 <<< 1) else u.ifl := by
    unfold ppuCoincidence
    rw [h1]
    by_cases hl : n = s.ppu.lyc
    · simp only [hl, if_true, statRequest_ifl, true_and]
      rw [h1]
    · simp [hl]
  generalize u.ppuCoincidence = w at *
  have hw : w.ppuWindowLatch.ppu.winLatch = (w.ppu.winLatch || decide (n = s.ppu.wy)) := by
    unfold ppuWindowLatch
    rw [hc, h1]
    by_cases hl : n = s.ppu.wy <;> simp [hl, hc]
  have hif : w.ppuWindowLatch.ifl = w.ifl := by rw [ppuWindowLatch_same]
  have hp : w.ppuWindowLatch.ppu = { w.ppu with winLatch := w.ppuWindowLatch.ppu.winLatch } := by rw [ppuWindowLatch_same]
  generalize w.ppuWindowLatch = z at *
  constructor
  case ifl => rw [hif, hi, h3]; rfl
  case winLatch => rw [hw, hc, h4]
  all_goals rw [hp, hc]
  case mode => exact h2
  case winLine => exact h5
  case same =>
    rw [h1]
    rfl
  case dot =>
    rw [h1]
    rfl
  all_goals rw [h1]

/-- The frame of rule R404 on numbers. -/
theorem ppu_wf_on (p : Ppu) (h : p.lcdOn = true) :
    p.wf = true ↔ p.dot.toNat < 456 ∧ p.ly.toNat < 154 ∧ p.mode = modeAt p.ly.toNat p.dot.toNat := by
  unfold Ppu.wf
  simp [h, and_assoc]

theorem nextLine_toNat (ly : Byte) (h : ly.toNat < 154) :
    (nextLine ly).toNat = if ly.toNat = 153 then 0 else ly.toNat + 1 := by
  unfold nextLine
  by_cases h' : ly.toNat = 153
  · rw [if_pos (BitVec.eq_of_toNat_eq h'), if_pos h']
    rfl
  · have e : ly ≠ 153#8 := fun e => h' (by rw [e]; rfl)
    rw [if_neg e, if_neg h', BitVec.toNat_add]
    exact Nat.mod_eq_of_lt (by simp; omega)

/-- A tick with the LCD on that does not end the line. -/
theorem ppuTick_dot (h : s.ppu.lcdOn = true) (hd : s.ppu.dot.toNat < 455) : s.ppuTick = s.ppuDot := by
  unfold ppuTick
  rw [if_pos h]
  unfold ppuLineEnd
  rw [if_neg]
  rw [s.ppuDot_fields.dot]
  intro e
  have := congrArg BitVec.toNat e
  simp at this
  omega

/-- A tick with the LCD on that ends the line: the dot events of the last dot are none. -/
theorem ppuTick_line (h : s.ppu.lcdOn = true) (hd : s.ppu.dot.toNat = 455) :
    ∃ u, s.ppuTick = u.ppuLineEnd ∧ u = { s with ppu := { s.ppu with dot := 456#9 } } := by
  have e : s.ppu.dot + 1#9 = 456#9 := BitVec.eq_of_toNat_eq (by simp [hd])
  refine ⟨s.ppuDot, by unfold ppuTick; rw [if_pos h], ?_⟩
  unfold ppuDot
  simp only [e]
  split
  · rw [if_neg (by decide), if_neg (by decide)]
  · rfl

/-- A tick keeps the registers a program writes. -/
theorem ppuTick_sameRegs : s.ppuTick.ppu.sameRegs s.ppu := by
  unfold ppuTick
  split
  · by_cases h : s.ppuDot.ppu.dot = 456#9
    · exact Ppu.sameRegs_trans (s.ppuDot.ppuLineEnd_fields h).same s.ppuDot_fields.same
    · rw [ppuLineEnd, if_neg h]
      exact s.ppuDot_fields.same
  · rfl

/-- So does the advance. -/
theorem ppuAdvance_sameRegs (n : Nat) (s : State) : (ppuAdvance n s).ppu.sameRegs s.ppu := by
  induction n generalizing s with
  | zero => rfl
  | succ n ih => exact Ppu.sameRegs_trans (ih _) s.ppuTick_sameRegs

/-- The timeline of rule R404, one tick. -/
theorem ppuTick_timeline (h : s.ppu.lcdOn = true) (hwf : s.ppu.wf = true) :
    s.ppuTick.ppu.lcdc = s.ppu.lcdc ∧ s.ppuTick.ppu.wf = true ∧
    s.ppuTick.ppu.ly.toNat * 456 + s.ppuTick.ppu.dot.toNat = (s.ppu.ly.toNat * 456 + s.ppu.dot.toNat + 1) % 70224 := by
  obtain ⟨h1, h2, h3⟩ := (ppu_wf_on _ h).1 hwf
  have on : ∀ p : Ppu, p.lcdc = s.ppu.lcdc → p.lcdOn = true := fun p e => by
    unfold Ppu.lcdOn at *
    rw [e, h]
  by_cases hd : s.ppu.dot.toNat = 455
  · obtain ⟨u, hu, hs⟩ := s.ppuTick_line h hd
    have f := u.ppuLineEnd_fields (by rw [hs])
    rw [hu]
    have hl : u.ppu.ly = s.ppu.ly := by rw [hs]
    have hc : u.ppuLineEnd.ppu.lcdc = s.ppu.lcdc := by rw [f.lcdc, hs]
    have hm : u.ppu.mode = s.ppu.mode := by rw [hs]
    have hn := nextLine_toNat _ h2
    refine ⟨hc, (ppu_wf_on _ (on _ hc)).2 ?_, ?_⟩
    · rw [f.dot, f.ly, f.mode, hl, hm]
      have e144 : nextLine s.ppu.ly = 144#8 ↔ (nextLine s.ppu.ly).toNat = 144 := by
        rw [← BitVec.toNat_inj]
        rfl
      refine ⟨by simp, by rw [hn]; split <;> omega, ?_⟩
      simp only [e144]
      rw [hn, h3]
      unfold modeAt
      split <;> simp
      all_goals repeat' split
      all_goals first | rfl | omega
    · rw [f.dot, f.ly, hl, hn, hd]
      simp
      split <;> omega
  · rw [s.ppuTick_dot h (by omega)]
    have f := s.ppuDot_fields
    have hdn : (s.ppu.dot + 1#9).toNat = s.ppu.dot.toNat + 1 := by
      rw [BitVec.toNat_add]
      exact Nat.mod_eq_of_lt (by simp; omega)
    refine ⟨f.lcdc, (ppu_wf_on _ (on _ f.lcdc)).2 ?_, ?_⟩
    · rw [f.dot, f.ly, f.mode, hdn, h3]
      refine ⟨by omega, h2, ?_⟩
      have e80 : s.ppu.dot + 1#9 = 80#9 ↔ s.ppu.dot.toNat + 1 = 80 := by
        rw [← BitVec.toNat_inj, hdn]
        rfl
      have e252 : s.ppu.dot + 1#9 = 252#9 ↔ s.ppu.dot.toNat + 1 = 252 := by
        rw [← BitVec.toNat_inj, hdn]
        rfl
      simp only [e80, e252]
      unfold modeAt
      repeat' split
      all_goals first | rfl | omega
    · rw [f.dot, f.ly, hdn]
      omega

/-- The timeline of rule R404, `n` ticks. -/
theorem ppuAdvance_timeline (n : Nat) (s : State) (h : s.ppu.lcdOn = true) (hwf : s.ppu.wf = true) :
    (ppuAdvance n s).ppu.lcdc = s.ppu.lcdc ∧ (ppuAdvance n s).ppu.wf = true ∧
    (ppuAdvance n s).ppu.ly.toNat * 456 + (ppuAdvance n s).ppu.dot.toNat =
      (s.ppu.ly.toNat * 456 + s.ppu.dot.toNat + n) % 70224 := by
  induction n generalizing s with
  | zero =>
    obtain ⟨h1, h2, -⟩ := (ppu_wf_on _ h).1 hwf
    refine ⟨rfl, hwf, ?_⟩
    show s.ppu.ly.toNat * 456 + s.ppu.dot.toNat = _
    omega
  | succ n ih =>
    obtain ⟨h1, h2, h3⟩ := s.ppuTick_timeline h hwf
    have hon : s.ppuTick.ppu.lcdOn = true := by
      unfold Ppu.lcdOn at *
      rw [h1, h]
    obtain ⟨g1, g2, g3⟩ := ih s.ppuTick hon h2
    refine ⟨g1.trans h1, g2, ?_⟩
    rw [ppuAdvance, g3, h3]
    omega

/-- With the LCD off nothing moves (rule R401). -/
theorem ppuAdvance_off (n : Nat) (s : State) (h : s.ppu.lcdOn = false) : ppuAdvance n s = s := by
  induction n with
  | zero => rfl
  | succ n ih =>
    have : s.ppuTick = s := by
      unfold ppuTick
      rw [if_neg (by simp [h])]
    rw [ppuAdvance, this, ih]

theorem ppu_wf_advance (n : Nat) (s : State) (h : s.ppu.wf = true) : (ppuAdvance n s).ppu.wf = true := by
  cases hon : s.ppu.lcdOn
  · rw [ppuAdvance_off n s hon]
    exact h
  · exact (ppuAdvance_timeline n s hon h).2.1

end State

/-! The DMA unit. -/

namespace State

variable (s : State)

/-- Memory in canonical form, every listed address with storage. -/
def memOk (s : State) : Prop := s.mem.wf = true ∧ s.mem.placed = true

theorem memOk_write {s t : State} (k : Nat) (v : Byte) (h : s.memOk) (hk : isStorage k = true)
    (ht : t.mem = s.mem.write k v) : t.memOk := by
  unfold memOk
  rw [ht]
  exact ⟨Mem.wf_write k v h.1, Mem.placed_write v h.2 hk⟩

theorem isStorage_oam {i : Nat} (h : i < 160) : isStorage (0xFE00 + i) = true := by
  simp [isStorage]
  omega

theorem isStorage_key {a : Word} (h : a.toNat < 0xFEA0 ∨ (0xFF80 ≤ a.toNat ∧ a.toNat < 0xFFFF)) :
    isStorage (storageKey a) = true := by
  unfold storageKey
  split <;> simp only [isStorage, Bool.or_eq_true, Bool.and_eq_true, decide_eq_true_eq] <;> omega

theorem dmaCopy_memOk (b : Word) (n i : Nat) (s : State) (h : s.memOk) (hi : i + n ≤ 160) : (dmaCopy b n i s).memOk := by
  induction n generalizing i s with
  | zero => exact h
  | succ n ih => exact ih (i + 1) _ (memOk_write _ _ h (isStorage_oam (by omega)) rfl) (by omega)

/-- The DMA unit's advance is its tick, `n` times. -/
theorem dmaAdvance_eq_repeat (n : Nat) (s : State) : dmaAdvance n s = Nat.repeat dmaTick n s := by
  have comm : ∀ n s, Nat.repeat dmaTick n s.dmaTick = (Nat.repeat dmaTick n s).dmaTick := by
    intro n
    induction n with
    | zero => exact fun _ => rfl
    | succ n ih => exact fun s => congrArg dmaTick (ih s)
  induction n generalizing s with
  | zero => rfl
  | succ n ih => rw [dmaAdvance, ih, comm]; rfl

/-- A tick of the DMA unit touches the DMA unit and memory. -/
theorem dmaTick_same : s.dmaTick = { s with dma := s.dmaTick.dma, mem := s.dmaTick.mem } := by
  unfold dmaTick
  split
  · rfl
  · split
    · rfl
    · split
      · split <;> rfl
      · rfl

theorem dmaAdvance_same (n : Nat) (s : State) :
    dmaAdvance n s = { s with dma := (dmaAdvance n s).dma, mem := (dmaAdvance n s).mem } := by
  induction n generalizing s with
  | zero => rfl
  | succ n ih => rw [dmaAdvance, ih, dmaTick_same]

/-- The DMA unit's part of the invariant under Gradual, as a proposition. -/
theorem dma_wf_gradual (d : Dma) :
    d.wf .gradual = true ↔
      d.idx ≤ 160 ∧ d.sub < 4 ∧ (d.active = true → d.delay = 0 ∧ d.idx < 160) ∧ (d.delay ≠ 0 → d.idx = 0 ∧ d.sub = 0) := by
  cases h : d.active <;> simp [Dma.wf, h, and_assoc, or_iff_not_imp_left]

theorem dmaAdvance_succ (n : Nat) (s : State) : dmaAdvance (n + 1) s = (dmaAdvance n s).dmaTick := by
  induction n generalizing s with
  | zero => rfl
  | succ n ih =>
    rw [dmaAdvance, ih]
    rfl

/-- A transfer never reads what it writes (rule R94): a source byte is not in OAM. -/
theorem dmaSrcRead_of_read {s t : State} (hc : t.cart = s.cart) (hp : t.par = s.par)
    (hm : ∀ k, k < 0xFE00 ∨ 0xFEA0 ≤ k → t.mem.read k = s.mem.read k) (a : Word) : t.dmaSrcRead a = s.dmaSrcRead a := by
  have ha := a.isLt
  unfold dmaSrcRead cartRead
  rw [hc, hp]
  split
  · split
    · exact hm _ (by omega)
    · exact hm _ (by omega)
    · rfl
  · split
    · exact hm _ (by omega)
    · split
      · split
        · rfl
        · exact hm _ (by omega)
        · rfl
      · exact hm _ (by omega)

/-- The bytes a transfer leaves in OAM (rule R93). -/
theorem dmaCopy_read (b : Word) (n i : Nat) (s : State) (hw : s.mem.wf = true) {j : Nat} (hj : i ≤ j) (hj' : j < i + n)
    (hn : i + n ≤ 160) : (dmaCopy b n i s).mem.read (0xFE00 + j) = s.dmaSrcRead (b + BitVec.ofNat 16 j) := by
  induction n generalizing i s with
  | zero => omega
  | succ n ih =>
    rw [dmaCopy]
    by_cases e : j = i
    · subst e
      rw [dmaCopy_read_other _ _ _ _ (by omega)]
      exact Mem.read_write_eq _ _ hw
    · rw [ih (i + 1) _ (Mem.wf_write _ _ hw) (by omega) (by omega) (by omega)]
      refine dmaSrcRead_of_read (s := s) (t := s.dmaCopyByte b i) rfl rfl (fun k hk => ?_) _
      exact Mem.read_write_other _ _ (by omega)

/-- A tick keeps the DMA unit's counters in range and memory canonical. -/
theorem dmaTick_keeps (h : s.dma.wf s.par.dmaPolicy = true) (hm : s.memOk) :
    s.dmaTick.dma.wf s.par.dmaPolicy = true ∧ s.dmaTick.memOk := by
  unfold dmaTick
  cases hp : s.par.dmaPolicy <;> rw [hp] at h <;> simp only
  · exact ⟨h, hm⟩
  · rw [dma_wf_gradual] at h
    obtain ⟨h1, h2, h3, h4⟩ := h
    split
    · rename_i hd
      obtain ⟨h5, h6⟩ := h4 (by omega)
      refine ⟨(dma_wf_gradual _).2 ⟨h1, h2, fun ha => ?_, fun _ => ⟨h5, h6⟩⟩, hm⟩
      simp only [Bool.or_eq_true, decide_eq_true_eq] at ha
      rcases ha with ha | ha
      · have := (h3 ha).1
        omega
      · exact ⟨by simp only; omega, by simp only; omega⟩
    · rename_i hd
      split
      · rename_i ha
        have h5 := (h3 ha).2
        split
        · refine ⟨(dma_wf_gradual _).2 ⟨by simp only; omega, by simp, fun hb => ?_, fun hb => absurd hb (by simp only; omega)⟩,
            memOk_write _ _ hm (isStorage_oam h5) rfl⟩
          simp only [decide_eq_true_eq] at hb
          exact ⟨by simp only; omega, by simp only; omega⟩
        · exact ⟨(dma_wf_gradual _).2 ⟨h1, by simp only; omega, h3, fun hb => absurd hb (by simp only; omega)⟩, hm⟩
      · exact ⟨(dma_wf_gradual _).2 ⟨h1, h2, h3, h4⟩, hm⟩

theorem dmaAdvance_keeps (n : Nat) (s : State) (h : s.dma.wf s.par.dmaPolicy = true) (hm : s.memOk) :
    (dmaAdvance n s).dma.wf s.par.dmaPolicy = true ∧ (dmaAdvance n s).memOk := by
  induction n generalizing s with
  | zero => exact ⟨h, hm⟩
  | succ n ih =>
    have hp : s.dmaTick.par = s.par := by rw [dmaTick_same]
    obtain ⟨h1, h2⟩ := s.dmaTick_keeps h hm
    rw [← hp] at h1 ⊢
    exact ih _ h1 h2

/-! A bus write keeps the devices' part of the invariant. -/

/-- The devices' part of the invariant. -/
def devicesOk (s : State) : Prop :=
  s.memOk ∧ s.ppu.wf = true ∧ s.timer.wf = true ∧ s.dma.wf s.par.dmaPolicy = true

theorem writeLcdc_wf (p : Ppu) (v : Byte) (h : p.wf = true) : (p.writeLcdc v).wf = true := by
  unfold Ppu.writeLcdc
  cases h1 : p.lcdOn <;> cases h2 : v.getLsbD 7 <;> simp only [Bool.not_false, Bool.not_true, Bool.and_true, Bool.and_false,
    Bool.false_eq_true, if_true, if_false]
  all_goals unfold Ppu.wf at h ⊢; unfold Ppu.lcdOn at h h1 ⊢
  all_goals simp only [h1, h2, Bool.false_eq_true, if_true, if_false] at h ⊢
  · exact h
  · rfl
  · rfl
  · exact h

theorem writeDma_ok (v : Byte) (h : s.devicesOk) : (s.writeDma v).devicesOk := by
  obtain ⟨hm, hp, ht, hd⟩ := h
  unfold writeDma
  cases hpol : s.par.dmaPolicy <;> rw [hpol] at hd <;> simp only
  · have e := dmaCopy_sameButMem (dmaBase v) 160 0 { s with dma := { s.dma with reg := v } }
    have m := dmaCopy_memOk (dmaBase v) 160 0 { s with dma := { s.dma with reg := v } } hm (by omega)
    refine ⟨m, ?_, ?_, ?_⟩
    · rw [e]; exact hp
    · rw [e]; exact ht
    · rw [e, hpol]
      exact hd
  · refine ⟨hm, hp, ht, ?_⟩
    rw [hpol]
    refine (dma_wf_gradual _).2 ⟨by simp, by simp, fun ha => ⟨by simpa using ha, by simp⟩, fun _ => ⟨rfl, rfl⟩⟩

theorem busWrite_ok (a : Word) (v : Byte) (h : s.devicesOk) : (s.busWrite a v).devicesOk := by
  have h' := h
  obtain ⟨hm, hp, ht, hd⟩ := h
  have hst : ∀ k, isStorage k = true → { s with mem := s.mem.write k v }.devicesOk := fun k hk =>
    ⟨memOk_write _ _ hm hk rfl, hp, ht, hd⟩
  unfold busWrite
  cases ha : targetOf a <;> simp only
  case cart =>
    have hb := targetOf_cart ha
    unfold cartWrite
    cases hc : s.cart <;> simp only
    · exact h'
    · split
      · exact h'
      · have := hst a.toNat (by simp [isStorage]; omega)
        rw [hc] at this
        exact this
    · exact ⟨hm, hp, ht, hd⟩
  case vram =>
    have hb := targetOf_vram.1 ha
    split
    · exact h'
    · exact hst _ (isStorage_key (by omega))
  case oam =>
    have hb := targetOf_oam.1 ha
    split
    · exact h'
    · exact hst _ (isStorage_key (by omega))
  case wram =>
    have hb := targetOf_wram.1 ha
    exact hst _ (isStorage_key (by omega))
  case echo =>
    have hb := targetOf_echo.1 ha
    exact hst _ (isStorage_key (by omega))
  case hram =>
    have hb := targetOf_hram ha
    exact hst _ (isStorage_key (by omega))
  case dma => exact s.writeDma_ok v h'
  case lcdc => exact ⟨hm, writeLcdc_wf _ v hp, ht, hd⟩
  case div =>
    refine ⟨hm, hp, (Timer.wf_iff _).2 fun hr => ⟨((Timer.wf_iff _).1 ht hr).1, rfl⟩, hd⟩
  case tima => exact ⟨hm, hp, rfl, hd⟩
  case tma =>
    refine ⟨hm, hp, ?_, hd⟩
    show (s.timer.writeTma v).wf = true
    unfold Timer.writeTma
    split
    · rfl
    · rename_i hr
      exact (Timer.wf_iff _).2 fun e => absurd e hr
  all_goals exact ⟨hm, hp, ht, hd⟩

end State

/-- What an instruction does keeps the devices' part of the invariant. -/
theorem State.Wrote.ok {s u : State} (h : s.Wrote u) (hs : s.devicesOk) : u.devicesOk := by
  cases h with
  | none => exact hs
  | one a v => exact s.busWrite_ok a v hs
  | two a v a' v' => exact State.busWrite_ok _ a' v' (s.busWrite_ok a v hs)
  | stop =>
    obtain ⟨hm, hp, ht, hd⟩ := hs
    exact ⟨hm, hp, (Timer.wf_iff _).2 fun hr => ⟨((Timer.wf_iff _).1 ht hr).1, rfl⟩, hd⟩

namespace State

/-! The device advance. -/

/-- The device advance leaves the CPU, IE, the collaborators' memories and the arguments alone. -/
theorem deviceAdvance_same (s : State) :
    s.deviceAdvance =
      { s with
        ifl := s.deviceAdvance.ifl, timer := s.deviceAdvance.timer, ppu := s.deviceAdvance.ppu, dma := s.deviceAdvance.dma
        mem := s.deviceAdvance.mem, ext := extAdvance s.ext s.cycles, inputs := s.inputs.tail
        totalCycles := s.totalCycles + s.cycles } := by
  have h : s.deviceAdvance =
    (dmaAdvance s.cycles (ppuAdvance s.cycles (timerAdvance s.cycles s))).takeExt.countCycles := rfl
  have hd := dmaAdvance_same s.cycles (ppuAdvance s.cycles (timerAdvance s.cycles s))
  have hp := ppuAdvance_same s.cycles (timerAdvance s.cycles s)
  have ht := timerAdvance_same s.cycles s
  generalize dmaAdvance s.cycles (ppuAdvance s.cycles (timerAdvance s.cycles s)) = d at *
  generalize ppuAdvance s.cycles (timerAdvance s.cycles s) = p at *
  generalize timerAdvance s.cycles s = t at *
  rw [h]
  unfold takeExt countCycles
  simp only
  rw [hd, hp, ht]

theorem deviceAdvance_ok (s : State) (h : s.devicesOk) : s.deviceAdvance.devicesOk := by
  obtain ⟨hm, hp, ht, hd⟩ := h
  have ht' := timer_wf_advance s.cycles s ht
  have es := timerAdvance_same s.cycles s
  have ep := ppuAdvance_same s.cycles (timerAdvance s.cycles s)
  have hp' : (ppuAdvance s.cycles (timerAdvance s.cycles s)).ppu.wf = true := by
    apply ppu_wf_advance
    rw [es]
    exact hp
  have ed := dmaAdvance_same s.cycles (ppuAdvance s.cycles (timerAdvance s.cycles s))
  have hd' := dmaAdvance_keeps s.cycles (ppuAdvance s.cycles (timerAdvance s.cycles s))
    (by rw [ep, es]; exact hd) (by unfold memOk; rw [ep, es]; exact hm)
  unfold deviceAdvance
  generalize dmaAdvance s.cycles (ppuAdvance s.cycles (timerAdvance s.cycles s)) = d at *
  generalize ppuAdvance s.cycles (timerAdvance s.cycles s) = p at *
  generalize timerAdvance s.cycles s = t at *
  refine ⟨hd'.2, ?_, ?_, ?_⟩
  · show d.ppu.wf = true
    rw [ed]
    exact hp'
  · show d.timer.wf = true
    rw [ed, ep]
    exact ht'
  · show d.dma.wf d.par.dmaPolicy = true
    have : d.par = p.par := by rw [ed]
    rw [this]
    exact hd'.1

end State

end Sys2Proof.Machine
end

