-- ==== Sys2Proof/Laws/Interrupt.lean ====
section
/-! SUPPORT. Requests, the pending mask and the source an interrupt dispatch serves, bit by bit. -/

namespace Sys2Proof.Machine

/-- Setting one request (rule R353). -/
theorem request_bit (f : BitVec 5) {i j : Nat} (hi : i < 5) (hj : j < 5) :
    (f ||| (1#5 <<< i)).getLsbD j = (f.getLsbD j || decide (j = i)) := by
  have h : ∀ f : BitVec 5, ∀ i j : Fin 5, (f ||| (1#5 <<< i.val)).getLsbD j = (f.getLsbD j || decide (j.val = i.val)) := by
    decide +kernel
  exact h f ⟨i, hi⟩ ⟨j, hj⟩

/-- Acknowledging one request (rule R360). -/
theorem acknowledge_bit (f : BitVec 5) {i j : Nat} (hi : i < 5) (hj : j < 5) :
    (f &&& ~~~(1#5 <<< i)).getLsbD j = (f.getLsbD j && decide (j ≠ i)) := by
  have h : ∀ f : BitVec 5, ∀ i j : Fin 5, (f &&& ~~~(1#5 <<< i.val)).getLsbD j = (f.getLsbD j && decide (j.val ≠ i.val)) := by
    decide +kernel
  exact h f ⟨i, hi⟩ ⟨j, hj⟩

namespace State

variable (s : State)

theorem pendingMask_bit {j : Nat} (hj : j < 5) : s.pendingMask.getLsbD j = (s.ie.getLsbD j && s.ifl.getLsbD j) := by
  simp [pendingMask, hj]

/-- Something is pending exactly where an enabled source is requested (rule R354). -/
theorem pending_iff : s.pending = true ↔ ∃ j, j < 5 ∧ (s.ie.getLsbD j && s.ifl.getLsbD j) = true := by
  have h : ∀ m : BitVec 5, (m != 0#5) = true ↔ ∃ j : Fin 5, m.getLsbD j = true := by decide
  unfold pending
  rw [h]
  constructor
  · rintro ⟨j, hj⟩
    exact ⟨j, j.isLt, by rw [← s.pendingMask_bit j.isLt]; exact hj⟩
  · rintro ⟨j, hj, e⟩
    exact ⟨⟨j, hj⟩, by rw [← s.pendingMask_bit hj] at e; exact e⟩

/-- The least set bit is the source served (rule R351). -/
theorem leastSource_of {m : BitVec 5} {i : Nat} (hi : i < 5) (h : m.getLsbD i = true)
    (hn : ∀ j, j < i → m.getLsbD j = false) : leastSource m = i := by
  unfold leastSource
  rcases (by omega : i = 0 ∨ i = 1 ∨ i = 2 ∨ i = 3 ∨ i = 4) with rfl | rfl | rfl | rfl | rfl
  · rw [h]
    rfl
  · rw [hn 0 (by omega), h]
    rfl
  · rw [hn 0 (by omega), hn 1 (by omega), h]
    rfl
  · rw [hn 0 (by omega), hn 1 (by omega), hn 2 (by omega), h]
    rfl
  · rw [hn 0 (by omega), hn 1 (by omega), hn 2 (by omega), hn 3 (by omega)]
    rfl

end State

end Sys2Proof.Machine
end

