-- ==== Sys2Proof/Laws/PerInstr.lean ====
section
/-! SUPPORT. Per-instruction laws. EncodeLength: the encoder writes as many bytes as the opcode table gives the instruction, and
the first of them alone says how many (rule R142). -/

namespace Sys2Proof.Laws.EncodeLength

/-- The number of bytes the encoder writes, and the length the first of them gives. -/
def Statement (i : Instr) : Prop := ∃ op bs, encode i = op :: bs ∧ bs.length + 1 = i.length ∧ opLength op = i.length

theorem ldRR (rd : R8) (rs : R8) : Statement (.ldRR rd rs) := by
  cases rd <;> cases rs <;> exact ⟨_, _, rfl, rfl, show opLength _ = 1 from rfl⟩
theorem ldRN (rd : R8) (n : Byte) : Statement (.ldRN rd n) := by
  cases rd <;> exact ⟨_, _, rfl, rfl, show opLength _ = 2 from rfl⟩
theorem ldRHl (rd : R8) : Statement (.ldRHl rd) := by
  cases rd <;> exact ⟨_, _, rfl, rfl, show opLength _ = 1 from rfl⟩
theorem ldHlR (rs : R8) : Statement (.ldHlR rs) := by
  cases rs <;> exact ⟨_, _, rfl, rfl, show opLength _ = 1 from rfl⟩
theorem ldHlN (n : Byte) : Statement (.ldHlN n) := ⟨_, _, rfl, rfl, show opLength _ = 2 from rfl⟩
theorem ldABc : Statement .ldABc := ⟨_, _, rfl, rfl, rfl⟩
theorem ldADe : Statement .ldADe := ⟨_, _, rfl, rfl, rfl⟩
theorem ldBcA : Statement .ldBcA := ⟨_, _, rfl, rfl, rfl⟩
theorem ldDeA : Statement .ldDeA := ⟨_, _, rfl, rfl, rfl⟩
theorem ldANn (nn : Word) : Statement (.ldANn nn) := ⟨_, _, rfl, rfl, show opLength _ = 3 from rfl⟩
theorem ldNnA (nn : Word) : Statement (.ldNnA nn) := ⟨_, _, rfl, rfl, show opLength _ = 3 from rfl⟩
theorem ldhAC : Statement .ldhAC := ⟨_, _, rfl, rfl, rfl⟩
theorem ldhCA : Statement .ldhCA := ⟨_, _, rfl, rfl, rfl⟩
theorem ldhAN (n : Byte) : Statement (.ldhAN n) := ⟨_, _, rfl, rfl, show opLength _ = 2 from rfl⟩
theorem ldhNA (n : Byte) : Statement (.ldhNA n) := ⟨_, _, rfl, rfl, show opLength _ = 2 from rfl⟩
theorem ldAHlDec : Statement .ldAHlDec := ⟨_, _, rfl, rfl, rfl⟩
theorem ldHlDecA : Statement .ldHlDecA := ⟨_, _, rfl, rfl, rfl⟩
theorem ldAHlInc : Statement .ldAHlInc := ⟨_, _, rfl, rfl, rfl⟩
theorem ldHlIncA : Statement .ldHlIncA := ⟨_, _, rfl, rfl, rfl⟩
theorem ldRrNn (p : RP) (nn : Word) : Statement (.ldRrNn p nn) := by
  cases p <;> exact ⟨_, _, rfl, rfl, show opLength _ = 3 from rfl⟩
theorem ldNnSp (nn : Word) : Statement (.ldNnSp nn) := ⟨_, _, rfl, rfl, show opLength _ = 3 from rfl⟩
theorem ldSpHl : Statement .ldSpHl := ⟨_, _, rfl, rfl, rfl⟩
theorem push (q : RP2) : Statement (.push q) := by
  cases q <;> exact ⟨_, _, rfl, rfl, show opLength _ = 1 from rfl⟩
theorem pop (q : RP2) : Statement (.pop q) := by
  cases q <;> exact ⟨_, _, rfl, rfl, show opLength _ = 1 from rfl⟩
theorem addAR (rs : R8) : Statement (.addAR rs) := by
  cases rs <;> exact ⟨_, _, rfl, rfl, show opLength _ = 1 from rfl⟩
theorem addAHl : Statement .addAHl := ⟨_, _, rfl, rfl, rfl⟩
theorem addAN (n : Byte) : Statement (.addAN n) := ⟨_, _, rfl, rfl, show opLength _ = 2 from rfl⟩
theorem adcAR (rs : R8) : Statement (.adcAR rs) := by
  cases rs <;> exact ⟨_, _, rfl, rfl, show opLength _ = 1 from rfl⟩
theorem adcAHl : Statement .adcAHl := ⟨_, _, rfl, rfl, rfl⟩
theorem adcAN (n : Byte) : Statement (.adcAN n) := ⟨_, _, rfl, rfl, show opLength _ = 2 from rfl⟩
theorem subAR (rs : R8) : Statement (.subAR rs) := by
  cases rs <;> exact ⟨_, _, rfl, rfl, show opLength _ = 1 from rfl⟩
theorem subAHl : Statement .subAHl := ⟨_, _, rfl, rfl, rfl⟩
theorem subAN (n : Byte) : Statement (.subAN n) := ⟨_, _, rfl, rfl, show opLength _ = 2 from rfl⟩
theorem sbcAR (rs : R8) : Statement (.sbcAR rs) := by
  cases rs <;> exact ⟨_, _, rfl, rfl, show opLength _ = 1 from rfl⟩
theorem sbcAHl : Statement .sbcAHl := ⟨_, _, rfl, rfl, rfl⟩
theorem sbcAN (n : Byte) : Statement (.sbcAN n) := ⟨_, _, rfl, rfl, show opLength _ = 2 from rfl⟩
theorem andAR (rs : R8) : Statement (.andAR rs) := by
  cases rs <;> exact ⟨_, _, rfl, rfl, show opLength _ = 1 from rfl⟩
theorem andAHl : Statement .andAHl := ⟨_, _, rfl, rfl, rfl⟩
theorem andAN (n : Byte) : Statement (.andAN n) := ⟨_, _, rfl, rfl, show opLength _ = 2 from rfl⟩
theorem xorAR (rs : R8) : Statement (.xorAR rs) := by
  cases rs <;> exact ⟨_, _, rfl, rfl, show opLength _ = 1 from rfl⟩
theorem xorAHl : Statement .xorAHl := ⟨_, _, rfl, rfl, rfl⟩
theorem xorAN (n : Byte) : Statement (.xorAN n) := ⟨_, _, rfl, rfl, show opLength _ = 2 from rfl⟩
theorem orAR (rs : R8) : Statement (.orAR rs) := by
  cases rs <;> exact ⟨_, _, rfl, rfl, show opLength _ = 1 from rfl⟩
theorem orAHl : Statement .orAHl := ⟨_, _, rfl, rfl, rfl⟩
theorem orAN (n : Byte) : Statement (.orAN n) := ⟨_, _, rfl, rfl, show opLength _ = 2 from rfl⟩
theorem cpAR (rs : R8) : Statement (.cpAR rs) := by
  cases rs <;> exact ⟨_, _, rfl, rfl, show opLength _ = 1 from rfl⟩
theorem cpAHl : Statement .cpAHl := ⟨_, _, rfl, rfl, rfl⟩
theorem cpAN (n : Byte) : Statement (.cpAN n) := ⟨_, _, rfl, rfl, show opLength _ = 2 from rfl⟩
theorem incR (rd : R8) : Statement (.incR rd) := by
  cases rd <;> exact ⟨_, _, rfl, rfl, show opLength _ = 1 from rfl⟩
theorem incHl : Statement .incHl := ⟨_, _, rfl, rfl, rfl⟩
theorem decR (rd : R8) : Statement (.decR rd) := by
  cases rd <;> exact ⟨_, _, rfl, rfl, show opLength _ = 1 from rfl⟩
theorem decHl : Statement .decHl := ⟨_, _, rfl, rfl, rfl⟩
theorem daa : Statement .daa := ⟨_, _, rfl, rfl, rfl⟩
theorem cpl : Statement .cpl := ⟨_, _, rfl, rfl, rfl⟩
theorem scf : Statement .scf := ⟨_, _, rfl, rfl, rfl⟩
theorem ccf : Statement .ccf := ⟨_, _, rfl, rfl, rfl⟩
theorem addHlRr (p : RP) : Statement (.addHlRr p) := by
  cases p <;> exact ⟨_, _, rfl, rfl, show opLength _ = 1 from rfl⟩
theorem incRr (p : RP) : Statement (.incRr p) := by
  cases p <;> exact ⟨_, _, rfl, rfl, show opLength _ = 1 from rfl⟩
theorem decRr (p : RP) : Statement (.decRr p) := by
  cases p <;> exact ⟨_, _, rfl, rfl, show opLength _ = 1 from rfl⟩
theorem addSpE (e : Byte) : Statement (.addSpE e) := ⟨_, _, rfl, rfl, show opLength _ = 2 from rfl⟩
theorem ldHlSpE (e : Byte) : Statement (.ldHlSpE e) := ⟨_, _, rfl, rfl, show opLength _ = 2 from rfl⟩
theorem rlca : Statement .rlca := ⟨_, _, rfl, rfl, rfl⟩
theorem rrca : Statement .rrca := ⟨_, _, rfl, rfl, rfl⟩
theorem rla : Statement .rla := ⟨_, _, rfl, rfl, rfl⟩
theorem rra : Statement .rra := ⟨_, _, rfl, rfl, rfl⟩
theorem rlcR (rs : R8) : Statement (.rlcR rs) := by
  cases rs <;> exact ⟨_, _, rfl, rfl, show opLength _ = 2 from rfl⟩
theorem rlcHl : Statement .rlcHl := ⟨_, _, rfl, rfl, rfl⟩
theorem rrcR (rs : R8) : Statement (.rrcR rs) := by
  cases rs <;> exact ⟨_, _, rfl, rfl, show opLength _ = 2 from rfl⟩
theorem rrcHl : Statement .rrcHl := ⟨_, _, rfl, rfl, rfl⟩
theorem rlR (rs : R8) : Statement (.rlR rs) := by
  cases rs <;> exact ⟨_, _, rfl, rfl, show opLength _ = 2 from rfl⟩
theorem rlHl : Statement .rlHl := ⟨_, _, rfl, rfl, rfl⟩
theorem rrR (rs : R8) : Statement (.rrR rs) := by
  cases rs <;> exact ⟨_, _, rfl, rfl, show opLength _ = 2 from rfl⟩
theorem rrHl : Statement .rrHl := ⟨_, _, rfl, rfl, rfl⟩
theorem slaR (rs : R8) : Statement (.slaR rs) := by
  cases rs <;> exact ⟨_, _, rfl, rfl, show opLength _ = 2 from rfl⟩
theorem slaHl : Statement .slaHl := ⟨_, _, rfl, rfl, rfl⟩
theorem sraR (rs : R8) : Statement (.sraR rs) := by
  cases rs <;> exact ⟨_, _, rfl, rfl, show opLength _ = 2 from rfl⟩
theorem sraHl : Statement .sraHl := ⟨_, _, rfl, rfl, rfl⟩
theorem swapR (rs : R8) : Statement (.swapR rs) := by
  cases rs <;> exact ⟨_, _, rfl, rfl, show opLength _ = 2 from rfl⟩
theorem swapHl : Statement .swapHl := ⟨_, _, rfl, rfl, rfl⟩
theorem srlR (rs : R8) : Statement (.srlR rs) := by
  cases rs <;> exact ⟨_, _, rfl, rfl, show opLength _ = 2 from rfl⟩
theorem srlHl : Statement .srlHl := ⟨_, _, rfl, rfl, rfl⟩
theorem bitR (b : Nat) (rs : R8) : Statement (.bitR b rs) := ⟨_, _, rfl, rfl, show opLength _ = 2 from rfl⟩
theorem bitHl (b : Nat) : Statement (.bitHl b) := ⟨_, _, rfl, rfl, show opLength _ = 2 from rfl⟩
theorem resR (b : Nat) (rs : R8) : Statement (.resR b rs) := ⟨_, _, rfl, rfl, show opLength _ = 2 from rfl⟩
theorem resHl (b : Nat) : Statement (.resHl b) := ⟨_, _, rfl, rfl, show opLength _ = 2 from rfl⟩
theorem setR (b : Nat) (rs : R8) : Statement (.setR b rs) := ⟨_, _, rfl, rfl, show opLength _ = 2 from rfl⟩
theorem setHl (b : Nat) : Statement (.setHl b) := ⟨_, _, rfl, rfl, show opLength _ = 2 from rfl⟩
theorem jpNn (nn : Word) : Statement (.jpNn nn) := ⟨_, _, rfl, rfl, show opLength _ = 3 from rfl⟩
theorem jpCcNn (cc : Cond) (nn : Word) : Statement (.jpCcNn cc nn) := by
  cases cc <;> exact ⟨_, _, rfl, rfl, show opLength _ = 3 from rfl⟩
theorem jpHl : Statement .jpHl := ⟨_, _, rfl, rfl, rfl⟩
theorem jrE (e : Byte) : Statement (.jrE e) := ⟨_, _, rfl, rfl, show opLength _ = 2 from rfl⟩
theorem jrCcE (cc : Cond) (e : Byte) : Statement (.jrCcE cc e) := by
  cases cc <;> exact ⟨_, _, rfl, rfl, show opLength _ = 2 from rfl⟩
theorem callNn (nn : Word) : Statement (.callNn nn) := ⟨_, _, rfl, rfl, show opLength _ = 3 from rfl⟩
theorem callCcNn (cc : Cond) (nn : Word) : Statement (.callCcNn cc nn) := by
  cases cc <;> exact ⟨_, _, rfl, rfl, show opLength _ = 3 from rfl⟩
theorem ret : Statement .ret := ⟨_, _, rfl, rfl, rfl⟩
theorem retCc (cc : Cond) : Statement (.retCc cc) := by
  cases cc <;> exact ⟨_, _, rfl, rfl, show opLength _ = 1 from rfl⟩
theorem reti : Statement .reti := ⟨_, _, rfl, rfl, rfl⟩
theorem rst (t : Nat) : Statement (.rst t) := by
  refine ⟨_, _, rfl, rfl, ?_⟩
  show opLength (atY 0xC7 (BitVec.ofNat 3 t)) = 1
  generalize BitVec.ofNat 3 t = y
  revert y
  decide
theorem nop : Statement .nop := ⟨_, _, rfl, rfl, rfl⟩
theorem halt : Statement .halt := ⟨_, _, rfl, rfl, rfl⟩
theorem stop (x : Byte) : Statement (.stop x) := ⟨_, _, rfl, rfl, show opLength _ = 2 from rfl⟩
theorem di : Statement .di := ⟨_, _, rfl, rfl, rfl⟩
theorem ei : Statement .ei := ⟨_, _, rfl, rfl, rfl⟩
theorem illegalD3 : Statement .illegalD3 := ⟨_, _, rfl, rfl, rfl⟩
theorem illegalDB : Statement .illegalDB := ⟨_, _, rfl, rfl, rfl⟩
theorem illegalDD : Statement .illegalDD := ⟨_, _, rfl, rfl, rfl⟩
theorem illegalE3 : Statement .illegalE3 := ⟨_, _, rfl, rfl, rfl⟩
theorem illegalE4 : Statement .illegalE4 := ⟨_, _, rfl, rfl, rfl⟩
theorem illegalEB : Statement .illegalEB := ⟨_, _, rfl, rfl, rfl⟩
theorem illegalEC : Statement .illegalEC := ⟨_, _, rfl, rfl, rfl⟩
theorem illegalED : Statement .illegalED := ⟨_, _, rfl, rfl, rfl⟩
theorem illegalF4 : Statement .illegalF4 := ⟨_, _, rfl, rfl, rfl⟩
theorem illegalFC : Statement .illegalFC := ⟨_, _, rfl, rfl, rfl⟩
theorem illegalFD : Statement .illegalFD := ⟨_, _, rfl, rfl, rfl⟩

end Sys2Proof.Laws.EncodeLength
end

