-- ==== Sys2Proof/Laws/Render.lean ====
section
/-! SUPPORT. The renderer's pipeline: what holds of it before every iteration (rule R418); and what the tile fetch and the overlay
read. -/

namespace Sys2Proof.Machine

namespace State

variable (s : State)

/-- What holds of the pipeline before an iteration: where it stands in the discards and outputs, whether the window is on, the
column it fetches, and the pixels already out. -/
structure PipeInv (x : Pipe) : Prop where
  d : x.d ≤ s.ppu.scx.toNat % 8
  p : x.p ≤ 167
  d_p : 0 < x.d → x.p = 0
  win : x.win = (s.ppu.eligible && (decide (s.ppu.wx.toNat < x.p) || (decide (s.ppu.wx.toNat = 0) &&
    decide (x.d < s.ppu.scx.toNat % 8))))
  drew : x.drew = x.win
  col : x.col =
    if x.win then BitVec.ofNat 8 (x.p - s.ppu.wx.toNat + if s.ppu.wx.toNat = 0 then s.ppu.scx.toNat % 8 - x.d else 0)
    else BitVec.ofNat 8 (s.ppu.scx.toNat / 8 * 8 + 249 + (s.ppu.scx.toNat % 8 - x.d) + x.p)
  line : ∀ j, j < 160 →
    x.line[j]? = if j + 7 < x.p then some (s.objOverlay (s.closedPixel j) j s.ppu.ly.toNat) else s.pipeStart.line[j]?

theorem pipeStart_inv : s.PipeInv s.pipeStart := by
  have hs := s.ppu.scx.isLt
  have hd : (s.ppu.scx &&& 7#8).toNat = s.ppu.scx.toNat % 8 := by
    rw [BitVec.toNat_and]
    exact Nat.and_two_pow_sub_one_eq_mod _ 3
  constructor
  case d => exact Nat.le_of_eq hd
  case p => exact Nat.zero_le _
  case d_p => exact fun _ => rfl
  case win => simp [pipeStart, hd]
  case drew => rfl
  case line => exact fun j _ => (if_neg (Nat.not_lt_zero _)).symm
  case col =>
    have h : (s.ppu.scx &&& 0xF8#8) - 7#8 = BitVec.ofNat 8 (s.ppu.scx.toNat / 8 * 8 + 249) := by
      have : ∀ v : Byte, (v &&& 0xF8#8) - 7#8 = BitVec.ofNat 8 (v.toNat / 8 * 8 + 249) := by decide +kernel
      exact this _
    show (s.ppu.scx &&& 0xF8#8) - 7#8 = BitVec.ofNat 8 _
    rw [h, show s.pipeStart.d = s.ppu.scx.toNat % 8 from hd]
    simp [pipeStart]

/-- The window switch, by what the window covers (rules R418, R420). -/
theorem windowSwitch_inv {x : Pipe} (h : s.PipeInv x) (hp : x.p < 167) :
    let y := s.ppu.windowSwitch x
    y.p = x.p ∧ y.d = x.d ∧ y.line = x.line ∧ y.drew = y.win ∧ y.win = (s.ppu.eligible && decide (s.ppu.wx.toNat ≤ x.p)) ∧
    y.col =
      if y.win then BitVec.ofNat 8 (x.p - s.ppu.wx.toNat + if s.ppu.wx.toNat = 0 then s.ppu.scx.toNat % 8 - x.d else 0)
      else BitVec.ofNat 8 (s.ppu.scx.toNat / 8 * 8 + 249 + (s.ppu.scx.toNat % 8 - x.d) + x.p) := by
  have h1 := h.d
  have h4 := h.win
  have h5 := h.drew
  have h6 := h.col
  unfold Ppu.windowSwitch
  cases he : s.ppu.eligible
  · rw [he, Bool.false_and] at h4
    rw [h4] at h5 h6
    simp [h4, h5, h6]
  · rw [he, Bool.true_and] at h4
    cases hw : x.win
    · rw [hw] at h4 h5 h6
      simp only [Bool.false_eq, Bool.or_eq_false_iff, Bool.and_eq_false_iff, decide_eq_false_iff_not] at h4
      by_cases hp' : x.p = s.ppu.wx.toNat
      · have h0 : (if s.ppu.wx.toNat = 0 then s.ppu.scx.toNat % 8 - x.d else 0) = 0 := by split <;> omega
        simp [hp', h0]
      · have : ¬ s.ppu.wx.toNat ≤ x.p := by omega
        simp [hw, hp', h5, h6, this]
    · rw [hw] at h4 h5 h6
      have h4' := h4.symm
      simp only [Bool.or_eq_true, Bool.and_eq_true, decide_eq_true_eq] at h4'
      have : s.ppu.wx.toNat ≤ x.p := by omega
      simp [hw, h5, h6, this]

theorem ofNat_add_one (n : Nat) : BitVec.ofNat 8 n + 1#8 = BitVec.ofNat 8 (n + 1) := by
  apply BitVec.eq_of_toNat_eq
  simp

/-- The pixel put out at `p` is that of the closed form (rule R421). -/
theorem pipePixel_eq {y : Pipe} (hd : y.d = 0) (h7 : 7 ≤ y.p) (hp : y.p < 167)
    (hw : y.win = (s.ppu.eligible && decide (s.ppu.wx.toNat ≤ y.p)))
    (hc : y.col =
      if y.win then BitVec.ofNat 8 (y.p - s.ppu.wx.toNat + if s.ppu.wx.toNat = 0 then s.ppu.scx.toNat % 8 - y.d else 0)
      else BitVec.ofNat 8 (s.ppu.scx.toNat / 8 * 8 + 249 + (s.ppu.scx.toNat % 8 - y.d) + y.p)) :
    s.pipePixel y = s.closedPixel (y.p - 7) := by
  have hx : y.p - 7 + 7 = y.p := by omega
  have hcov : s.ppu.windowCovers (y.p - 7) = y.win := by
    rw [hw]
    unfold Ppu.windowCovers Ppu.eligible
    rw [hx]
  unfold pipePixel closedPixel
  rw [hcov]
  cases h0 : s.ppu.lcdc.getLsbD 0 <;> simp only [Bool.false_eq_true, Bool.true_eq_false, if_true, if_false]
  · cases hy : y.win <;> rw [hy] at hc <;> simp only [Bool.false_eq_true, if_true, if_false] at hc ⊢
    · have hcol : y.col = BitVec.ofNat 8 (s.ppu.sourceColumn false (y.p - 7)) := by
        rw [hc, hd]
        apply BitVec.eq_of_toNat_eq
        unfold Ppu.sourceColumn
        simp
        omega
      have hrow : s.ppu.ly + s.ppu.scy = BitVec.ofNat 8 (s.ppu.ly.toNat + s.ppu.scy.toNat) := by
        apply BitVec.eq_of_toNat_eq
        simp
      rw [hcol, hrow]
      rfl
    · have hwx : s.ppu.wx.toNat ≤ y.p := by
        rw [hy] at hw
        have := hw.symm
        simp only [Bool.and_eq_true, decide_eq_true_eq] at this
        exact this.2
      have hcol : y.col = BitVec.ofNat 8 (s.ppu.sourceColumn true (y.p - 7)) := by
        rw [hc, hd]
        unfold Ppu.sourceColumn
        simp only [if_true]
        congr 1
        split <;> split <;> omega
      rw [hcol]
      rfl

theorem pipeStep_inv {x : Pipe} (h : s.PipeInv x) (hp : x.p < 167) : s.PipeInv (s.pipeStep x) := by
  obtain ⟨e1, e2, e3, e4, e5, e6⟩ := s.windowSwitch_inv h hp
  unfold pipeStep
  simp only
  generalize s.ppu.windowSwitch x = y at *
  have h1 := h.d
  have h2 := h.d_p
  have h7 := h.line
  rw [← e1] at e5 e6 h2 hp
  rw [← e2] at e6 h1 h2
  rw [← e3, ← e1] at h7
  by_cases hd : y.d > 0
  · rw [if_pos hd]
    have hp0 := h2 hd
    constructor
    case d => exact Nat.le_trans (Nat.sub_le _ _) h1
    case p => exact Nat.le_of_lt hp
    case d_p => exact fun _ => hp0
    case win =>
      simp only [e5]
      congr 1
      rw [Bool.eq_iff_iff]
      simp
      omega
    case drew => exact e4
    case line => exact h7
    case col =>
      simp only [e6]
      cases hy : y.win <;> simp only [Bool.false_eq_true, if_true, if_false, ofNat_add_one] <;> congr 1
      · omega
      · have : s.ppu.wx.toNat ≤ y.p := by
          rw [hy] at e5
          have := e5.symm
          simp only [Bool.and_eq_true, decide_eq_true_eq] at this
          exact this.2
        split <;> omega
  · rw [if_neg hd]
    have hd0 : y.d = 0 := by omega
    unfold pipeOutput
    constructor
    case d => exact h1
    case p => exact hp
    case d_p => exact fun h => absurd h hd
    case win =>
      simp only [e5, hd0]
      congr 1
      rw [Bool.eq_iff_iff]
      simp
      omega
    case drew => exact e4
    case col =>
      simp only [e6]
      cases hy : y.win <;> simp only [Bool.false_eq_true, if_true, if_false, ofNat_add_one] <;> congr 1
      · have : s.ppu.wx.toNat ≤ y.p := by
          rw [hy] at e5
          have := e5.symm
          simp only [Bool.and_eq_true, decide_eq_true_eq] at this
          exact this.2
        split <;> omega
    case line =>
      intro j hj
      simp only
      by_cases h7p : 7 ≤ y.p
      · rw [if_pos h7p, s.pipePixel_eq hd0 h7p hp e5 e6]
        rw [Vector.getElem?_setIfInBounds]
        by_cases hj' : y.p - 7 = j
        · rw [if_pos hj', if_pos (by omega), if_pos (by omega)]
          rw [hj']
        · rw [if_neg hj', h7 j hj]
          congr 1
          rw [eq_iff_iff]
          omega
      · rw [if_neg h7p, h7 j hj, if_neg (by omega), if_neg (by omega)]

/-- The loop ends with every pixel of the line put out. -/
theorem pipeRun_inv (n : Nat) (x : Pipe) (h : s.PipeInv x) (hn : x.d + (167 - x.p) ≤ n) :
    s.PipeInv (s.pipeRun n x) ∧ (s.pipeRun n x).p = 167 ∧ (s.pipeRun n x).d = 0 := by
  induction n generalizing x with
  | zero =>
    have := h.p
    exact ⟨h, by show x.p = 167; omega, by show x.d = 0; omega⟩
  | succ n ih =>
    unfold pipeRun
    split
    · rename_i hp
      refine ih _ (s.pipeStep_inv h hp) ?_
      obtain ⟨e1, e2, -⟩ := s.windowSwitch_inv h hp
      unfold pipeStep
      simp only
      generalize s.ppu.windowSwitch x = y at *
      split
      · simp only
        omega
      · simp only [pipeOutput]
        omega
    · rename_i hp
      have h1 := h.p
      have h2 := h.d_p
      exact ⟨h, by omega, by omega⟩

theorem pipeEnd_inv : s.PipeInv s.pipeEnd ∧ s.pipeEnd.p = 167 ∧ s.pipeEnd.d = 0 := by
  refine s.pipeRun_inv 174 _ s.pipeStart_inv ?_
  have := s.pipeStart_inv.d
  have : s.pipeStart.p = 0 := rfl
  omega

end State

/-! What the tile fetch and the object overlay read. -/

/-- The address of a tile's first byte on numbers (rule R415). -/
theorem tileBase_eq (unsigned : Bool) (idx : Byte) :
    tileBase unsigned idx =
      if unsigned then 0x8000 + 16 * idx.toNat
      else if idx.toNat < 128 then 0x9000 + 16 * idx.toNat else 0x9000 + 16 * idx.toNat - 16 * 256 := by
  cases unsigned
  · revert idx
    decide +kernel
  · exact congrArg (0x8000 + ·) (Nat.mul_comm _ _)

namespace State

variable (s : State)

@[simp] theorem oamView_length : s.oamView.length = 160 := by
  unfold oamView
  split
  · exact List.length_replicate
  · rw [List.length_map, List.length_range]

@[simp] theorem vramView_length : s.vramView.length = 0x2000 := by rw [vramView, List.length_map, List.length_range]

theorem oamView_getElem? {i : Nat} (h : i < 160) :
    s.oamView[i]? = some (if s.dma.active then s.par.blockedValue else s.mem.read (0xFE00 + i)) := by
  unfold oamView
  split
  · exact List.getElem?_replicate_of_lt h
  · rw [List.getElem?_map, List.getElem?_range h]
    rfl

theorem vramView_getElem? {i : Nat} (h : i < 0x2000) : s.vramView[i]? = some (s.mem.read (0x8000 + i)) := by
  rw [vramView, List.getElem?_map, List.getElem?_range h]
  rfl

end State

end Sys2Proof.Machine
end

