-- ==== Sys2Proof/Laws/Step.lean ====
section
/-! SUPPORT. One step, by what the core does in it. -/

namespace Sys2Proof.Machine

namespace State

variable (s : State)

theorem isFaulted_of_run {t : State} (h : t.run = .running ∨ t.run = .halted ∨ t.run = .stopped) : t.isFaulted = false := by
  unfold isFaulted
  rcases h with h | h | h <;> rw [h]

theorem dispatch_run (p : BitVec 5) : (s.dispatch p).run = s.run := by simp [dispatch]

/-- A running core that dispatches (rule R341). -/
theorem step_dispatch (h : s.run = .running) (hp : (s.ime && s.pending) = true) :
    step s = .next (s.dispatch s.pendingMask).deviceAdvance := by
  have hf : (s.dispatch s.pendingMask).isFaulted = false := isFaulted_of_run (.inl (by rw [dispatch_run, h]))
  unfold step systemStep cpuStep admission
  simp only [h, hp, if_true, hf, Bool.false_eq_true, if_false]

/-- A running core that executes an instruction (rules R341, R344, R346). -/
theorem step_exec {i : Instr} {u : State} (h : s.run = .running) (hp : (s.ime && s.pending) = false)
    (hi : s.fetchedInstr = i) (hl : i.illegalByte = none) (hx : exec i (s.fetched i) = .next u) :
    step s = .next (u.commitIme s.imeArm).deviceAdvance := by
  obtain ⟨u', hx', hc⟩ := exec_control i (s.fetched i)
  rw [hx] at hx'
  obtain rfl := Host.Outcome.next.inj hx'
  have hr := hc.run
  have hrun : (s.fetched i).run = .running := by
    unfold fetched
    rw [hl]
    exact h
  have hf : u.isFaulted = false := by
    apply isFaulted_of_run
    rw [hl, hrun] at hr
    cases i <;> simp only at hr <;> simp only [hr, or_true, reduceCtorEq, or_false, or_self]
    split <;> simp
  have hf' : (u.commitIme s.imeArm).isFaulted = false := by
    unfold commitIme
    split
    · exact hf
    · exact hf
  unfold step systemStep cpuStep admission executeOne
  rw [hi, hx]
  simp only [h, hp, Bool.false_eq_true, if_false, completed, hf, hf']

/-- A running core that meets an illegal byte (rules R344, R370). -/
theorem step_illegal {i : Instr} {op : Byte} (h : s.run = .running) (hp : (s.ime && s.pending) = false)
    (hi : s.fetchedInstr = i) (hl : i.illegalByte = some op) : step s = .next { s with run := .faulted op s.pc } := by
  have hx : exec i s = .next (s.raiseIllegal op) := by
    cases i <;> simp [Instr.illegalByte] at hl <;> subst hl <;> rfl
  have hfe : s.fetched i = s := by
    unfold fetched
    rw [hl]
    rfl
  unfold step systemStep cpuStep admission executeOne
  rw [hi, hfe, hx]
  simp only [h, hp, Bool.false_eq_true, if_false]
  rfl

/-- A halted core with nothing enabled pending (rule R345). -/
theorem step_idle (h : s.run = .halted) (hp : s.pending = false) : step s = .next (s.cost 4).deviceAdvance := by
  have hf : (s.cost 4).isFaulted = false := isFaulted_of_run (.inr (.inl h))
  unfold step systemStep cpuStep
  simp only [h, hp, Bool.false_eq_true, if_false, hf]

/-- A halted core that wakes steps as a running one (rule R345). -/
theorem step_wake (h : s.run = .halted) (hp : s.pending = true) : step s = step s.wake := by
  unfold step systemStep cpuStep
  simp only [h, hp, if_true, wake_run]

/-- A stopped core (rule R348). -/
theorem step_stopped (h : s.run = .stopped) :
    step s = if s.wakes = 0 then .fault .stopped else .next s.joypadWake := by
  unfold step systemStep
  simp only [h]

/-- The state an instruction executes in differs from the old one in `pc` and the halt bug. -/
theorem fetched_eq (i : Instr) : s.fetched i = { s with pc := (s.fetched i).pc, haltBug := (s.fetched i).haltBug } := by
  unfold fetched
  split <;> rfl

theorem commitIme_eq (b : Bool) : s.commitIme b = { s with ime := (s.commitIme b).ime, imeArm := (s.commitIme b).imeArm } := by
  unfold commitIme
  split <;> rfl

/-- The devices' part of the invariant does not look at the CPU. -/
theorem devicesOk_of_same {u t : State} (h : u.sameDevices t) (hu : u.devicesOk) : t.devicesOk := by
  unfold sameDevices at h
  rw [h]
  exact hu

end State

end Sys2Proof.Machine
end

