-- ==== Sys2Proof/Tests/Slice0.lean ====
section
/-! SUPPORT. Tests on fixed values, and the witnesses of the statements' hypotheses. Expected results are those of
95_test_vectors.md (V1 to V176, S1 to S16) or written out from the encoding patterns of files 40 to 46. -/

namespace Sys2Proof.Tests

open Sys2Proof.Machine

set_option Elab.async false

/-- The bytes decode to the instruction, and nothing is left over. -/
def reads (bytes : List Byte) (i : Instr) : Bool := decide (decode bytes = .ok (i, []))

/-- Words written out from the encoding patterns of 40_load8.md, one for each row. -/
theorem test_decode_load8 :
    (reads [0b01001011#8] (.ldRR .c .e) && reads [0b00111110#8, 0x9C#8] (.ldRN .a 0x9C#8) &&
    reads [0b01101110#8] (.ldRHl .l) && reads [0b01110000#8] (.ldHlR .b) && reads [0b00110110#8, 0x9C#8] (.ldHlN 0x9C#8) &&
    reads [0b00001010#8] .ldABc && reads [0b00011010#8] .ldADe && reads [0b00000010#8] .ldBcA &&
    reads [0b00010010#8] .ldDeA && reads [0b11111010#8, 0x34#8, 0xC2#8] (.ldANn 0xC234#16) &&
    reads [0b11101010#8, 0x34#8, 0xC2#8] (.ldNnA 0xC234#16) && reads [0b11110010#8] .ldhAC && reads [0b11100010#8] .ldhCA &&
    reads [0b11110000#8, 0x9C#8] (.ldhAN 0x9C#8) && reads [0b11100000#8, 0x9C#8] (.ldhNA 0x9C#8) &&
    reads [0b00111010#8] .ldAHlDec && reads [0b00110010#8] .ldHlDecA && reads [0b00101010#8] .ldAHlInc &&
    reads [0b00100010#8] .ldHlIncA) = true := by
  decide

/-- Words written out from the encoding patterns of 41_load16_stack.md, one for each row. -/
theorem test_decode_load16 :
    (reads [0b00100001#8, 0x34#8, 0xC2#8] (.ldRrNn .hl 0xC234#16) &&
    reads [0b00001000#8, 0x34#8, 0xC2#8] (.ldNnSp 0xC234#16) && reads [0b11111001#8] .ldSpHl &&
    reads [0b11110101#8] (.push .af) && reads [0b11010001#8] (.pop .de)) = true := by
  decide

/-- Words written out from the encoding patterns of 42_alu8.md, one for each row. -/
theorem test_decode_alu8 :
    (reads [0b10000100#8] (.addAR .h) && reads [0b10000110#8] .addAHl && reads [0b11000110#8, 0x9C#8] (.addAN 0x9C#8) &&
    reads [0b10001010#8] (.adcAR .d) && reads [0b10001110#8] .adcAHl && reads [0b11001110#8, 0x9C#8] (.adcAN 0x9C#8) &&
    reads [0b10010001#8] (.subAR .c) && reads [0b10010110#8] .subAHl && reads [0b11010110#8, 0x9C#8] (.subAN 0x9C#8) &&
    reads [0b10011011#8] (.sbcAR .e) && reads [0b10011110#8] .sbcAHl && reads [0b11011110#8, 0x9C#8] (.sbcAN 0x9C#8) &&
    reads [0b10100111#8] (.andAR .a) && reads [0b10100110#8] .andAHl && reads [0b11100110#8, 0x9C#8] (.andAN 0x9C#8) &&
    reads [0b10101101#8] (.xorAR .l) && reads [0b10101110#8] .xorAHl && reads [0b11101110#8, 0x9C#8] (.xorAN 0x9C#8) &&
    reads [0b10110000#8] (.orAR .b) && reads [0b10110110#8] .orAHl && reads [0b11110110#8, 0x9C#8] (.orAN 0x9C#8) &&
    reads [0b10111100#8] (.cpAR .h) && reads [0b10111110#8] .cpAHl && reads [0b11111110#8, 0x9C#8] (.cpAN 0x9C#8) &&
    reads [0b00010100#8] (.incR .d) && reads [0b00110100#8] .incHl && reads [0b00001101#8] (.decR .c) &&
    reads [0b00110101#8] .decHl && reads [0b00100111#8] .daa && reads [0b00101111#8] .cpl && reads [0b00110111#8] .scf &&
    reads [0b00111111#8] .ccf) = true := by
  decide

/-- Words written out from the encoding patterns of 43_alu16.md, one for each row. -/
theorem test_decode_alu16 :
    (reads [0b00111001#8] (.addHlRr .sp) && reads [0b00000011#8] (.incRr .bc) && reads [0b00011011#8] (.decRr .de) &&
    reads [0b11101000#8, 0x9C#8] (.addSpE 0x9C#8) && reads [0b11111000#8, 0x9C#8] (.ldHlSpE 0x9C#8)) = true := by
  decide

/-- Words written out from the encoding patterns of 44_rotate_shift_bit.md, one for each row. -/
theorem test_decode_rotate_shift_bit :
    (reads [0b00000111#8] .rlca && reads [0b00001111#8] .rrca && reads [0b00010111#8] .rla && reads [0b00011111#8] .rra &&
    reads [0b11001011#8, 0b00000011#8] (.rlcR .e) && reads [0b11001011#8, 0b00000110#8] .rlcHl &&
    reads [0b11001011#8, 0b00001111#8] (.rrcR .a) && reads [0b11001011#8, 0b00001110#8] .rrcHl &&
    reads [0b11001011#8, 0b00010101#8] (.rlR .l) && reads [0b11001011#8, 0b00010110#8] .rlHl &&
    reads [0b11001011#8, 0b00011000#8] (.rrR .b) && reads [0b11001011#8, 0b00011110#8] .rrHl &&
    reads [0b11001011#8, 0b00100100#8] (.slaR .h) && reads [0b11001011#8, 0b00100110#8] .slaHl &&
    reads [0b11001011#8, 0b00101010#8] (.sraR .d) && reads [0b11001011#8, 0b00101110#8] .sraHl &&
    reads [0b11001011#8, 0b00110001#8] (.swapR .c) && reads [0b11001011#8, 0b00110110#8] .swapHl &&
    reads [0b11001011#8, 0b00111011#8] (.srlR .e) && reads [0b11001011#8, 0b00111110#8] .srlHl &&
    reads [0b11001011#8, 0b01110111#8] (.bitR 6 .a) && reads [0b11001011#8, 0b01001110#8] (.bitHl 1) &&
    reads [0b11001011#8, 0b10101101#8] (.resR 5 .l) && reads [0b11001011#8, 0b10011110#8] (.resHl 3) &&
    reads [0b11001011#8, 0b11111000#8] (.setR 7 .b) && reads [0b11001011#8, 0b11010110#8] (.setHl 2)) = true := by
  decide

/-- Words written out from the encoding patterns of 45_control.md, one for each row. -/
theorem test_decode_control :
    (reads [0b11000011#8, 0x34#8, 0xC2#8] (.jpNn 0xC234#16) &&
    reads [0b11010010#8, 0x34#8, 0xC2#8] (.jpCcNn .nc 0xC234#16) && reads [0b11101001#8] .jpHl &&
    reads [0b00011000#8, 0x9C#8] (.jrE 0x9C#8) && reads [0b00101000#8, 0x9C#8] (.jrCcE .z 0x9C#8) &&
    reads [0b11001101#8, 0x34#8, 0xC2#8] (.callNn 0xC234#16) &&
    reads [0b11011100#8, 0x34#8, 0xC2#8] (.callCcNn .c 0xC234#16) && reads [0b11001001#8] .ret &&
    reads [0b11000000#8] (.retCc .nz) && reads [0b11011001#8] .reti && reads [0b11110111#8] (.rst 6)) = true := by
  decide

/-- Words written out from the encoding patterns of 46_system.md, one for each row. -/
theorem test_decode_system :
    (reads [0b00000000#8] .nop && reads [0b01110110#8] .halt && reads [0b00010000#8, 0x9C#8] (.stop 0x9C#8) &&
    reads [0b11110011#8] .di && reads [0b11111011#8] .ei && reads [0b11010011#8] .illegalD3 &&
    reads [0b11011011#8] .illegalDB && reads [0b11011101#8] .illegalDD && reads [0b11100011#8] .illegalE3 &&
    reads [0b11100100#8] .illegalE4 && reads [0b11101011#8] .illegalEB && reads [0b11101100#8] .illegalEC &&
    reads [0b11101101#8] .illegalED && reads [0b11110100#8] .illegalF4 && reads [0b11111100#8] .illegalFC &&
    reads [0b11111101#8] .illegalFD) = true := by
  decide

/-! The checks of WellFormed, each with a term it refuses, and the bound just below. -/

theorem test_wellFormed_refuses :
    (Instr.bitR 8 .a).wellFormed = false ∧ (Instr.bitHl 8).wellFormed = false ∧ (Instr.resR 8 .a).wellFormed = false ∧
    (Instr.resHl 8).wellFormed = false ∧ (Instr.setR 8 .a).wellFormed = false ∧ (Instr.setHl 8).wellFormed = false ∧
    (Instr.rst 8).wellFormed = false := by
  decide

theorem test_wellFormed_accepts :
    (Instr.bitR 7 .a).wellFormed = true ∧ (Instr.bitHl 7).wellFormed = true ∧ (Instr.resR 7 .a).wellFormed = true ∧
    (Instr.resHl 7).wellFormed = true ∧ (Instr.setR 7 .a).wellFormed = true ∧ (Instr.setHl 7).wellFormed = true ∧
    (Instr.rst 7).wellFormed = true := by
  decide

/-- A byte string that ends inside an instruction is refused by name. -/
theorem test_decode_truncated :
    decode [] = .error .noByte ∧ decode [0xCB#8] = .error (.truncated 0xCB#8) ∧
    decode [0xCD#8, 0x34#8] = .error (.truncated 0xCD#8) := by
  decide

/-! The start state of 95_test_vectors.md, and one instruction run in it. The vector's number stands at each test; a test
runs `exec`, so `pc` counts from the state it is given. -/

/-- T0 of 95_test_vectors.md with the given cells in memory. -/
def t0 (cells : Mem) : State :=
  { State.resetWith Params.default cells .romRam (.pad 0b00#2 0xF#4 0xF#4) .null [] 0 with
    regs := { a := 0, b := 0, c := 0, d := 0, e := 0, h := 0, l := 0 }
    flags := { z := false, n := false, h := false, c := false }
    sp := 0xDFF0#16
    pc := 0xC000#16 }

/-- T0 with HL = 0xC100, one byte there, A and F. -/
def atHl (v a f : Byte) : State :=
  { t0 (if v = 0 then [] else [(0xC100, v)]) with
    regs := { a := a, b := 0, c := 0, d := 0, e := 0, h := 0xC1, l := 0x00 }
    flags := Flags.ofByte f }

/-- T0 with A, another register and F. -/
def withR (a : Byte) (r : R8) (v f : Byte) : State := (((t0 []).setR .a a).setR r v).setFlags (Flags.ofByte f)

/-- Whether `i` completes in `s` with a property. -/
def after (i : Instr) (s : State) (P : State → Bool) : Bool :=
  match exec i s with
  | .next t => P t
  | _ => false

/-- Whether a step of `s` completes with a property. -/
def stepped (s : State) (P : State → Bool) : Bool :=
  match step s with
  | .next t => P t
  | _ => false

/-- V2, V3: source and destination. -/
theorem test_ldRR : after (.ldRR .h .l) (withR 0 .l 0x77 0) (fun t => t.regs.h == 0x77#8 && t.regs.l == 0x77#8) = true := by
  decide +kernel

/-- V7: the stored register is half of the address. -/
theorem test_ldHlR : after (.ldHlR .h) (atHl 0 0 0) (fun t => t.mem == [(0xC100, 0xC1#8)]) = true := by
  decide +kernel

/-- V9: a write to ROM is dropped. -/
theorem test_ldHlN_rom : after (.ldHlN 0x99#8) ((t0 []).setHl 0x4000#16) (fun t => t.mem == []) = true := by
  decide +kernel

/-- V12: the echo is work RAM. -/
theorem test_ldBcA_echo :
    after .ldBcA (((t0 []).setBc 0xE010#16).setR .a 0x42#8) (fun t => t.mem == [(0xC010, 0x42#8)]) = true := by
  decide +kernel

/-- V11: the unusable region reads open bus. -/
theorem test_ldADe_unusable : after .ldADe ((t0 []).setDe 0xFEA0#16) (fun t => t.regs.a == 0xFF#8) = true := by
  decide +kernel

/-- V17, V20, V22: IF, TAC and STAT as a program reads them. -/
theorem test_ldh_registers :
    after .ldhAC ((t0 []).setR .c 0x0F#8) (fun t => t.regs.a == 0xE1#8) = true ∧
    after (.ldhAN 0x07#8) (t0 []) (fun t => t.regs.a == 0xF8#8) = true ∧
    after (.ldhAN 0x41#8) (t0 []) (fun t => t.regs.a == 0x86#8) = true := by
  decide +kernel

/-- V21: five bits of IF are stored. -/
theorem test_ldhNA_if : after (.ldhNA 0x0F#8) ((t0 []).setR .a 0xFF#8) (fun t => t.ifl == 0x1F#5) = true := by
  decide +kernel

/-- V24: HL wraps below zero, and the write to ROM is dropped. -/
theorem test_ldHlDecA : after .ldHlDecA ((t0 []).setR .a 0x01#8) (fun t => t.hl == 0xFFFF#16 && t.mem == []) = true := by
  decide +kernel

/-- V25: IE is read at 0xFFFF and HL wraps. -/
theorem test_ldAHlInc :
    after .ldAHlInc ({ t0 [] with ie := 0x15#8 }.setHl 0xFFFF#16) (fun t => t.regs.a == 0x15#8 && t.hl == 0#16) = true := by
  decide +kernel

/-- V29: the low byte of SP at the lower address. -/
theorem test_ldNnSp :
    after (.ldNnSp 0xC100#16) ((t0 []).setSp 0xBEEF#16)
      (fun t => t.mem == [(0xC100, 0xEF#8), (0xC101, 0xBE#8)] && t.cycles == 20) = true := by
  decide +kernel

/-- Rule R111's example: the low byte is written first, at 0xFF04, where DIV is cleared; the high byte sets TIMA. -/
theorem test_ldNnSp_registers :
    after (.ldNnSp 0xFF04#16) ((t0 []).setSp 0x1234#16) (fun t => t.timer.divctr == 0#16 && t.timer.tima == 0x12#8) = true := by
  decide +kernel

/-- V35: a push with SP = 1 drops one byte in ROM and writes IE. -/
theorem test_push_wraps :
    after (.push .hl) (((t0 []).setHl 0xA1B2#16).setSp 0x0001#16) (fun t => t.sp == 0xFFFF#16 && t.ie == 0xB2#8) = true := by
  decide +kernel

/-- V34: POP AF keeps bits 7 to 4 of F's byte. -/
theorem test_popAf :
    after (.pop .af) ((t0 [(0xC100, 0xFF#8), (0xC101, 0x12#8)]).setSp 0xC100#16)
      (fun t => t.af == 0x12F0#16 && t.sp == 0xC102#16) = true := by
  decide +kernel

/-- V37, V42, V44: carries of ADD and ADC. -/
theorem test_add :
    after (.addAR .b) (withR 0x3A .b 0xC6 0) (fun t => t.af == 0x00B0#16) = true ∧
    after (.adcAR .e) (withR 0xE1 .e 0x0F 0x10) (fun t => t.af == 0xF120#16) = true ∧
    after .adcAHl (atHl 0x1E 0xE1 0x10) (fun t => t.af == 0x00B0#16) = true := by
  decide +kernel

/-- V46, V50, V51: borrows of SUB and SBC. -/
theorem test_sub :
    after (.subAN 0x0F#8) (withR 0x3E .b 0 0) (fun t => t.af == 0x2F60#16) = true ∧
    after (.sbcAN 0xFF#8) (withR 0x00 .b 0 0x10) (fun t => t.af == 0x00F0#16) = true ∧
    after .sbcAHl (atHl 0x4F 0x3B 0x10) (fun t => t.af == 0xEB70#16) = true := by
  decide +kernel

/-- V53, V57, V59, V63: AND sets H; XOR and OR clear it; CP keeps A. -/
theorem test_logic :
    after (.andAN 0x00#8) (withR 0x5A .b 0 0x50) (fun t => t.af == 0x00A0#16) = true ∧
    after .xorAHl (atHl 0x8A 0xFF 0) (fun t => t.af == 0x7500#16) = true ∧
    after (.orAN 0x03#8) (withR 0x5A .b 0 0) (fun t => t.af == 0x5B00#16) = true ∧
    after .cpAHl (atHl 0x40 0x3C 0) (fun t => t.af == 0x3C50#16) = true := by
  decide +kernel

/-- V64, V68, V70: INC and DEC keep C. -/
theorem test_incDec :
    after (.incR .a) (withR 0x00 .a 0xFF 0x10) (fun t => t.af == 0x00B0#16) = true ∧
    after (.decR .c) (withR 0x00 .c 0x00 0x10) (fun t => t.regs.c == 0xFF#8 && t.flags.toByte == 0x70#8) = true ∧
    after .decHl (atHl 0 0 0) (fun t => t.mem == [(0xC100, 0xFF#8)] && t.flags.toByte == 0x60#8) = true := by
  decide +kernel

/-- V71: INC (HL) on TIMA is one read and one write. -/
theorem test_incHl_tima :
    after .incHl ({ t0 [] with timer := { (t0 []).timer with tima := 0xFF#8 } }.setHl 0xFF05#16)
      (fun t => t.timer.tima == 0x00#8 && t.flags.toByte == 0xA0#8) = true := by
  decide +kernel

/-- V73, V74: DAA after an addition with both corrections, and after a subtraction. -/
theorem test_daa :
    after .daa (withR 0x00 .a 0x9A 0) (fun t => t.af == 0x0090#16) = true ∧
    after .daa (withR 0x00 .a 0x4B 0x60) (fun t => t.af == 0x4540#16) = true := by
  decide +kernel

/-- V79 to V81. -/
theorem test_cplScfCcf :
    after .cpl (withR 0x00 .a 0x35 0x90) (fun t => t.af == 0xCAF0#16) = true ∧
    after .scf (withR 0x00 .a 0x00 0xE0) (fun t => t.af == 0x0090#16) = true ∧
    after .ccf (withR 0x00 .a 0x00 0xF0) (fun t => t.af == 0x0080#16) = true := by
  decide +kernel

/-- V84, V86: ADD HL keeps Z. -/
theorem test_addHl :
    after (.addHlRr .hl) ((t0 []).setHl 0x8A23#16) (fun t => t.hl == 0x1446#16 && t.flags.toByte == 0x30#8) = true ∧
    after (.addHlRr .sp) ((((t0 []).setHl 0xFFFF#16).setSp 0x0001#16).setFlags (Flags.ofByte 0xC0#8))
      (fun t => t.hl == 0x0000#16 && t.flags.toByte == 0xB0#8) = true := by
  decide +kernel

/-- V87, V89: no flag, and the wrap. -/
theorem test_incDecRr :
    after (.incRr .de) (((t0 []).setDe 0xFFFF#16).setFlags (Flags.ofByte 0xF0#8))
      (fun t => t.de == 0x0000#16 && t.flags.toByte == 0xF0#8) = true ∧
    after (.decRr .bc) (t0 []) (fun t => t.bc == 0xFFFF#16) = true := by
  decide +kernel

/-- V92, V94, V97: the displacement is signed in the sum and raw in the carries. -/
theorem test_addSp :
    after (.addSpE 0xFF#8) ((t0 []).setSp 0x0000#16) (fun t => t.sp == 0xFFFF#16 && t.flags.toByte == 0x00#8) = true ∧
    after (.addSpE 0x80#8) ((t0 []).setSp 0x0080#16) (fun t => t.sp == 0x0000#16 && t.flags.toByte == 0x10#8) = true ∧
    after (.ldHlSpE 0xFF#8) ((t0 []).setSp 0x0001#16) (fun t => t.hl == 0x0000#16 && t.flags.toByte == 0x30#8) = true := by
  decide +kernel

/-- V100, V102, V105: the accumulator rotates clear Z. -/
theorem test_rotateA :
    after .rlca (withR 0 .a 0x00 0) (fun t => t.af == 0x0000#16) = true ∧
    after .rla (withR 0 .a 0x95 0x10) (fun t => t.af == 0x2B10#16) = true ∧
    after .rra (withR 0 .a 0x01 0x10) (fun t => t.af == 0x8010#16) = true := by
  decide +kernel

/-- V106, V108, V110, V112: the prefixed rotates set Z. -/
theorem test_rotateR :
    after (.rlcR .b) (withR 0 .b 0x85 0) (fun t => t.regs.b == 0x0B#8 && t.flags.toByte == 0x10#8) = true ∧
    after (.rrcR .c) (withR 0 .c 0x01 0) (fun t => t.regs.c == 0x80#8 && t.flags.toByte == 0x10#8) = true ∧
    after (.rlR .l) (withR 0 .l 0x80 0) (fun t => t.regs.l == 0x00#8 && t.flags.toByte == 0x90#8) = true ∧
    after (.rrR .a) (withR 0 .a 0x01 0) (fun t => t.af == 0x0090#16) = true := by
  decide +kernel

/-- V114, V116, V118, V120: shifts and SWAP. -/
theorem test_shiftR :
    after (.slaR .d) (withR 0 .d 0x80 0) (fun t => t.regs.d == 0x00#8 && t.flags.toByte == 0x90#8) = true ∧
    after (.sraR .a) (withR 0 .a 0x8A 0) (fun t => t.af == 0xC500#16) = true ∧
    after (.swapR .a) (withR 0 .a 0x00 0xF0) (fun t => t.af == 0x0080#16) = true ∧
    after (.srlR .a) (withR 0 .a 0x01 0) (fun t => t.af == 0x0090#16) = true := by
  decide +kernel

/-- V111, V113, V119, V121: the same on memory. -/
theorem test_shiftHl :
    after .rlHl (atHl 0x11 0 0x10) (fun t => t.mem == [(0xC100, 0x23#8)] && t.flags.toByte == 0x00#8) = true ∧
    after .rrHl (atHl 0x8A 0 0x10) (fun t => t.mem == [(0xC100, 0xC5#8)] && t.flags.toByte == 0x00#8) = true ∧
    after .swapHl (atHl 0xF1 0 0) (fun t => t.mem == [(0xC100, 0x1F#8)] && t.flags.toByte == 0x00#8) = true ∧
    after .srlHl (atHl 0xFF 0 0) (fun t => t.mem == [(0xC100, 0x7F#8)] && t.flags.toByte == 0x10#8) = true := by
  decide +kernel

/-- V123, V125, V127, V128, V130: bit operations, on a register, on memory and on IF. -/
theorem test_bits :
    after (.bitR 4 .l) (withR 0 .l 0xEF 0) (fun t => t.flags.toByte == 0xA0#8) = true ∧
    after (.bitHl 1) (atHl 0xFE 0 0xD0) (fun t => t.flags.toByte == 0x30#8 && t.cycles == 12) = true ∧
    after (.resHl 3) (atHl 0xFF 0 0) (fun t => t.mem == [(0xC100, 0xF7#8)] && t.cycles == 16) = true ∧
    after (.setR 2 .l) (withR 0 .l 0x3B 0) (fun t => t.regs.l == 0x3F#8) = true ∧
    after (.resHl 0) ((t0 []).setHl 0xFF0F#16) (fun t => t.ifl == 0#5) = true := by
  decide +kernel

/-- V133, V135, V137: jumps. -/
theorem test_jp :
    after (.jpCcNn .nz 0x8000#16) (withR 0 .a 0 0x80) (fun t => t.pc == 0xC000#16 && t.cycles == 12) = true ∧
    after (.jpCcNn .nc 0x1234#16) (t0 []) (fun t => t.pc == 0x1234#16 && t.cycles == 16) = true ∧
    after .jpHl ((t0 []).setHl 0xFF80#16) (fun t => t.pc == 0xFF80#16) = true := by
  decide +kernel

/-- V140, V141: the displacement is signed and the sum wraps (`pc` is past the instruction). -/
theorem test_jr :
    after (.jrE 0x80#8) ((t0 []).setPc 0xC002#16) (fun t => t.pc == 0xBF82#16) = true ∧
    after (.jrE 0x7F#8) ((t0 []).setPc 0xFF92#16) (fun t => t.pc == 0x0011#16) = true := by
  decide +kernel

/-- V147, V148, V157: calls push the address of the next instruction, low byte at the lower address. -/
theorem test_call :
    after (.callNn 0x1234#16) ((t0 []).setPc 0xC003#16)
      (fun t => t.pc == 0x1234#16 && t.sp == 0xDFEE#16 && t.mem == [(0xDFEE, 0x03#8), (0xDFEF, 0xC0#8)]) = true ∧
    after (.callCcNn .nz 0x1234#16) (withR 0 .a 0 0x80) (fun t => t.sp == 0xDFF0#16 && t.cycles == 12) = true ∧
    after (.rst 7) (((t0 []).setPc 0xC001#16).setSp 0xC102#16)
      (fun t => t.pc == 0x0038#16 && t.mem == [(0xC100, 0x01#8), (0xC101, 0xC0#8)]) = true := by
  decide +kernel

/-- V151, V152, V155: returns. -/
theorem test_ret :
    after (.retCc .z) (((t0 [(0xC100, 0x03#8), (0xC101, 0xC0#8)]).setSp 0xC100#16).setFlags (Flags.ofByte 0x80#8))
      (fun t => t.pc == 0xC003#16 && t.sp == 0xC102#16 && t.cycles == 20) = true ∧
    after (.retCc .z) (t0 []) (fun t => t.sp == 0xDFF0#16 && t.cycles == 8) = true ∧
    after .reti { (t0 [(0xC100, 0x03#8), (0xC101, 0xC0#8)]).setSp 0xC100#16 with imeArm := true }
      (fun t => t.pc == 0xC003#16 && t.ime && !t.imeArm) = true := by
  decide +kernel

/-- V160, and the HALT of V162 and V164. -/
theorem test_halt :
    after .halt { t0 [] with ifl := 0 } (fun t => t.run == .halted) = true ∧
    after .halt { t0 [] with ie := 1 } (fun t => t.run == .running && t.haltBug) = true ∧
    after .halt { t0 [] with ie := 1, par := { Params.default with haltBug := false } }
      (fun t => t.run == .running && !t.haltBug) = true := by
  decide +kernel

/-- V166, V167, V168. -/
theorem test_stopDiEi :
    after (.stop 0x55#8) (t0 []) (fun t => t.run == .stopped && t.timer.divctr == 0#16) = true ∧
    after .di { t0 [] with ime := true, ie := 0x1F#8 } (fun t => !t.ime && t.ie == 0x1F#8) = true ∧
    after .ei (t0 []) (fun t => !t.ime && t.imeArm) = true := by
  decide +kernel

/-! One step. -/

/-- V161: with IME set and a request pending the step is the dispatch, not the instruction. -/
theorem test_step_dispatch :
    stepped { t0 [(0xC000, 0x76#8)] with ime := true, ie := 1 }
      (fun t => t.pc == 0x0040#16 && t.sp == 0xDFEE#16 && !t.ime && t.ifl == 0#5 && t.cycles == 20) = true := by
  decide +kernel

/-- S5 (b): the push of the high byte writes IE, and the source selected before it is still the one served. -/
theorem test_step_dispatch_over_ie :
    stepped { t0 [] with ime := true, ie := 4, ifl := 4, sp := 0x0000#16, pc := 0xC123#16 }
      (fun t => t.pc == 0x0050#16 && t.ie == 0xC1#8 && t.ifl == 0#5 && t.sp == 0xFFFE#16) = true := by
  decide +kernel

/-- V163, second step: under the halt bug the opcode byte is read again as the operand. -/
theorem test_step_haltBug :
    stepped { t0 [(0xC001, 0x3E#8), (0xC002, 0x14#8)] with haltBug := true, pc := 0xC001#16 }
      (fun t => t.regs.a == 0x3E#8 && t.pc == 0xC002#16 && !t.haltBug) = true := by
  decide +kernel

/-- V169, second step: the enable commits when the instruction after EI completes. -/
theorem test_step_ei_commits : stepped { t0 [] with imeArm := true } (fun t => t.ime && !t.imeArm) = true := by
  decide +kernel

/-- V172, S13 (a): an illegal byte stops the machine where it stands. -/
theorem test_step_illegal :
    stepped (t0 [(0xC000, 0xD3#8)])
      (fun t => t.run == .faulted 0xD3#8 0xC000#16 && t.pc == 0xC000#16 && t.timer.divctr == 0xABCC#16) = true := by
  decide +kernel

/-- S13 (c): STOP clears the divider before its own four cycles. -/
theorem test_step_stop : stepped (t0 [(0xC000, 0x10#8)]) (fun t => t.timer.divctr == 4#16 && t.run == .stopped) = true := by
  decide +kernel

/-- S4 (a), third step: the host's request comes after the devices' and wakes the core only at the next step. -/
theorem test_step_ext :
    stepped { t0 [] with run := .halted, ie := 0x10#8, ifl := 0, inputs := [{ serial := false, joypad := true }] }
      (fun t => t.run == .halted && t.ifl == 0x10#5 && t.cycles == 4) = true := by
  decide +kernel

/-- S7: the step that ends on the overflowing tick leaves the window open; a write to TIMA inside it cancels the reload. -/
theorem test_step_reloadWindow :
    stepped { t0 [] with ifl := 0, timer := { divctr := 0x000C, tima := 0xFF, tma := 0xAB, tac := 5, reloadPending := false } }
      (fun t => t.timer.tima == 0#8 && t.timer.reloadPending && t.ifl == 0#5) = true ∧
    stepped
      { t0 [(0xC000, 0xE0#8), (0xC001, 0x05#8)] with
        ifl := 0
        regs := { a := 0x55, b := 0, c := 0, d := 0, e := 0, h := 0, l := 0 }
        timer := { divctr := 0x0010, tima := 0x00, tma := 0xAB, tac := 5, reloadPending := true } }
      (fun t => t.timer.tima == 0x55#8 && !t.timer.reloadPending && t.ifl == 0#5) = true := by
  decide +kernel

/-- S9, mode 3: a blocked VRAM read and a dropped VRAM write. -/
theorem test_step_blocked :
    after .ldAHlInc { (t0 [(0x8000, 0x3C#8)]).setHl 0x8000#16 with ppu := { Ppu.reset with mode := .pixelTransfer } }
      (fun t => t.regs.a == 0xFF#8) = true ∧
    after (.ldHlN 0x99#8) { (t0 [(0x8000, 0x3C#8)]).setHl 0x8000#16 with ppu := { Ppu.reset with mode := .pixelTransfer } }
      (fun t => t.mem == [(0x8000, 0x3C#8)]) = true := by
  decide +kernel

/-- `withFetchWord` right after reset: the next step runs the word. -/
theorem test_withFetchWord :
    stepped (State.reset.withFetchWord 16 0x9C3E) (fun t => t.regs.a == 0x9C#8 && t.pc == 0x0102#16) = true ∧
    decodeTableWord 16 0x9C3E = some (.ldRN .a 0x9C#8) := by
  decide +kernel

/-! The witnesses: for each statement with hypotheses, a state and operands that meet them together, each clause at the
boundaries of its range. -/

theorem after_next {i : Instr} {s : State} {P : State → Bool} (h : after i s P = true) : ∃ t, exec i s = .next t ∧ P t := by
  unfold after at h
  split at h
  · exact ⟨_, ‹_›, h⟩
  · cases h

theorem stepped_next {s : State} {P : State → Bool} (h : stepped s P = true) : ∃ t, step s = .next t ∧ P t := by
  unfold stepped at h
  split at h
  · exact ⟨_, ‹_›, h⟩
  · cases h

theorem witness_DecodeEncode :
    (Instr.bitHl 0).wellFormed = true ∧ (Instr.setR 7 .b).wellFormed = true ∧ (Instr.rst 7).wellFormed = true ∧
    (Instr.callCcNn .c 0xFFFF#16).wellFormed = true ∧ Instr.illegalFD.wellFormed = true := by
  decide

theorem witness_LoadStoreStepHl :
    (∃ i k, i = Instr.ldAHlDec ∧ k = 65535) ∧ (∃ i k, i = Instr.ldAHlInc ∧ k = 1) ∧
    (∃ i k, i = Instr.ldHlDecA ∧ k = 65535) ∧ (∃ i k, i = Instr.ldHlIncA ∧ k = 1) :=
  ⟨⟨_, _, rfl, rfl⟩, ⟨_, _, rfl, rfl⟩, ⟨_, _, rfl, rfl⟩, ⟨_, _, rfl, rfl⟩⟩

/-- `LD SP,HL` meets its clause with the pair `sp` only. -/
theorem witness_PairResult :
    ∃ (i : Instr) (p : RP) (v k : Nat), i = .ldSpHl ∧ p = .sp ∧ v = (((t0 []).setHl 0xFFFF#16).hl).toNat ∧ k = 8 :=
  ⟨_, _, _, _, rfl, rfl, rfl, rfl⟩

/-- 99 + 1 + C and 99 - 1 - C, in two registers; and 0 with A as both operands. -/
theorem witness_DaaDecimal :
    (withR 0x99 .b 0x01 0x10).regs.a.toNat = bcd 99 ∧ ((withR 0x99 .b 0x01 0x10).getR .b).toNat = bcd 1 ∧
    (withR 0x00 .a 0x00 0x10).regs.a.toNat = bcd 0 ∧ ((withR 0x00 .a 0x00 0x10).getR .a).toNat = bcd 0 := by
  decide +kernel

theorem witness_BitResult : 0 < 8 ∧ 7 < 8 := by decide

/-- Both outcomes of each condition; `t` is 0 and 7. -/
theorem witness_CallResult :
    0 < 8 ∧ 7 < 8 ∧
    (∀ cc, ∃ f : Byte, ((t0 []).setFlags (Flags.ofByte f)).cond cc = true) ∧
    (∀ cc, ∃ f : Byte, ((t0 []).setFlags (Flags.ofByte f)).cond cc = false) := by
  refine ⟨by decide, by decide, ?_, ?_⟩
  · rintro (_ | _ | _ | _)
    · exact ⟨0x00#8, rfl⟩
    · exact ⟨0x80#8, rfl⟩
    · exact ⟨0x00#8, rfl⟩
    · exact ⟨0x10#8, rfl⟩
  · rintro (_ | _ | _ | _)
    · exact ⟨0x80#8, rfl⟩
    · exact ⟨0x00#8, rfl⟩
    · exact ⟨0x10#8, rfl⟩
    · exact ⟨0x00#8, rfl⟩

theorem witness_ReturnResult :
    (t0 []).cond .nz = true ∧ ((t0 []).setFlags (Flags.ofByte 0x80#8)).cond .nz = false ∧
    (t0 []).cond .c = false ∧ ((t0 []).setFlags (Flags.ofByte 0x10#8)).cond .c = true := by
  decide +kernel

/-- HALT with IME set; with IME clear and nothing enabled; and with source 0, and source 4, enabled and pending. -/
theorem witness_HaltStopResult :
    { t0 [] with ime := true }.ime = true ∧
    (∀ j, j < 5 → ((t0 []).ie.getLsbD j && (t0 []).ifl.getLsbD j) = false) ∧
    ((t0 []).ime = false ∧ ∃ j, j < 5 ∧ ({ t0 [] with ie := 1 }.ie.getLsbD j && (t0 []).ifl.getLsbD j) = true) ∧
    ∃ j, j < 5 ∧ ({ t0 [] with ie := 0x10 }.ie.getLsbD j && { t0 [] with ifl := 0x10 }.ifl.getLsbD j) = true :=
  ⟨rfl, by decide +kernel, ⟨rfl, 0, by decide +kernel⟩, 4, by decide +kernel⟩

theorem witness_IllegalResult :
    Instr.illegalD3.illegalByte = some 0xD3#8 ∧ Instr.illegalFD.illegalByte = some 0xFD#8 := by
  decide

/-- `POP` of a pair that is not AF writes no flag. -/
theorem witness_FlagsOnlyByFlagRules :
    writesFlags (.pop .hl) = false ∧ writesFlags (.setHl 0) = false ∧ writesFlags (.incRr .sp) = false := by
  decide

theorem witness_PcSpImeWriters :
    writesPc .halt = false ∧ writesSp .halt = false ∧ writesPc .ei = false ∧ writesSp (.ldRrNn .hl 0xFFFF#16) = false ∧
    Instr.ei ≠ .di ∧ Instr.ei ≠ .reti := by
  decide

theorem witness_MemoryOnlyByStores :
    writesBus .reti = false ∧ writesBus (.bitHl 7) = false ∧ writesBus .halt = false ∧ writesBus .illegalD3 = false := by
  decide

/-- `LD A,0x9C` at 0xC000, and `RST 7` at 0xFFFE, whose next two bytes are IE and a byte of ROM; a host with a request for the
step and one with none; no external device and a device. -/
theorem witness_StepRunsDecoded :
    (let s := t0 [(0xC000, 0x3E#8), (0xC001, 0x9C#8)]
     s.run = .running ∧ (s.ime && s.pending) = false ∧ s.haltBug = false ∧
      decode [s.busRead s.pc, s.busRead (s.pc + 1#16), s.busRead (s.pc + 2#16)] = .ok (.ldRN .a 0x9C#8, [0#8]) ∧
      (Instr.ldRN .a 0x9C#8).illegalByte = none ∧
      ∃ t, exec (.ldRN .a 0x9C#8) { s with pc := s.pc + BitVec.ofNat 16 (Instr.ldRN .a 0x9C#8).length } = .next t) ∧
    (let s := (t0 [(0xFFFE, 0xFF#8)]).setPc 0xFFFE#16
     s.run = .running ∧ (s.ime && s.pending) = false ∧ s.haltBug = false ∧
      decode [s.busRead s.pc, s.busRead (s.pc + 1#16), s.busRead (s.pc + 2#16)] = .ok (.rst 7, [0#8, 0#8]) ∧
      (Instr.rst 7).illegalByte = none ∧
      ∃ t, exec (.rst 7) { s with pc := s.pc + BitVec.ofNat 16 (Instr.rst 7).length } = .next t) ∧
    { t0 [] with inputs := [⟨true, true⟩] }.inputs = ⟨true, true⟩ :: [] ∧ (t0 []).inputs = [] ∧
    (t0 []).ext = .null ∧ { t0 [] with ext := .device 0 [] }.ext = .device 0 [] :=
  ⟨⟨rfl, by decide +kernel, rfl, by decide +kernel, rfl, _, rfl⟩, ⟨rfl, by decide +kernel, rfl, by decide +kernel, rfl, _, rfl⟩,
    rfl, rfl, rfl, rfl⟩

/-- `3E` under the halt bug is `LD A,0x3E`. -/
theorem witness_HaltBugFetch :
    let s := { t0 [(0xC000, 0x3E#8), (0xC001, 0x14#8)] with haltBug := true }
    s.run = .running ∧ (s.ime && s.pending) = false ∧ s.haltBug = true ∧
      decode [s.busRead s.pc, s.busRead s.pc, s.busRead (s.pc + 1#16)] = .ok (.ldRN .a 0x3E#8, [0x14#8]) ∧
      (Instr.ldRN .a 0x3E#8).illegalByte = none ∧
      ∃ t, exec (.ldRN .a 0x3E#8)
        { s with pc := s.pc + BitVec.ofNat 16 ((Instr.ldRN .a 0x3E#8).length - 1), haltBug := false } = .next t :=
  ⟨rfl, by decide +kernel, rfl, by decide +kernel, rfl, _, rfl⟩

theorem witness_IllegalStep :
    (t0 [(0xC000, 0xFD#8)]).run = .running ∧ ((t0 [(0xC000, 0xFD#8)]).ime && (t0 [(0xC000, 0xFD#8)]).pending) = false ∧
    (t0 [(0xC000, 0xFD#8)]).busRead (t0 [(0xC000, 0xFD#8)]).pc = 0xFD#8 ∧
    { t0 [] with run := .faulted 0xD3#8 0xC000#16 }.run = .faulted 0xD3#8 0xC000#16 := by
  decide +kernel

/-- All five sources pending, the least is 0; and source 4 alone, in a halted core. -/
theorem witness_DispatchStep :
    (let s := { t0 [] with ime := true, ie := 0xFF, ifl := 0x1F }
     s.run = .running ∧ s.ime = true ∧ (s.ie.getLsbD 0 && s.ifl.getLsbD 0) = true) ∧
    (let s := { t0 [] with run := .halted, ime := true, ie := 0x10, ifl := 0x1F }
     s.run = .halted ∧ s.ime = true ∧ (s.ie.getLsbD 4 && s.ifl.getLsbD 4) = true ∧
      ∀ j, j < 4 → (s.ie.getLsbD j && s.ifl.getLsbD j) = false) := by
  decide +kernel

/-- The first clause has a step, and the second clause is met with IME clear and with IME set. -/
theorem witness_HaltedStep :
    (let s := { t0 [] with run := .halted }
     s.run = .halted ∧ s.pending = false ∧ stepped s (fun t => t.cycles == 4) = true) ∧
    (let s := { t0 [] with run := .halted, ie := 1 }
     s.run = .halted ∧ s.pending = true ∧ s.ime = false) ∧
    (let s := { t0 [] with run := .halted, ie := 1, ime := true }
     s.run = .halted ∧ s.pending = true) := by
  decide +kernel

theorem witness_StoppedStep :
    { t0 [] with run := .stopped }.run = .stopped ∧ { t0 [] with run := .stopped }.wakes = 0 ∧
    { t0 [] with run := .stopped, wakes := 1 }.run = .stopped ∧ { t0 [] with run := .stopped, wakes := 1 }.wakes = 0 + 1 := by
  decide +kernel

/-- NOP with an armed enable, and EI with one. -/
theorem witness_ImeRule :
    (let s := { t0 [] with imeArm := true }
     s.run = .running ∧ (s.ime && s.pending) = false ∧ s.fetchedInstr = .nop ∧ s.fetchedInstr.illegalByte = none) ∧
    (let s := { t0 [(0xC000, 0xFB#8)] with imeArm := true }
     s.run = .running ∧ (s.ime && s.pending) = false ∧ s.fetchedInstr = .ei ∧ s.fetchedInstr.illegalByte = none) := by
  decide +kernel

theorem witness_StepOutcomes : (t0 []).run = .running ∧ { t0 [] with run := .halted }.run = .halted := by
  decide +kernel

/-- The two ends of each region, with its block off. -/
theorem witness_StoreThenRead :
    (t0 []).mem.wf = true ∧
    (∀ n ∈ [0xC000, 0xDFFF],
      let a := BitVec.ofNat 16 n
      0xC000 ≤ a.toNat ∧ a.toNat ≤ 0xDFFF) ∧
    (∀ n ∈ [0xC000, 0xE000, 0xFDFF],
      let a := BitVec.ofNat 16 n
      0xC000 ≤ a.toNat ∧ a.toNat ≤ 0xFDFF) ∧
    (∀ n ∈ [0xFF80, 0xFFFE],
      let a := BitVec.ofNat 16 n
      0xFF80 ≤ a.toNat ∧ a.toNat ≤ 0xFFFE) ∧
    (∀ n ∈ [0x8000, 0x9FFF],
      let a := BitVec.ofNat 16 n
      0x8000 ≤ a.toNat ∧ a.toNat ≤ 0x9FFF ∧ (t0 []).ppu.mode ≠ .pixelTransfer) ∧
    (∀ n ∈ [0xFE00, 0xFE9F],
      let a := BitVec.ofNat 16 n
      0xFE00 ≤ a.toNat ∧ a.toNat ≤ 0xFE9F ∧ (t0 []).dma.active = false ∧
      { Ppu.reset with mode := .hblank }.mode = .hblank) := by
  decide +kernel

/-- The first and the last entry of the list, and STAT in each mode, with the LCD on and off. -/
theorem witness_RegisterRoundTrip :
    (let l := [(0xFF05#16, 0xFF#8), (0xFF06#16, 0xFF#8), (0xFF07#16, 0x07#8), (0xFF0F#16, 0x1F#8), (0xFF40#16, 0xFF#8),
       (0xFF41#16, 0x78#8), (0xFF42#16, 0xFF#8), (0xFF43#16, 0xFF#8), (0xFF45#16, 0xFF#8), (0xFF46#16, 0xFF#8),
       (0xFF4A#16, 0xFF#8), (0xFF4B#16, 0xFF#8), (0xFFFF#16, 0xFF#8)]
     (0xFF05#16, 0xFF#8) ∈ l ∧ (0xFFFF#16, 0xFF#8) ∈ l) ∧
    (∀ x ∈ [(Mode.hblank, 0x84#8), (.vblank, 0x85#8), (.oamScan, 0x86#8), (.pixelTransfer, 0x87#8)],
      { t0 [] with ppu := { Ppu.reset with mode := x.1 } }.busRead 0xFF41#16 = x.2) ∧
    { t0 [] with ppu := { Ppu.reset with lcdc := 0x11, lyc := 1, mode := .pixelTransfer } }.busRead 0xFF41#16 = 0x80#8 := by
  decide +kernel

/-- An address a store does not reach, beside one of each kind it does. -/
theorem witness_BusFrame :
    storageKey 0xC000#16 ≠ storageKey 0xC001#16 ∧ storageKey 0xC000#16 = storageKey 0xE000#16 ∧
    targetOf 0xFE00#16 = .oam ∧ targetOf 0x0000#16 = .cart ∧ targetOf 0xFF10#16 = .ext := by
  decide +kernel

theorem witness_EchoIsWorkRam :
    0xE000 ≤ (0xE000#16).toNat ∧ (0xE000#16).toNat ≤ 0xFDFF ∧ 0xE000 ≤ (0xFDFF#16).toNat ∧ (0xFDFF#16).toNat ≤ 0xFDFF := by
  decide

/-- The four clauses, at both ends of the two regions: mode 3, mode 2, an active DMA, and the LCD off. -/
theorem witness_BlockedAccess :
    (0x8000 ≤ (0x8000#16).toNat ∧ (0x9FFF#16).toNat ≤ 0x9FFF ∧ 0xFE00 ≤ (0xFE00#16).toNat ∧ (0xFE9F#16).toNat ≤ 0xFE9F) ∧
    (let p := { Ppu.reset with mode := .pixelTransfer }
     p.lcdc.getLsbD 7 = true ∧ p.mode = .pixelTransfer) ∧
    (Ppu.reset.lcdc.getLsbD 7 = true ∧ Ppu.reset.mode = .oamScan ∧ Ppu.reset.mode ≠ .pixelTransfer) ∧
    { t0 [] with dma := { Dma.reset with active := true } }.dma.active = true ∧
    ((t0 []).dma.active = false ∧ { Ppu.reset with lcdc := 0x11, mode := .hblank }.lcdc.getLsbD 7 = false) := by
  decide +kernel

/-- The two ends of each range, the addresses beside the port's, and each kind of collaborator. -/
theorem witness_UnansweredAccess :
    (∀ n ∈ [0xFEA0, 0xFEFF],
      let a := BitVec.ofNat 16 n
      0xFEA0 ≤ a.toNat ∧ a.toNat ≤ 0xFEFF) ∧
    (∀ n ∈ [0xFF01, 0xFF03, 0xFF0E, 0xFF10, 0xFF47, 0xFF7F],
      let a := BitVec.ofNat 16 n
      0xFF00 < a.toNat ∧ a.toNat ≤ 0xFF7F ∧
      a.toNat ∉ [0xFF04, 0xFF05, 0xFF06, 0xFF07, 0xFF0F, 0xFF40, 0xFF41, 0xFF42, 0xFF43, 0xFF44, 0xFF45, 0xFF46, 0xFF4A,
        0xFF4B]) ∧
    (∀ n ∈ [0x0000, 0x7FFF],
      let a := BitVec.ofNat 16 n
      a.toNat ≤ 0x7FFF) ∧
    (∀ n ∈ [0xA000, 0xBFFF],
      let a := BitVec.ofNat 16 n
      0xA000 ≤ a.toNat ∧ a.toNat ≤ 0xBFFF) ∧
    (∃ s : State, s.cart = .flatRom ∧ s.joy = .pad 1 0xF 0xE ∧ s.ext = .null) ∧
    (∃ s : State, s.cart = .romRam ∧ s.joy = .device 0 [] ∧ s.ext = .device 0 []) ∧
    ∃ s : State, s.cart = .mapper 0 [] :=
  ⟨by decide +kernel, by decide +kernel, by decide +kernel, by decide +kernel,
    ⟨{ t0 [] with cart := .flatRom, joy := .pad 1 0xF 0xE, ext := .null }, rfl, rfl, rfl⟩,
    ⟨{ t0 [] with cart := .romRam, joy := .device 0 [], ext := .device 0 [] }, rfl, rfl, rfl⟩,
    ⟨{ t0 [] with cart := .mapper 0 [] }, rfl⟩⟩

theorem witness_InterruptRegisters : 0 < 5 ∧ 4 < 5 := by decide

/-- Each clock selection; TIMA one step from its overflow, which the advance does not reach. -/
theorem witness_TimerCounts :
    ∀ x ∈ [(0#3, 0, 9), (4#3, 0, 9), (5#3, 1, 3), (6#3, 2, 5), (7#3, 3, 7)],
      let t : Timer := { divctr := 0x0000, tima := 0xFE, tma := 0, tac := x.1, reloadPending := false }
      t.reloadPending = false ∧ (t.tac.toNat % 4, x.2.2) ∈ [(0, 9), (1, 3), (2, 5), (3, 7)] ∧
      t.tima.toNat +
        (if t.tac.toNat < 4 then 0
         else (t.divctr.toNat + 2 ^ (x.2.2 + 1)) / 2 ^ (x.2.2 + 1) - t.divctr.toNat / 2 ^ (x.2.2 + 1)) < 256 := by
  decide +kernel

/-- The overflowing tick at each clock selection. -/
theorem witness_TimerReload :
    ∀ x ∈ [(4#3, 9, 0x03FF#16), (5#3, 3, 0x000F#16), (6#3, 5, 0x003F#16), (7#3, 7, 0xFFFF#16)],
      let t : Timer := { divctr := x.2.2, tima := 0xFF, tma := 0xAB, tac := x.1, reloadPending := false }
      t.reloadPending = false ∧ t.tac.getLsbD 2 = true ∧
      (t.tac.toNat % 4, x.2.1) ∈ [(0, 9), (1, 3), (2, 5), (3, 7)] ∧ t.tima.toNat = 0xFF ∧
      t.divctr.toNat % 2 ^ (x.2.1 + 1) = 2 ^ (x.2.1 + 1) - 1 := by
  decide +kernel

/-- The PPU at the last dot of a line, in the mode that line and dot determine. -/
def lineEnd (ly : Byte) (m : Mode) : Ppu := { Ppu.reset with ly := ly, dot := 455, mode := m }

theorem witness_PpuTimeline :
    Ppu.reset.lcdc.getLsbD 7 = true ∧ Ppu.reset.wf = true ∧ (lineEnd 153 .vblank).lcdc.getLsbD 7 = true ∧
    (lineEnd 153 .vblank).wf = true := by
  decide +kernel

/-- Entering HBlank, VBlank, line 0 and a visible line. -/
theorem witness_PpuRequests :
    (let p := { Ppu.reset with ly := 143, dot := 251, mode := .pixelTransfer }
     p.lcdc.getLsbD 7 = true ∧ p.wf = true ∧ 144 = (if p.ly.toNat = 153 then 0 else p.ly.toNat + 1)) ∧
    (let p := lineEnd 143 .hblank
     p.lcdc.getLsbD 7 = true ∧ p.wf = true ∧ 144 = (if p.ly.toNat = 153 then 0 else p.ly.toNat + 1)) ∧
    (let p := lineEnd 153 .vblank
     p.lcdc.getLsbD 7 = true ∧ p.wf = true ∧ 0 = (if p.ly.toNat = 153 then 0 else p.ly.toNat + 1)) ∧
    (let p := lineEnd 0 .hblank
     p.lcdc.getLsbD 7 = true ∧ p.wf = true ∧ 1 = (if p.ly.toNat = 153 then 0 else p.ly.toNat + 1)) := by
  decide +kernel

/-- Off, on, the plain write with the LCD on and with it off. -/
theorem witness_LcdSwitch :
    Ppu.reset.lcdc.getLsbD 7 = true ∧ (0x11#8).getLsbD 7 = false ∧
    { Ppu.reset with lcdc := 0x11 }.lcdc.getLsbD 7 = false ∧ (0x91#8).getLsbD 7 = true ∧
    Ppu.reset.lcdc.getLsbD 7 = (0xFF#8).getLsbD 7 ∧
    { Ppu.reset with lcdc := 0x11 }.lcdc.getLsbD 7 = (0x7F#8).getLsbD 7 := by
  decide +kernel

/-- The line starts of line 0 and of a line equal to WY, and a tick inside a line. -/
theorem witness_WindowLatch :
    (let p := lineEnd 153 .vblank
     p.lcdc.getLsbD 7 = true ∧ p.wf = true ∧ 0 = (if p.ly.toNat = 153 then 0 else p.ly.toNat + 1) ∧ p.dot.toNat = 455) ∧
    (let p := { lineEnd 89 .hblank with wy := 90 }
     p.lcdc.getLsbD 7 = true ∧ p.wf = true ∧ 90 = (if p.ly.toNat = 153 then 0 else p.ly.toNat + 1) ∧ p.dot.toNat = 455) ∧
    (let p := { Ppu.reset with dot := 454, mode := .hblank }
     p.lcdc.getLsbD 7 = true ∧ p.wf = true ∧ 1 = (if p.ly.toNat = 153 then 0 else p.ly.toNat + 1) ∧ p.dot.toNat ≠ 455) := by
  decide +kernel

/-- The first and the last visible line; the rendering tick, and the ticks beside it; the first line that is not visible, at the
rendering dot; each overlay; an OAM view taken during a DMA and outside one. -/
theorem witness_RenderClosedForm :
    (Ppu.reset.ly.toNat < 144 ∧ (lineEnd 143 .hblank).ly.toNat < 144 ∧ 0 < 160 ∧ 159 < 160) ∧
    (let p := { Ppu.reset with ly := 143, dot := 251, mode := .pixelTransfer }
     p.lcdc.getLsbD 7 = true ∧ p.wf = true ∧ p.dot.toNat = 251 ∧ p.ly.toNat < 144) ∧
    (let p := { Ppu.reset with ly := 143, dot := 250, mode := .pixelTransfer }
     p.lcdc.getLsbD 7 = true ∧ p.wf = true ∧ p.dot.toNat ≠ 251 ∧ p.dot.toNat ≠ 455) ∧
    (let p := { Ppu.reset with ly := 144, dot := 251, mode := .vblank }
     p.lcdc.getLsbD 7 = true ∧ p.wf = true ∧ 144 ≤ p.ly.toNat ∧ p.dot.toNat ≠ 455) ∧
    ((lineEnd 153 .vblank).lcdc.getLsbD 7 = true ∧ (lineEnd 153 .vblank).wf = true ∧ (lineEnd 153 .vblank).dot.toNat = 455) ∧
    (t0 []).par.overlay = .background ∧ { Params.default with overlay := .device 0 }.overlay = .device 0 ∧
    (t0 []).dma.active = false ∧ { Dma.reset with active := true }.active = true ∧ 0x1FFF < 0x2000 := by
  decide +kernel

theorem witness_DmaInstant :
    (t0 [(0xC000, 0x5A#8)]).mem.wf = true ∧ (t0 [(0xC000, 0x5A#8)]).par.dmaPolicy = .instant ∧
    0 < 160 ∧ 159 < 160 ∧ 0xFDFF < 0xFE00 ∧ 0xFEA0 ≤ 0xFEA0 ∧
    (∀ n ∈ [0x0000, 0x7FFF, 0xA000, 0xBFFF],
      let a := BitVec.ofNat 16 n
      a.toNat ≤ 0x7FFF ∨ (0xA000 ≤ a.toNat ∧ a.toNat ≤ 0xBFFF)) ∧
    (∀ n ∈ [0x8000, 0x9FFF, 0xC000, 0xDFFF],
      let a := BitVec.ofNat 16 n
      (0x8000 ≤ a.toNat ∧ a.toNat ≤ 0x9FFF) ∨ (0xC000 ≤ a.toNat ∧ a.toNat ≤ 0xDFFF)) ∧
    (∀ n ∈ [0xE000, 0xFFFF],
      let a := BitVec.ofNat 16 n
      0xE000 ≤ a.toNat) := by
  decide +kernel

/-- Gradual with the default delay; after 644 cycles the transfer is over. -/
theorem witness_DmaGradual :
    (let s := { t0 [(0xC000, 0x5A#8)] with par := { Params.default with dmaPolicy := .gradual } }
     s.mem.wf = true ∧ s.par.dmaPolicy = .gradual ∧
      (Nat.repeat State.dmaTick 4 (s.busWrite 0xFF46#16 0xC0#8)).dma.active = true ∧
      (Nat.repeat State.dmaTick 644 (s.busWrite 0xFF46#16 0xC0#8)).dma.active = false) := by
  decide +kernel

theorem witness_InvAtReset : Mem.wf [(0x8000, 1#8), (0xFFFE, 2#8)] = true ∧
    Mem.placed [(0x8000, 1#8), (0xFFFE, 2#8)] = true := by
  decide +kernel

/-- A running machine, and a halted one inside the Timer's reload window. -/
theorem witness_StepKeepsInv :
    (let s := t0 [(0xC000, 0x3E#8), (0xC001, 0x9C#8)]
     s.Inv ∧ ∃ t, step s = .next t) ∧
    (let s := { t0 [] with
                run := .halted
                timer := { divctr := 0x0010, tima := 0, tma := 0xAB, tac := 5, reloadPending := true } }
     s.Inv ∧ ∃ t, step s = .next t) := by
  refine ⟨⟨by unfold State.Inv; decide +kernel, ?_⟩, ⟨by unfold State.Inv; decide +kernel, ?_⟩⟩
  · exact (stepped_next (P := fun _ => true) (by decide +kernel)).imp fun _ h => h.1
  · exact (stepped_next (P := fun _ => true) (by decide +kernel)).imp fun _ h => h.1

end Sys2Proof.Tests
end

section
/-! SUPPORT. The stack instructions (rules R12, R193, R194): what a push leaves, what a popped pair reads, and the statements
about PUSH and POP. -/

namespace Sys2Proof.Machine

theorem exec_push (q : RP2) (s : State) : exec (.push q) s = .next ((s.push16 (s.getRP2 q)).cost 16) := rfl

theorem exec_pop (q : RP2) (s : State) : exec (.pop q) s = .next ((s.popSp.setRP2 q s.popWord).cost 12) := rfl

namespace State

variable (s : State)

/-- A `Push16(v)` that is followed by a write of `pc` and of the count at most: PUSH, the calls and RST. -/
theorem pushed_of_push16 {t : State} {v : Word} (h : t = { s.push16 v with pc := t.pc, cycles := t.cycles }) :
    s.pushed t v := by
  refine ⟨by rw [push16_eq] at h; exact h, by rw [h]; exact s.push16_regs v, by rw [h]; exact s.push16_flags v, ?_⟩
  have two := s.storedAt_two (s.sp - 1#16) (s.sp - 2#16) (hiByte v) (loByte v)
  rw [h, push16_eq]
  exact storedAt_of _ two rfl rfl rfl rfl rfl rfl rfl rfl fun _ => rfl

theorem af_toNat :
    s.af.toNat =
      256 * s.regs.a.toNat + 128 * s.flags.z.toNat + 64 * s.flags.n.toNat + 32 * s.flags.h.toNat +
        16 * s.flags.c.toNat := by
  rw [af, cat_toNat, Flags.toByte_toNat]
  omega

@[simp] theorem setRP2_sp (q : RP2) (v : Word) : (s.setRP2 q v).sp = s.sp := by rw [s.setRP2_eq q v]
@[simp] theorem setRP2_pc (q : RP2) (v : Word) : (s.setRP2 q v).pc = s.pc := by rw [s.setRP2_eq q v]

@[simp] theorem getRP2_cost (q : RP2) (k : Nat) : (s.cost k).getRP2 q = s.getRP2 q := rfl
@[simp] theorem getRP2_popSp (q : RP2) : s.popSp.getRP2 q = s.getRP2 q := rfl

theorem popWord_toNat : s.popWord.toNat = 256 * (s.busRead (s.sp + 1#16)).toNat + (s.busRead s.sp).toNat :=
  cat_toNat _ _

/-- The popped pair: the low nibble that F has no storage for is the low byte's (rule R24). -/
theorem getRP2_setRP2_popWord (u : State) (q : RP2) :
    ((u.setRP2 q s.popWord).getRP2 q).toNat =
      256 * (s.busRead (s.sp + 1#16)).toNat +
        (if q = .af then (s.busRead s.sp).toNat / 16 * 16 else (s.busRead s.sp).toNat) := by
  rw [getRP2_setRP2_same, popWord_toNat]
  split
  · omega
  · rfl

/-- A pop changes registers, F, `sp` and the count. -/
theorem onlyCpu_setRP2_popSp (q : RP2) (v : Word) (k : Nat) : s.onlyCpu ((s.popSp.setRP2 q v).cost k) :=
  onlyCpu_of (by rw [s.popSp.setRP2_eq q v]; rfl)

end State

/-- Settles O9: PUSH is `Push16` of the pair, which is the two bus writes of `push16_eq`. -/
theorem pushResult : Obligations.PushResult := fun s q =>
  ⟨⟨_, exec_push q s, s.pushed_of_push16 rfl, s.push16_pc _, rfl⟩, s.af_toNat⟩

/-- Settles O10: POP is a write of the popped word to the pair, in the state whose `sp` is two more. -/
theorem popResult : Obligations.PopResult := fun s q => by
  refine ⟨_, exec_pop q s, s.getRP2_setRP2_popWord s.popSp q, fun q' other => ?_, fun notAf => ?_, ?_, ?_, rfl,
    s.onlyCpu_setRP2_popSp q s.popWord 12⟩
  · rw [State.getRP2_cost, State.getRP2_setRP2_other _ _ other, State.getRP2_popSp]
  · exact s.popSp.setRP2_flags _ notAf
  · rw [State.cost_sp, State.setRP2_sp, State.popSp_sp, BitVec.toNat_add]
    rfl
  · exact s.popSp.setRP2_pc q s.popWord

end Sys2Proof.Machine
end

section
/-! SUPPORT. F, `sp` and `pc` over all instructions: what each instruction keeps (rules R25, R26, R27), and the two statements
about all instructions that follow. -/

namespace Sys2Proof.Machine

namespace State

variable (s : State)

theorem setRP_sp_other {p : RP} (v : Word) (h : p ≠ .sp) : (s.setRP p v).sp = s.sp := by
  cases p
  case sp => exact absurd rfl h
  all_goals rfl

/-- HALT writes `run` or the halt bug only (rule R321). -/
theorem halt_eq : s.halt = { s with run := s.halt.run, haltBug := s.halt.haltBug } := by
  unfold halt
  split
  · rfl
  · split <;> rfl

end State

/-- An instruction outside the list of rule R25 keeps F, one outside that of R27 keeps `sp`, one outside that of R26 keeps
`pc`. -/
structure ExecFrame (i : Instr) (s t : State) : Prop where
  flags : writesFlags i = false → t.flags = s.flags
  sp : writesSp i = false → t.sp = s.sp
  pc : writesPc i = false → t.pc = s.pc

namespace ExecFrame

variable {i : Instr} {s t : State}

theorem keepsAll (hf : t.flags = s.flags) (hs : t.sp = s.sp) (hp : t.pc = s.pc) : ExecFrame i s t :=
  ⟨fun _ => hf, fun _ => hs, fun _ => hp⟩

theorem setsFlags (hw : writesFlags i = true) (hs : t.sp = s.sp) (hp : t.pc = s.pc) : ExecFrame i s t :=
  ⟨fun h => absurd hw (Bool.eq_false_iff.1 h), fun _ => hs, fun _ => hp⟩

theorem setsSp (hw : writesSp i = true) (hf : t.flags = s.flags) (hp : t.pc = s.pc) : ExecFrame i s t :=
  ⟨fun _ => hf, fun h => absurd hw (Bool.eq_false_iff.1 h), fun _ => hp⟩

theorem jumps (hw : writesPc i = true) (hf : t.flags = s.flags) (hs : t.sp = s.sp) : ExecFrame i s t :=
  ⟨fun _ => hf, fun _ => hs, fun h => absurd hw (Bool.eq_false_iff.1 h)⟩

/-- A transfer that goes through the stack. -/
theorem jumpsByStack (hs : writesSp i = true) (hp : writesPc i = true) (hf : t.flags = s.flags) : ExecFrame i s t :=
  ⟨fun _ => hf, fun h => absurd hs (Bool.eq_false_iff.1 h), fun h => absurd hp (Bool.eq_false_iff.1 h)⟩

/-- A store, whose last step is the count. -/
theorem stores (a : Word) (v : Byte) (k : Nat) : ExecFrame i s ((s.busWrite a v).cost k) :=
  keepsAll (s.busWrite_flags a v) (s.busWrite_sp a v) (s.busWrite_pc a v)

/-- A store of two bytes. -/
theorem storesTwo (a a' : Word) (v v' : Byte) (k : Nat) : ExecFrame i s (((s.busWrite a v).busWrite a' v').cost k) :=
  keepsAll (by simp) (by simp) (by simp)

/-- A store that also steps HL. -/
theorem storesSetHl (a w : Word) (v : Byte) (k : Nat) : ExecFrame i s (((s.busWrite a v).setHl w).cost k) :=
  keepsAll (s.busWrite_flags a v) (s.busWrite_sp a v) (s.busWrite_pc a v)

/-- A store of an operation's result, which also sets F. -/
theorem storesSetFlags (hw : writesFlags i = true) (a : Word) (v : Byte) (f : Flags) (k : Nat) :
    ExecFrame i s (((s.busWrite a v).setFlags f).cost k) :=
  setsFlags hw (s.busWrite_sp a v) (s.busWrite_pc a v)

/-- A write of a pair: `sp` is the pair SP alone. -/
theorem setsPair {p : RP} (hw : writesSp i = decide (p = .sp)) (v : Word) (k : Nat) :
    ExecFrame i s ((s.setRP p v).cost k) where
  flags _ := s.setRP_flags p v
  sp h := s.setRP_sp_other v (of_decide_eq_false (hw.symm.trans h))
  pc _ := s.setRP_pc p v

/-- A conditional instruction, by whether it is taken. -/
theorem taken_or_not {c : Bool} {x y : State} (hx : ExecFrame i s x) (hy : ExecFrame i s y) :
    ∃ t, (if c = true then .next x else .next y : Result) = .next t ∧ ExecFrame i s t := by
  cases c
  · exact ⟨y, rfl, hy⟩
  · exact ⟨x, rfl, hx⟩

end ExecFrame

/-- Every instruction answers a next state, in which it kept what its rule does not list. -/
theorem exec_frame (i : Instr) (s : State) : ∃ t, exec i s = .next t ∧ ExecFrame i s t := by
  cases i
  case addAR | addAHl | addAN | adcAR | adcAHl | adcAN | subAR | subAHl | subAN | sbcAR | sbcAHl | sbcAN | andAR | andAHl
    | andAN | xorAR | xorAHl | xorAN | orAR | orAHl | orAN | cpAR | cpAHl | cpAN | incR | decR | daa | cpl | scf | ccf
    | addHlRr | ldHlSpE | rlca | rrca | rla | rra | rlcR | rrcR | rlR | rrR | slaR | sraR | swapR | srlR | bitR | bitHl =>
    exact ⟨_, rfl, .setsFlags rfl rfl rfl⟩
  case addSpE e => exact ⟨_, rfl, nofun, nofun, fun _ => rfl⟩
  case incHl | decHl | rlcHl | rrcHl | rlHl | rrHl | slaHl | sraHl | swapHl | srlHl =>
    exact ⟨_, rfl, .storesSetFlags rfl _ _ _ _⟩
  case ldHlR | ldHlN | ldBcA | ldDeA | ldNnA | ldhCA | ldhNA | resHl | setHl => exact ⟨_, rfl, .stores _ _ _⟩
  case ldHlDecA | ldHlIncA => exact ⟨_, rfl, .storesSetHl _ _ _ _⟩
  case ldNnSp nn => exact ⟨_, rfl, .storesTwo _ _ _ _ _⟩
  case ldRrNn | incRr | decRr => exact ⟨_, rfl, .setsPair rfl _ _⟩
  case ldSpHl => exact ⟨_, rfl, .setsSp rfl rfl rfl⟩
  case push q => exact ⟨_, rfl, .setsSp rfl (s.push16_flags _) (s.push16_pc _)⟩
  case pop q =>
    refine ⟨_, rfl, fun h => ?_, nofun, fun _ => s.popSp.setRP2_pc q _⟩
    exact s.popSp.setRP2_flags _ (of_decide_eq_false h)
  case jpNn | jpHl | jrE => exact ⟨_, rfl, .jumps rfl rfl rfl⟩
  case jpCcNn | jrCcE => exact ExecFrame.taken_or_not (.jumps rfl rfl rfl) (.keepsAll rfl rfl rfl)
  case callNn | rst => exact ⟨_, rfl, .jumpsByStack rfl rfl (s.push16_flags _)⟩
  case callCcNn cc nn => exact ExecFrame.taken_or_not (.jumpsByStack rfl rfl (s.push16_flags _)) (.keepsAll rfl rfl rfl)
  case ret | reti => exact ⟨_, rfl, .jumpsByStack rfl rfl rfl⟩
  case retCc cc => exact ExecFrame.taken_or_not (.jumpsByStack rfl rfl rfl) (.keepsAll rfl rfl rfl)
  case halt =>
    refine ⟨_, rfl, ?_⟩
    rw [s.halt_eq]
    exact .keepsAll rfl rfl rfl
  all_goals exact ⟨_, rfl, .keepsAll rfl rfl rfl⟩

/-- Settles O30: `exec_frame`'s part about F. -/
theorem flagsOnlyByFlagRules : Obligations.FlagsOnlyByFlagRules := fun i s hi =>
  have ⟨t, ht, frame⟩ := exec_frame i s
  ⟨t, ht, frame.flags hi⟩

/-- Settles O31: `exec_frame` for `pc` and `sp`, and the laws' `exec_control` for IME. -/
theorem pcSpImeWriters : Obligations.PcSpImeWriters := fun i s => by
  obtain ⟨t, ht, frame⟩ := exec_frame i s
  obtain ⟨t', ht', control⟩ := exec_control i s
  obtain rfl : t = t' := Host.Outcome.next.inj (ht.symm.trans ht')
  refine ⟨t, ht, frame.pc, frame.sp, fun notDi notReti => ?_⟩
  rw [control.ime, if_neg notDi, if_neg notReti]

end Sys2Proof.Machine
end

section
/-! SUPPORT. The I/O registers on the bus (rules R35 to R50, R59, R60): what each address reads, what a write there stores, and
the statement about reading back. -/

namespace Sys2Proof.Machine

/-! The bits of the registers whose byte is put together. -/

theorem tacByte_toNat (t : BitVec 3) : (0x1F#5 ++ t).toNat = 0xF8 + t.toNat := by
  revert t; decide

theorem tacByte_high (t : BitVec 3) : (0x1F#5 ++ t : Byte) &&& 0xF8#8 = 0xF8#8 := by
  revert t; decide

theorem tacByte_stored (v : Byte) : (0x1F#5 ++ v.setWidth 3 : Byte) &&& 0x07#8 = v &&& 0x07#8 := by
  revert v; decide +kernel

theorem iflByte_high (f : BitVec 5) : (0x7#3 ++ f : Byte) &&& 0xE0#8 = 0xE0#8 := by
  revert f; decide

theorem iflByte_stored (v : Byte) : (0x7#3 ++ v.setWidth 5 : Byte) &&& 0x1F#8 = v &&& 0x1F#8 := by
  revert v; decide +kernel

/-- The byte at STAT as a number: 1, the four stored bits, the coincidence bit, the two mode bits. -/
theorem statByte_toNat (st : BitVec 4) (c : Bool) (m : BitVec 2) :
    (1#1 ++ st ++ BitVec.ofBool c ++ m : Byte).toNat = 128 + 8 * st.toNat + 4 * c.toNat + m.toNat := by
  revert st c m; decide +kernel

theorem statByte_high (st : BitVec 4) (c : Bool) (m : BitVec 2) :
    (1#1 ++ st ++ BitVec.ofBool c ++ m : Byte) &&& 0x80#8 = 0x80#8 := by
  revert st c m; decide +kernel

theorem statByte_coincidence (st : BitVec 4) (c : Bool) (m : BitVec 2) :
    (1#1 ++ st ++ BitVec.ofBool c ++ m : Byte).getLsbD 2 = c := by
  revert st c m; decide +kernel

theorem statByte_stored (v : Byte) (c : Bool) (m : BitVec 2) :
    (1#1 ++ v.extractLsb' 3 4 ++ BitVec.ofBool c ++ m : Byte) &&& 0x78#8 = v &&& 0x78#8 := by
  revert v c m; decide +kernel

namespace Ppu

variable (p : Ppu)

/-- The mode bits of STAT (rules R41, R47). -/
def statMode : BitVec 2 := if p.lcdOn then p.mode.code else 0#2

theorem statRead_eq : p.statRead = 1#1 ++ p.stat ++ BitVec.ofBool (p.ly == p.lyc) ++ p.statMode := rfl

theorem statRead_high : p.statRead &&& 0x80#8 = 0x80#8 := statByte_high _ _ _

theorem statRead_stat : p.statRead.toNat / 8 = 16 + p.stat.toNat := by
  have hc := (p.ly == p.lyc).toNat_le
  have hm := p.statMode.isLt
  rw [statRead_eq, statByte_toNat]
  omega

theorem statRead_mod : p.statRead.toNat % 4 = p.statMode.toNat := by
  have hm := p.statMode.isLt
  rw [statRead_eq, statByte_toNat]
  omega

theorem statRead_coincidence : p.statRead.getLsbD 2 = true ↔ p.ly = p.lyc := by
  rw [statRead_eq, statByte_coincidence, beq_iff_eq]

theorem statMode_toNat :
    p.statMode.toNat =
      (if p.lcdc.getLsbD 7 = false then 0
       else if p.mode = .hblank then 0 else if p.mode = .vblank then 1 else if p.mode = .oamScan then 2 else 3) := by
  unfold statMode lcdOn
  cases p.lcdc.getLsbD 7
  · rfl
  · cases p.mode <;> rfl

/-- The bits a write to STAT stores read back (rule R41). -/
theorem statRead_writeStat (v : Byte) : (p.writeStat v).statRead &&& 0x78#8 = v &&& 0x78#8 := statByte_stored _ _ _

end Ppu

@[simp] theorem Timer.writeTma_tma (t : Timer) (v : Byte) : (t.writeTma v).tma = v := by
  unfold Timer.writeTma
  split <;> rfl

/-- The registers that store all eight bits of a write (rule R59). -/
def wholeRegisters : List Word :=
  [0xFF05#16, 0xFF06#16, 0xFF40#16, 0xFF42#16, 0xFF43#16, 0xFF45#16, 0xFF46#16, 0xFF4A#16, 0xFF4B#16, 0xFFFF#16]

namespace State

variable (s : State) (v : Byte)

@[simp] theorem writeDma_reg : (s.writeDma v).dma.reg = v := by
  unfold writeDma
  split
  · rw [dmaCopy_sameButMem]
  · rfl

/-! What each register address reads. -/

@[simp] theorem busRead_div : s.busRead 0xFF04#16 = hiByte s.timer.divctr := rfl
@[simp] theorem busRead_tima : s.busRead 0xFF05#16 = s.timer.tima := rfl
@[simp] theorem busRead_tma : s.busRead 0xFF06#16 = s.timer.tma := rfl
@[simp] theorem busRead_tac : s.busRead 0xFF07#16 = 0x1F#5 ++ s.timer.tac := rfl
@[simp] theorem busRead_ifl : s.busRead 0xFF0F#16 = 0x7#3 ++ s.ifl := rfl
@[simp] theorem busRead_lcdc : s.busRead 0xFF40#16 = s.ppu.lcdc := rfl
@[simp] theorem busRead_stat : s.busRead 0xFF41#16 = s.ppu.statRead := rfl
@[simp] theorem busRead_scy : s.busRead 0xFF42#16 = s.ppu.scy := rfl
@[simp] theorem busRead_scx : s.busRead 0xFF43#16 = s.ppu.scx := rfl
@[simp] theorem busRead_lyc : s.busRead 0xFF45#16 = s.ppu.lyc := rfl
@[simp] theorem busRead_dma : s.busRead 0xFF46#16 = s.dma.reg := rfl
@[simp] theorem busRead_wy : s.busRead 0xFF4A#16 = s.ppu.wy := rfl
@[simp] theorem busRead_wx : s.busRead 0xFF4B#16 = s.ppu.wx := rfl
@[simp] theorem busRead_ie : s.busRead 0xFFFF#16 = s.ie := rfl

/-! What a write to each register does. -/

@[simp] theorem busWrite_tima : s.busWrite 0xFF05#16 v = s.setTimer (s.timer.writeTima v) := rfl
@[simp] theorem busWrite_tma : s.busWrite 0xFF06#16 v = s.setTimer (s.timer.writeTma v) := rfl
@[simp] theorem busWrite_tac : s.busWrite 0xFF07#16 v = s.setTimer (s.timer.writeTac v) := rfl
@[simp] theorem busWrite_ifl : s.busWrite 0xFF0F#16 v = { s with ifl := v.setWidth 5 } := rfl
@[simp] theorem busWrite_lcdc : s.busWrite 0xFF40#16 v = s.setPpu (s.ppu.writeLcdc v) := rfl
@[simp] theorem busWrite_stat : s.busWrite 0xFF41#16 v = s.setPpu (s.ppu.writeStat v) := rfl
@[simp] theorem busWrite_scy : s.busWrite 0xFF42#16 v = s.setPpu { s.ppu with scy := v } := rfl
@[simp] theorem busWrite_scx : s.busWrite 0xFF43#16 v = s.setPpu { s.ppu with scx := v } := rfl
@[simp] theorem busWrite_lyc : s.busWrite 0xFF45#16 v = s.setPpu { s.ppu with lyc := v } := rfl
@[simp] theorem busWrite_dma : s.busWrite 0xFF46#16 v = s.writeDma v := rfl
@[simp] theorem busWrite_wy : s.busWrite 0xFF4A#16 v = s.setPpu { s.ppu with wy := v } := rfl
@[simp] theorem busWrite_wx : s.busWrite 0xFF4B#16 v = s.setPpu { s.ppu with wx := v } := rfl
@[simp] theorem busWrite_ie : s.busWrite 0xFFFF#16 v = { s with ie := v } := rfl

theorem busRead_busWrite_whole : ∀ a ∈ wholeRegisters, (s.busWrite a v).busRead a = v := by
  simp [wholeRegisters, Timer.writeTima]

theorem busRead_busWrite_tac : (s.busWrite 0xFF07#16 v).busRead 0xFF07#16 &&& 0x07#8 = v &&& 0x07#8 := tacByte_stored v

theorem busRead_busWrite_ifl : (s.busWrite 0xFF0F#16 v).busRead 0xFF0F#16 &&& 0x1F#8 = v &&& 0x1F#8 := iflByte_stored v

theorem busRead_busWrite_stat : (s.busWrite 0xFF41#16 v).busRead 0xFF41#16 &&& 0x78#8 = v &&& 0x78#8 :=
  s.ppu.statRead_writeStat v

/-- A register is one of `wholeRegisters`, read through the full mask, or TAC, IF or STAT with the mask of its bits. -/
theorem busRead_busWrite_masked {a : Word} {mask : Byte}
    (h : a ∈ wholeRegisters ∨ (a, mask) ∈ [(0xFF07#16, 0x07#8), (0xFF0F#16, 0x1F#8), (0xFF41#16, 0x78#8)]) :
    (s.busWrite a v).busRead a &&& mask = v &&& mask := by
  rcases h with h | h
  · rw [s.busRead_busWrite_whole v a h]
  · simp only [List.mem_cons, Prod.mk.injEq, List.not_mem_nil, or_false] at h
    obtain ⟨rfl, rfl⟩ | ⟨rfl, rfl⟩ | ⟨rfl, rfl⟩ := h
    · exact s.busRead_busWrite_tac v
    · exact s.busRead_busWrite_ifl v
    · exact s.busRead_busWrite_stat v

end State

/-- Settles O44: `busRead_busWrite_masked`, and the reads of each address. -/
theorem registerRoundTrip : Obligations.RegisterRoundTrip := fun s v => by
  refine ⟨fun a mask h => s.busRead_busWrite_masked v ?_, tacByte_high _, iflByte_high _, s.ppu.statRead_high,
    hiByte_toNat _, s.busRead_tima, s.busRead_tma, tacByte_toNat _, s.ppu.statRead_stat, s.ppu.statRead_coincidence,
    s.ppu.statRead_mod.trans s.ppu.statMode_toNat, s.busRead_lcdc, s.busRead_scy, s.busRead_scx, s.busRead_lyc,
    s.busRead_dma, s.busRead_wy, s.busRead_wx⟩
  revert h
  simp only [List.mem_cons, Prod.mk.injEq, List.not_mem_nil, or_false, wholeRegisters]
  tauto

end Sys2Proof.Machine
end

section
/-! SUPPORT. The fetch under the halt bug (rules R31, R347), and the statement about it. -/

namespace Sys2Proof.Machine

namespace State

variable {s : State} {i : Instr}

theorem fetchedInstr_of_haltBug {rest : List Byte} (hb : s.haltBug = true)
    (hd : decode [s.busRead s.pc, s.busRead s.pc, s.busRead (s.pc + 1#16)] = .ok (i, rest)) : s.fetchedInstr = i := by
  rw [fetchedInstr, if_pos hb]
  exact decodeBytes_of_decode hd

theorem fetched_of_haltBug (hb : s.haltBug = true) (hl : i.illegalByte = none) :
    s.fetched i = { s with pc := s.pc + BitVec.ofNat 16 (i.length - 1), haltBug := false } := by
  rw [fetched, fetchLength, hl, if_pos hb]
  rfl

end State

/-- Settles O34: `step_exec` at the instruction and the state that a fetch under the halt bug gives. -/
theorem haltBugFetch : Obligations.HaltBugFetch := fun s t i rest hr hp hb hd hl hx => by
  rw [← State.fetched_of_haltBug hb hl] at hx
  exact s.step_exec hr hp (State.fetchedInstr_of_haltBug hb hd) hl hx

end Sys2Proof.Machine
end

section
/-! SUPPORT. What leaves the bus alone (rules R20, R103 to R105): an instruction that makes no bus write keeps everything outside
the CPU, and the two statements about what reads as before. -/

namespace Sys2Proof.Machine

/-- A read looks at nothing of the CPU. -/
theorem State.busRead_of_sameDevices {u t : State} (h : u.sameDevices t) (a : Word) : t.busRead a = u.busRead a := by
  rw [State.sameDevices] at h
  rw [h]
  rfl

/-- A conditional instruction that keeps the devices whether it is taken or not. -/
theorem State.sameDevices_taken_or_not {s x y : State} {c : Bool} (hx : s.sameDevices x) (hy : s.sameDevices y) :
    ∃ t, (if c = true then .next x else .next y : Result) = .next t ∧ s.sameDevices t := by
  cases c
  · exact ⟨y, rfl, hy⟩
  · exact ⟨x, rfl, hx⟩

/-- An instruction that makes no bus write, and is not STOP, changes the CPU only. -/
theorem exec_sameDevices {i : Instr} (s : State) (h : writesBus i = false) :
    ∃ t, exec i s = .next t ∧ s.sameDevices t := by
  cases i
  case ldHlR | ldHlN | ldBcA | ldDeA | ldNnA | ldhCA | ldhNA | ldHlDecA | ldHlIncA | ldNnSp | push | incHl | decHl | rlcHl
    | rrcHl | rlHl | rrHl | slaHl | sraHl | swapHl | srlHl | resHl | setHl | callNn | callCcNn | rst | stop => cases h
  case jpCcNn | jrCcE | retCc => exact State.sameDevices_taken_or_not rfl rfl
  case ldRrNn p _ | incRr p | decRr p =>
    refine ⟨_, rfl, ?_⟩
    rw [s.setRP_eq p]
    rfl
  case pop q =>
    refine ⟨_, rfl, ?_⟩
    rw [s.popSp.setRP2_eq q]
    rfl
  case halt =>
    refine ⟨_, rfl, ?_⟩
    rw [s.halt_eq]
    rfl
  all_goals exact ⟨_, rfl, rfl⟩

/-- Settles O32: such an instruction keeps the devices, and a read looks at nothing else. -/
theorem memoryOnlyByStores : Obligations.MemoryOnlyByStores := fun _ s hi =>
  have ⟨t, ht, same⟩ := exec_sameDevices s hi
  ⟨t, ht, State.busRead_of_sameDevices same⟩

/-- Settles O41: `busWrite_frame` for the reads, and the CPU's fields one by one. -/
theorem busFrame : Obligations.BusFrame := fun s a v =>
  ⟨s.storedAt_busWrite a v, s.busWrite_regs a v, s.busWrite_flags a v, s.busWrite_sp a v, s.busWrite_pc a v,
    s.busWrite_cycles a v⟩

end Sys2Proof.Machine
end

section
/-! SUPPORT. The addresses with storage (rules R74 to R79, R82, R88, R90, R91): where a read and a write reach the byte of memory,
where they are blocked, and the statements about reading back, the echo and the blocks. -/

namespace Sys2Proof.Machine

namespace State

variable (s : State) (a : Word) (v : Byte)

/-- VRAM, WRAM, the echo, OAM or HRAM, with nothing blocking it (rule R74). -/
def storageOpen : Prop :=
  targetOf a = .wram ∨ targetOf a = .echo ∨ targetOf a = .hram ∨ (targetOf a = .vram ∧ s.vramBlocked = false) ∨
    (targetOf a = .oam ∧ s.oamBlocked = false)

/-- VRAM or OAM while it is blocked (rules R88, R90). -/
def storageBlocked : Prop := (targetOf a = .vram ∧ s.vramBlocked = true) ∨ (targetOf a = .oam ∧ s.oamBlocked = true)

variable {s a}

/-- An open address answers from memory and takes a store (rules R76 to R79, R82). -/
theorem bus_of_open (h : s.storageOpen a) :
    s.busRead a = s.mem.read (storageKey a) ∧ ∀ v, s.busWrite a v = s.store a v := by
  obtain h | h | h | ⟨h, hb⟩ | ⟨h, hb⟩ := h
  · simp [busRead, busWrite, h]
  · simp [busRead, busWrite, h]
  · simp [busRead, busWrite, h]
  · simp [busRead, busWrite, h, hb]
  · simp [busRead, busWrite, h, hb]

theorem busRead_of_open (h : s.storageOpen a) : s.busRead a = s.mem.read (storageKey a) := (bus_of_open h).1

theorem busWrite_of_open (h : s.storageOpen a) : s.busWrite a v = s.store a v := (bus_of_open h).2 v

/-- A blocked access reads the blocked value and drops the write. -/
theorem bus_of_blocked (h : s.storageBlocked a) : s.busRead a = s.par.blockedValue ∧ s.busWrite a v = s := by
  obtain ⟨h, hb⟩ | ⟨h, hb⟩ := h
  · simp only [busRead, busWrite, h, hb, if_true, and_self]
  · simp only [busRead, busWrite, h, hb, if_true, and_self]

/-- Outside the echo the byte of memory is the one at the bus address. -/
theorem bus_at_open (h : s.storageOpen a) (ha : a.toNat < 0xE000 ∨ 0xFE00 ≤ a.toNat) :
    s.busRead a = s.mem.read a.toNat ∧ s.busWrite a v = { s with mem := s.mem.write a.toNat v } := by
  rw [busRead_of_open h, busWrite_of_open v h, store, storageKey_self ha]
  exact ⟨rfl, rfl⟩

/-- A stored byte is read back: a store does not close the address it went to. -/
theorem busRead_busWrite_of_open (hw : s.mem.wf = true) (h : s.storageOpen a) : (s.busWrite a v).busRead a = v := by
  have still : (s.store a v).storageOpen a := h
  rw [busWrite_of_open v h, busRead_of_open still]
  exact Mem.read_write_eq _ v hw

/-! Where an address is open or blocked, by the registers of the PPU and the DMA unit. -/

variable (s)

theorem vramBlocked_iff : s.vramBlocked = true ↔ s.ppu.lcdc.getLsbD 7 = true ∧ s.ppu.mode = .pixelTransfer := by
  simp only [vramBlocked, Ppu.lcdOn, Bool.and_eq_true, decide_eq_true_eq]

theorem oamBlocked_iff :
    s.oamBlocked = true ↔
      s.dma.active = true ∨ (s.ppu.lcdc.getLsbD 7 = true ∧ (s.ppu.mode = .oamScan ∨ s.ppu.mode = .pixelTransfer)) := by
  simp only [oamBlocked, Ppu.lcdOn, Bool.or_eq_true, Bool.and_eq_true, decide_eq_true_eq]

variable {s}

theorem vramBlocked_eq_false (h : s.ppu.lcdc.getLsbD 7 = false ∨ s.ppu.mode ≠ .pixelTransfer) : s.vramBlocked = false := by
  rw [Bool.eq_false_iff, ne_eq, vramBlocked_iff]
  rintro ⟨on, mode⟩
  rcases h with off | other
  · exact Bool.eq_false_iff.1 off on
  · exact other mode

theorem oamBlocked_eq_false (hd : s.dma.active = false)
    (h : s.ppu.lcdc.getLsbD 7 = false ∨ s.ppu.mode = .hblank ∨ s.ppu.mode = .vblank) : s.oamBlocked = false := by
  rw [Bool.eq_false_iff, ne_eq, oamBlocked_iff]
  rintro (active | ⟨on, mode⟩)
  · exact Bool.eq_false_iff.1 hd active
  · rcases h with off | other
    · exact Bool.eq_false_iff.1 off on
    · rcases other with e | e <;> simp [e] at mode

theorem open_of_vram (h : 0x8000 ≤ a.toNat ∧ a.toNat ≤ 0x9FFF)
    (hb : s.ppu.lcdc.getLsbD 7 = false ∨ s.ppu.mode ≠ .pixelTransfer) : s.storageOpen a :=
  .inr (.inr (.inr (.inl ⟨targetOf_vram.2 h, vramBlocked_eq_false hb⟩)))

theorem open_of_oam (h : 0xFE00 ≤ a.toNat ∧ a.toNat ≤ 0xFE9F) (hd : s.dma.active = false)
    (hb : s.ppu.lcdc.getLsbD 7 = false ∨ s.ppu.mode = .hblank ∨ s.ppu.mode = .vblank) : s.storageOpen a :=
  .inr (.inr (.inr (.inr ⟨targetOf_oam.2 h, oamBlocked_eq_false hd hb⟩)))

theorem open_of_wram (h : 0xC000 ≤ a.toNat ∧ a.toNat ≤ 0xDFFF) : s.storageOpen a := .inl (targetOf_wram.2 h)

theorem open_of_echo (h : 0xE000 ≤ a.toNat ∧ a.toNat ≤ 0xFDFF) : s.storageOpen a := .inr (.inl (targetOf_echo.2 h))

theorem open_of_hram (h : 0xFF80 ≤ a.toNat ∧ a.toNat ≤ 0xFFFE) : s.storageOpen a :=
  .inr (.inr (.inl (targetOf_hram_of h.1 h.2)))

end State

/-- An echo address and the one 0x2000 lower have one storage byte (rule R78). -/
theorem echo_sub_toNat {a : Word} (h : 0xE000 ≤ a.toNat) : (a - 0x2000#16).toNat = a.toNat - 0x2000 := by
  refine BitVec.toNat_sub_of_le ?_
  rw [BitVec.le_def]
  exact Nat.le_trans (by decide) h

/-- Settles O42: each range is open, so the byte of memory answers and a stored byte is read back. -/
theorem storeThenRead : Obligations.StoreThenRead := fun s a v => by
  refine ⟨fun h => ?_, fun hw h => State.busRead_busWrite_of_open v hw ?_⟩
  · rcases h with wram | hram
    · exact State.bus_at_open v (State.open_of_wram wram) (by omega)
    · exact State.bus_at_open v (State.open_of_hram hram) (by omega)
  · obtain ⟨lo, hi⟩ | hram | ⟨lo, hi, unblocked⟩ | ⟨lo, hi, noDma, unblocked⟩ := h
    · by_cases wram : a.toNat ≤ 0xDFFF
      · exact State.open_of_wram ⟨lo, wram⟩
      · exact State.open_of_echo ⟨by omega, hi⟩
    · exact State.open_of_hram hram
    · exact State.open_of_vram ⟨lo, hi⟩ unblocked
    · exact State.open_of_oam ⟨lo, hi⟩ noDma unblocked

/-- Settles O43: both addresses are always open, and `storageKey` gives them the same byte of memory. -/
theorem echoIsWorkRam : Obligations.EchoIsWorkRam := fun s a lo hi => by
  have low := echo_sub_toNat lo
  have key : storageKey a = storageKey (a - 0x2000#16) := by
    rw [storageKey_self (a := a - 0x2000#16) (by omega), low, storageKey, if_pos (by omega)]
  have echo : s.storageOpen a := State.open_of_echo ⟨lo, hi⟩
  have wram : s.storageOpen (a - 0x2000#16) := State.open_of_wram (by omega)
  refine ⟨?_, fun v => ?_⟩
  · rw [State.busRead_of_open echo, State.busRead_of_open wram, key]
  · rw [State.busWrite_of_open v echo, State.busWrite_of_open v wram, State.store, State.store, key]

/-- Settles O45: VRAM and OAM are open or blocked as `vramBlocked` and `oamBlocked` say. -/
theorem blockedAccess : Obligations.BlockedAccess := fun s a v => by
  refine ⟨fun lo hi => ⟨fun on mode => ?_, fun unblocked => ?_⟩, fun lo hi => ⟨fun blocked => ?_, fun noDma unblocked => ?_⟩⟩
  · exact State.bus_of_blocked v (.inl ⟨targetOf_vram.2 ⟨lo, hi⟩, s.vramBlocked_iff.2 ⟨on, mode⟩⟩)
  · have ⟨read, write⟩ := State.bus_at_open v (State.open_of_vram ⟨lo, hi⟩ unblocked) (by omega)
    exact ⟨read, congrArg State.mem write⟩
  · exact State.bus_of_blocked v (.inr ⟨targetOf_oam.2 ⟨lo, hi⟩, s.oamBlocked_iff.2 blocked⟩)
  · have ⟨read, write⟩ := State.bus_at_open v (State.open_of_oam ⟨lo, hi⟩ noDma unblocked) (by omega)
    exact ⟨read, congrArg State.mem write⟩

end Sys2Proof.Machine
end

section
/-! SUPPORT. The ports (rules R43, R73, R75, R80, R84 to R87): what the cartridge, the joypad, the external device and the
addresses of nothing read and what they do with a write, and the statement about them. -/

namespace Sys2Proof.Machine

/-! The byte of the conventional joypad (rule R85). -/

theorem joyRead_pad_select (sel : BitVec 2) (dirs btns : BitVec 4) :
    (joyRead (.pad sel dirs btns)).toNat / 16 = 12 + sel.toNat := by
  have upper : ∀ (sel : BitVec 2) (nibble : BitVec 4), (3#2 ++ sel ++ nibble : Byte).toNat / 16 = 12 + sel.toNat := by decide
  exact upper sel _

/-- A nibble with its select line high reads all lines high. -/
theorem selected_getLsbD (line : Bool) (nibble : BitVec 4) {j : Nat} (hj : j < 4) :
    (if line then 0xF#4 else nibble).getLsbD j = (line || nibble.getLsbD j) := by
  cases line
  · rfl
  · exact (BitVec.getLsbD_allOnes (v := 4)).trans (decide_eq_true hj)

theorem joyRead_pad_line (sel : BitVec 2) (dirs btns : BitVec 4) {j : Nat} (hj : j < 4) :
    (joyRead (.pad sel dirs btns)).getLsbD j =
      ((sel.getLsbD 0 || dirs.getLsbD j) && (sel.getLsbD 1 || btns.getLsbD j)) := by
  rw [joyRead, BitVec.getLsbD_append, if_pos hj, BitVec.getLsbD_and, selected_getLsbD _ _ hj, selected_getLsbD _ _ hj]

theorem joyWrite_pad_select (v : Byte) : (v.extractLsb' 4 2).toNat = v.toNat / 16 % 4 := by
  rw [BitVec.extractLsb'_toNat, Nat.shiftRight_eq_div_pow]

/-- The addresses of registers on the I/O page, but for the joypad's (rules R81, R84). -/
def ioRegisters : List Nat :=
  [0xFF04, 0xFF05, 0xFF06, 0xFF07, 0xFF0F, 0xFF40, 0xFF41, 0xFF42, 0xFF43, 0xFF44, 0xFF45, 0xFF46, 0xFF4A, 0xFF4B]

theorem Target.address_of_register {t : Target} (h : t.isRegister = true) :
    t.address.toNat = 0xFFFF ∨ t.address.toNat = 0xFF00 ∨ t.address.toNat ∈ ioRegisters := by
  cases t
  case cart | vram | wram | echo | oam | unusable | hram | ext => cases h
  all_goals decide

theorem targetOf_ext_of_notMem {a : Word} (lo : 0xFF00 < a.toNat) (hi : a.toNat ≤ 0xFF7F) (h : a.toNat ∉ ioRegisters) :
    targetOf a = .ext := by
  refine targetOf_ext_of lo hi fun t register e => ?_
  subst e
  rcases Target.address_of_register register with ie | joyp | other
  · omega
  · omega
  · exact h other

namespace State

variable (s : State) {a : Word} (v : Byte)

@[simp] theorem busRead_joyp : s.busRead 0xFF00#16 = joyRead s.joy := rfl
@[simp] theorem busWrite_joyp : s.busWrite 0xFF00#16 v = { s with joy := joyWrite s.joy v } := rfl
@[simp] theorem busRead_ly : s.busRead 0xFF44#16 = s.ppu.ly := rfl
@[simp] theorem busWrite_ly : s.busWrite 0xFF44#16 v = s := rfl

variable {s}

theorem bus_unusable (h : targetOf a = .unusable) : s.busRead a = s.par.openBus ∧ s.busWrite a v = s := by
  simp only [busRead, busWrite, h, and_self]

/-! The cartridge, by its kind. -/

theorem busRead_cart (h : targetOf a = .cart) : s.busRead a = s.cartRead a := by simp only [busRead, h]

theorem busWrite_cart (h : targetOf a = .cart) : s.busWrite a v = s.cartWrite a v := by simp only [busWrite, h]

theorem bus_rom (h : a.toNat ≤ 0x7FFF) (hc : s.cart = .flatRom ∨ s.cart = .romRam) :
    s.busRead a = s.mem.read a.toNat ∧ s.busWrite a v = s := by
  have cart := targetOf_cart_of (.inl h)
  have low : a.toNat < 0x8000 := by omega
  rw [busRead_cart cart, busWrite_cart v cart, cartRead, cartWrite]
  rcases hc with hc | hc <;> simp only [hc, if_pos low, and_self]

theorem bus_noRam (h : 0xA000 ≤ a.toNat ∧ a.toNat ≤ 0xBFFF) (hc : s.cart = .flatRom) :
    s.busRead a = s.par.openBus ∧ s.busWrite a v = s := by
  have cart := targetOf_cart_of (.inr h)
  have high : ¬ a.toNat < 0x8000 := by omega
  rw [busRead_cart cart, busWrite_cart v cart, cartRead, cartWrite]
  simp only [hc, if_neg high, and_self]

theorem bus_ram (h : 0xA000 ≤ a.toNat ∧ a.toNat ≤ 0xBFFF) (hc : s.cart = .romRam) :
    s.busRead a = s.mem.read a.toNat ∧ s.busWrite a v = { s with mem := s.mem.write a.toNat v } := by
  have cart := targetOf_cart_of (.inr h)
  have high : ¬ a.toNat < 0x8000 := by omega
  rw [busRead_cart cart, busWrite_cart v cart, cartRead, cartWrite]
  simp only [hc, if_neg high, and_self]

theorem bus_mapper (h : targetOf a = .cart) {k : Nat} {st : List Byte} (hc : s.cart = .mapper k st) :
    s.busRead a = Config.cartRead k st a ∧ s.busWrite a v = { s with cart := .mapper k (Config.cartWrite k st a v) } := by
  rw [busRead_cart h, busWrite_cart v h, cartRead, cartWrite]
  simp only [hc, and_self]

/-! The external port, by what is behind it. -/

theorem bus_extNull (h : targetOf a = .ext) (he : s.ext = .null) : s.busRead a = s.par.openBus ∧ s.busWrite a v = s := by
  simp only [busRead, busWrite, h, extRead, he, extWrite, true_and]
  rw [← he]

theorem bus_extDevice (h : targetOf a = .ext) {k : Nat} {st : List Byte} (he : s.ext = .device k st) :
    s.busRead a = Config.extRead k st a ∧ s.busWrite a v = { s with ext := .device k (Config.extWrite k st a v) } := by
  simp only [busRead, busWrite, h, extRead, he, extWrite, and_self]

end State

/-- Settles O46: one lemma per row of the address map and per kind of collaborator. -/
theorem unansweredAccess : Obligations.UnansweredAccess := fun s a v => by
  refine ⟨fun lo hi => State.bus_unusable v (targetOf_unusable.2 ⟨lo, hi⟩), s.busRead_ly, s.busWrite_ly v,
    fun sel dirs btns pad => ?_, fun k st device => ?_, fun lo hi other => ?_, fun rom kind => State.bus_rom v rom kind,
    fun lo hi => ⟨State.bus_noRam v ⟨lo, hi⟩, State.bus_ram v ⟨lo, hi⟩⟩,
    fun range k st => State.bus_mapper v (targetOf_cart_of range)⟩
  · rw [s.busRead_joyp, s.busWrite_joyp, pad]
    exact ⟨fun j hj => joyRead_pad_line sel dirs btns hj, joyRead_pad_select sel dirs btns, _, joyWrite_pad_select v, rfl⟩
  · rw [s.busRead_joyp, s.busWrite_joyp, device]
    exact ⟨rfl, rfl⟩
  · have ext := targetOf_ext_of_notMem lo hi other
    exact ⟨State.bus_extNull v ext, fun k st => State.bus_extDevice v ext⟩

end Sys2Proof.Machine
end

section
/-! SUPPORT. The OAM DMA (rules R93 to R99): the bytes copied so far, the unit's counters as a function of the cycles since the
write, and the statements about the two policies. -/

namespace Sys2Proof.Machine

theorem dmaBase_add (v : Byte) (i : Nat) : dmaBase v + BitVec.ofNat 16 i = BitVec.ofNat 16 (256 * v.toNat + i) := by
  apply BitVec.eq_of_toNat_eq
  rw [BitVec.toNat_add, dmaBase, cat_toNat, BitVec.toNat_ofNat, BitVec.toNat_ofNat, BitVec.toNat_ofNat]
  omega

namespace State

variable (s : State) {a : Word}

/-! What the DMA unit reads (rule R94). -/

theorem dmaSrcRead_cart (h : a.toNat ≤ 0x7FFF ∨ (0xA000 ≤ a.toNat ∧ a.toNat ≤ 0xBFFF)) : s.dmaSrcRead a = s.busRead a := by
  rw [busRead_cart (targetOf_cart_of h), dmaSrcRead]
  rcases h with rom | ram
  · rw [if_pos (by omega)]
  · rw [if_neg (by omega), if_neg (by omega), if_pos (by omega)]

theorem dmaSrcRead_stored (h : (0x8000 ≤ a.toNat ∧ a.toNat ≤ 0x9FFF) ∨ (0xC000 ≤ a.toNat ∧ a.toNat ≤ 0xDFFF)) :
    s.dmaSrcRead a = s.mem.read a.toNat := by
  rw [dmaSrcRead]
  rcases h with vram | wram
  · rw [if_neg (by omega), if_pos (by omega)]
  · have row : 0xC000 + (a.toNat - 0xC000) % 0x2000 = a.toNat := by omega
    rw [if_neg (by omega), if_neg (by omega), if_neg (by omega), row]

theorem dmaSrcRead_high (h : 0xE000 ≤ a.toNat) : s.dmaSrcRead a = s.mem.read (a.toNat - 0x2000) := by
  have top := a.isLt
  have row : 0xC000 + (a.toNat - 0xC000) % 0x2000 = a.toNat - 0x2000 := by omega
  rw [dmaSrcRead, if_neg (by omega), if_neg (by omega), if_neg (by omega), row]

theorem writeDma_instant (v : Byte) (h : s.par.dmaPolicy = .instant) :
    s.writeDma v = dmaCopy (dmaBase v) 160 0 { s with dma := { s.dma with reg := v } } := by simp only [writeDma, h]

/-- `t` is `s` after the first `m` bytes of a transfer from `base`, whatever the DMA unit holds. -/
structure Copied (base : Word) (m : Nat) (t : State) : Prop where
  same : t = { s with dma := t.dma, mem := t.mem }
  wf : t.mem.wf = true
  oam : ∀ i, i < 160 → t.mem.read (0xFE00 + i) =
    if i < m then s.dmaSrcRead (base + BitVec.ofNat 16 i) else s.mem.read (0xFE00 + i)
  other : ∀ k, k < 0xFE00 ∨ 0xFEA0 ≤ k → t.mem.read k = s.mem.read k

namespace Copied

variable {s} {base : Word} {m : Nat} {t u : State}

theorem start (hw : s.mem.wf = true) (hu : u = { s with dma := u.dma }) : s.Copied base 0 u := by
  rw [hu]
  exact ⟨rfl, hw, fun i _ => (if_neg (Nat.not_lt_zero i)).symm, fun _ _ => rfl⟩

/-- The DMA unit's own fields do not matter. -/
theorem congr (h : s.Copied base m t) (hu : u = { t with dma := u.dma }) : s.Copied base m u := by
  have mem : u.mem = t.mem := by rw [hu]
  refine ⟨?_, mem ▸ h.wf, mem ▸ h.oam, mem ▸ h.other⟩
  rw [hu, h.same]

/-- One byte more: its source is not in OAM, so it is still what `s` reads there. -/
theorem succ (h : s.Copied base m t) (hm : m < 160) : s.Copied base (m + 1) (t.dmaCopyByte base m) := by
  have source : t.dmaSrcRead (base + BitVec.ofNat 16 m) = s.dmaSrcRead (base + BitVec.ofNat 16 m) :=
    dmaSrcRead_of_read (by rw [h.same]) (by rw [h.same]) h.other _
  refine ⟨?_, Mem.wf_write _ _ h.wf, fun i hi => ?_, fun k hk => ?_⟩
  · rw [dmaCopyByte, h.same]
  · rw [dmaCopyByte_mem, source]
    by_cases new : i = m
    · rw [new, Mem.read_write_eq _ _ h.wf, if_pos (Nat.lt_succ_self m)]
    · rw [Mem.read_write_other _ _ (by omega), h.oam i hi]
      exact if_congr (by omega) rfl rfl
  · rw [dmaCopyByte_mem, Mem.read_write_other _ _ (by omega), h.other k hk]

end Copied

end State

/-- Settles O56: the laws' `dmaCopy_read` and `dmaCopy_read_other` for the transfer, and the source map row by row. -/
theorem dmaInstant : Obligations.DmaInstant := by
  refine ⟨fun s v hw instant => ?_, fun s a => ⟨s.dmaSrcRead_cart, s.dmaSrcRead_stored, s.dmaSrcRead_high⟩⟩
  simp only [State.busWrite_dma, s.writeDma_instant v instant]
  refine ⟨State.dmaCopy_sameButMem _ _ _ _, fun i hi => ?_, fun k hk => State.dmaCopy_read_other _ _ _ _ (by omega)⟩
  rw [← dmaBase_add]
  exact State.dmaCopy_read (dmaBase v) 160 0 _ hw (Nat.zero_le i) (by omega) (by omega)

/-! The policy Gradual: the unit's counters, and a tick in terms of them. -/

namespace Dma

/-- The tick that ends a byte's four cycles (rule R96). -/
def copies (d : Dma) : Bool := decide (d.delay = 0) && d.active && decide (d.sub + 1 = 4)

/-- The unit's own fields after a tick under Gradual (rule R96). -/
def tick (d : Dma) : Dma :=
  if d.delay > 0 then { d with delay := d.delay - 1, active := d.active || decide (d.delay = 1) }
  else if d.active then
    if d.sub + 1 = 4 then { d with sub := 0, idx := d.idx + 1, active := decide (d.idx + 1 ≠ 160) }
    else { d with sub := d.sub + 1 }
  else d

theorem tick_idx (d : Dma) : d.tick.idx = if d.copies then d.idx + 1 else d.idx := by
  unfold tick copies
  by_cases delay : d.delay > 0
  · have : d.delay ≠ 0 := by omega
    simp [delay, this]
  · have : d.delay = 0 := by omega
    cases active : d.active
    · simp [this]
    · by_cases sub : d.sub + 1 = 4 <;> simp [this, sub]

/-- The unit `n` cycles after a write of `v` with a delay of `d` (rules R95, R96). -/
def afterWrite (v : Byte) (d n : Nat) : Dma where
  reg := v
  active := decide (d ≤ n ∧ n < d + 640)
  delay := d - n
  src := dmaBase v
  idx := min (n - d) 640 / 4
  sub := min (n - d) 640 % 4

theorem afterWrite_tick (v : Byte) (d n : Nat) : (afterWrite v d n).tick = afterWrite v d (n + 1) := by
  unfold tick afterWrite
  by_cases waiting : n < d
  · have delay : d - n > 0 := by omega
    simp only [if_pos delay, ← Bool.decide_or, mk.injEq, true_and]
    exact ⟨decide_eq_decide.2 (by omega), by omega, by omega, by omega⟩
  · have delay : ¬ d - n > 0 := by omega
    by_cases running : n < d + 640
    · have active : d ≤ n ∧ n < d + 640 := by omega
      simp only [if_neg delay, decide_eq_true active, if_true]
      by_cases last : min (n - d) 640 % 4 + 1 = 4
      · simp only [if_pos last, mk.injEq, true_and]
        exact ⟨decide_eq_decide.2 (by omega), by omega, by omega, by omega⟩
      · simp only [if_neg last, mk.injEq, true_and]
        exact ⟨(decide_eq_true (by omega)).symm, by omega, by omega, by omega⟩
    · have inactive : ¬ (d ≤ n ∧ n < d + 640) := by omega
      simp only [if_neg delay, decide_eq_false inactive, Bool.false_eq_true, if_false, mk.injEq, true_and]
      exact ⟨(decide_eq_false (by omega)).symm, by omega, by omega, by omega⟩

/-- A byte is copied only while one is left. -/
theorem afterWrite_copies {v : Byte} {d n : Nat} (h : (afterWrite v d n).copies = true) : (afterWrite v d n).idx < 160 := by
  simp only [copies, afterWrite, Bool.and_eq_true, decide_eq_true_eq] at h ⊢
  omega

/-- Byte `i` has been copied once its four cycles are over. -/
theorem lt_afterWrite_idx (v : Byte) (d n : Nat) {i : Nat} (hi : i < 160) :
    i < (afterWrite v d n).idx ↔ d + 4 * (i + 1) ≤ n := by
  simp only [afterWrite]
  omega

end Dma

namespace State

variable (s : State)

theorem dmaTick_gradual (h : s.par.dmaPolicy = .gradual) :
    s.dmaTick =
      { s with
        dma := s.dma.tick
        mem := if s.dma.copies then (s.dmaCopyByte s.dma.src s.dma.idx).mem else s.mem } := by
  unfold dmaTick Dma.tick Dma.copies
  rw [h]
  by_cases delay : s.dma.delay > 0
  · have : s.dma.delay ≠ 0 := by omega
    simp [delay, this]
  · have : s.dma.delay = 0 := by omega
    cases active : s.dma.active
    · simp [this]
    · by_cases sub : s.dma.sub + 1 = 4 <;> simp [this, active, sub, dmaCopyByte]

variable {s}

/-- A tick in the course of a transfer: the bytes copied are those the unit counts. -/
theorem Copied.tick {t : State} (h : s.Copied t.dma.src t.dma.idx t) (gradual : t.par.dmaPolicy = .gradual)
    (left : t.dma.copies = true → t.dma.idx < 160) : s.Copied t.dma.src t.dmaTick.dma.idx t.dmaTick := by
  have idx : t.dmaTick.dma.idx = if t.dma.copies then t.dma.idx + 1 else t.dma.idx := by
    rw [dmaTick_gradual t gradual]
    exact t.dma.tick_idx
  rw [idx]
  cases copies : t.dma.copies
  · refine h.congr ?_
    rw [dmaTick_gradual t gradual, copies]
    rfl
  · refine (h.succ (left copies)).congr ?_
    rw [dmaTick_gradual t gradual, copies]
    rfl

/-- The state `n` cycles after a write to DMA under Gradual: the unit's fields, and the bytes it counts copied. -/
theorem repeat_dmaTick_writeDma {v : Byte} (hw : s.mem.wf = true) (gradual : s.par.dmaPolicy = .gradual) (n : Nat) :
    let t := Nat.repeat dmaTick n (s.writeDma v)
    t.dma = Dma.afterWrite v s.par.dmaStartDelay n ∧ s.Copied (dmaBase v) t.dma.idx t := by
  induction n with
  | zero =>
    simp only [Nat.repeat, writeDma, gradual]
    refine ⟨?_, .start hw rfl⟩
    simp only [Dma.afterWrite, Dma.mk.injEq, true_and]
    exact ⟨decide_eq_decide.2 (by omega), by omega, by omega, by omega⟩
  | succ n ih =>
    simp only [Nat.repeat] at ih ⊢
    obtain ⟨unit, copied⟩ := ih
    generalize Nat.repeat dmaTick n (s.writeDma v) = t at unit copied ⊢
    have gradual' : t.par.dmaPolicy = .gradual := by
      rw [copied.same]
      exact gradual
    have base : t.dma.src = dmaBase v := by rw [unit, Dma.afterWrite]
    refine ⟨?_, base ▸ Copied.tick (base ▸ copied) gradual' fun copies => ?_⟩
    · rw [dmaTick_gradual t gradual', unit]
      exact Dma.afterWrite_tick v _ n
    · rw [unit] at copies ⊢
      exact Dma.afterWrite_copies copies

end State

/-- Settles O57, by induction on the cycles since the write (`repeat_dmaTick_writeDma`). -/
theorem dmaGradual : Obligations.DmaGradual := fun s v n hw gradual => by
  obtain ⟨unit, copied⟩ := State.repeat_dmaTick_writeDma (v := v) hw gradual n
  rw [State.busWrite_dma]
  refine ⟨copied.same, by rw [unit, Dma.afterWrite], ?_, fun i hi => ?_, copied.other⟩
  · rw [unit, Dma.afterWrite, decide_eq_true_eq]
  · rw [copied.oam i hi, unit, dmaBase_add]
    exact if_congr (Dma.lt_afterWrite_idx v _ n hi) rfl rfl

end Sys2Proof.Machine
end

section
/-! SUPPORT. The encoding (rules R131, R142, R143): the instruction decoded from three bytes has its own bytes in front of them,
and every well-formed instruction is decoded from its own bytes; and the statements about the two directions. -/

namespace Sys2Proof

theorem length_encode (i : Instr) : (encode i).length = i.length := by cases i <;> rfl

/-! Any three bytes, by the length that the first of them gives. -/

/-- `i` is an instruction whose bytes are in front of `op`, `b1`, `b2`, as many as `op` alone says (rule R142). -/
structure FrontOf (op b1 b2 : Byte) (i : Instr) : Prop where
  wf : i.wellFormed = true
  length : i.length = opLength op
  front : encode i <+: [op, b1, b2]

theorem FrontOf.encode_eq {op b1 b2 : Byte} {i : Instr} (h : FrontOf op b1 b2 i) :
    encode i = [op, b1, b2].take (opLength op) := by
  rw [← h.length, ← length_encode]
  exact List.prefix_iff_eq_take.1 h.front

section Rows

variable {op : Byte} (b1 b2 : Byte)

/-- The rows without an operand byte: the decoder looks at none (`decodeBytes_short`). -/
theorem decodeBytes_frontOf_one (h : opLength op = 1) : FrontOf op b1 b2 (decodeBytes op b1 b2) := by
  have row : ∀ op : Byte, opLength op = 1 →
      (decodeBytes op 0 0).wellFormed = true ∧ encode (decodeBytes op 0 0) = [op] := by
    decide +kernel
  obtain ⟨wf, bytes⟩ := row op h
  rw [(decodeBytes_short op b1 b2).1 h]
  exact ⟨wf, rfl, [b1, b2], by rw [bytes]; rfl⟩

/-- After the prefix byte every byte is an instruction (rules R137, R139). -/
theorem decodeCb_frontOf : FrontOf 0xCB b1 b2 (decodeCb b1) := by
  have row : ∀ b : Byte, (decodeCb b).wellFormed = true ∧ (decodeCb b).length = 2 ∧ encode (decodeCb b) = [0xCB, b] := by
    decide +kernel
  obtain ⟨wf, length, bytes⟩ := row b1
  exact ⟨wf, length, [b2], by rw [bytes]; rfl⟩

/-- The first bytes of the rows with a byte operand. -/
def byteOperandOps : List Byte :=
  [0x06, 0x0E, 0x16, 0x1E, 0x26, 0x2E, 0x36, 0x3E, 0x10, 0x18, 0x20, 0x28, 0x30, 0x38,
   0xC6, 0xCE, 0xD6, 0xDE, 0xE6, 0xEE, 0xF6, 0xFE, 0xE0, 0xE8, 0xF0, 0xF8]

/-- The first bytes of the rows with a word operand. -/
def wordOperandOps : List Byte :=
  [0x01, 0x11, 0x21, 0x31, 0x08, 0xC2, 0xCA, 0xD2, 0xDA, 0xC3, 0xC4, 0xCC, 0xD4, 0xDC, 0xCD, 0xEA, 0xFA]

theorem opLength_cases : ∀ op : Byte,
    opLength op = 1 ∨ (opLength op = 2 ∧ (op = 0xCB ∨ op ∈ byteOperandOps)) ∨ (opLength op = 3 ∧ op ∈ wordOperandOps) := by
  decide +kernel

theorem decodeBytes_frontOf_byte (h : op ∈ byteOperandOps) : FrontOf op b1 b2 (decodeBytes op b1 b2) := by
  fin_cases h <;> exact ⟨rfl, rfl, [b2], rfl⟩

/-- The operand is the word of the two bytes, which `encode` takes apart again. -/
theorem decodeBytes_frontOf_word (h : op ∈ wordOperandOps) : FrontOf op b1 b2 (decodeBytes op b1 b2) := by
  have apart : [op, loByte (cat b2 b1), hiByte (cat b2 b1)] <+: [op, b1, b2] := by rw [loByte_cat, hiByte_cat]
  fin_cases h <;> exact ⟨rfl, rfl, apart⟩

end Rows

theorem decodeBytes_frontOf (op b1 b2 : Byte) : FrontOf op b1 b2 (decodeBytes op b1 b2) := by
  rcases opLength_cases op with one | ⟨-, rfl | byte⟩ | ⟨-, word⟩
  · exact decodeBytes_frontOf_one b1 b2 one
  · exact decodeCb_frontOf b1 b2
  · exact decodeBytes_frontOf_byte b1 b2 byte
  · exact decodeBytes_frontOf_word b1 b2 word

/-- Settles O2: `decodeBytes_frontOf`, by the length that the first byte gives. -/
theorem encodeDecode : Obligations.EncodeDecode := fun op b1 b2 =>
  have h := decodeBytes_frontOf op b1 b2
  ⟨h.wf, h.length, h.encode_eq⟩

/-! Every well-formed instruction. -/

/-- The bytes of `i`, with zeros after them, decode to `i`. -/
def DecodesBack (i : Instr) : Prop :=
  decodeBytes ((encode i).getD 0 0) ((encode i).getD 1 0) ((encode i).getD 2 0) = i

namespace DecodesBack

variable {i : Instr} {op b1 b2 : Byte}

theorem one (bytes : encode i = [op]) (decoded : decodeBytes op 0 0 = i) : DecodesBack i := by
  rw [DecodesBack, bytes]
  exact decoded

theorem two (bytes : encode i = [op, b1]) (decoded : decodeBytes op b1 0 = i) : DecodesBack i := by
  rw [DecodesBack, bytes]
  exact decoded

theorem three (bytes : encode i = [op, b1, b2]) (decoded : decodeBytes op b1 b2 = i) : DecodesBack i := by
  rw [DecodesBack, bytes]
  exact decoded

end DecodesBack

/-- By rows, and within a row by the codes its fields can take. -/
theorem decodesBack_of_wellFormed {i : Instr} (h : i.wellFormed = true) : DecodesBack i := by
  cases i with
  | ldRR rd rs => cases rd <;> cases rs <;> exact .one rfl rfl
  | ldRHl r | ldHlR r | incR r | decR r
  | addAR r | adcAR r | subAR r | sbcAR r | andAR r | xorAR r | orAR r | cpAR r => cases r <;> exact .one rfl rfl
  | addHlRr p | incRr p | decRr p | push p | pop p => cases p <;> exact .one rfl rfl
  | retCc cc => cases cc <;> exact .one rfl rfl
  | rst t =>
    rcases lt_eight (of_decide_eq_true h) with rfl | rfl | rfl | rfl | rfl | rfl | rfl | rfl <;> exact .one rfl rfl
  | ldRN r n => cases r <;> exact .two rfl rfl
  | jrCcE cc e => cases cc <;> exact .two rfl rfl
  | rlcR r | rrcR r | rlR r | rrR r | slaR r | sraR r | swapR r | srlR r => cases r <;> exact .two rfl rfl
  | bitR b r | resR b r | setR b r =>
    rcases lt_eight (of_decide_eq_true h) with rfl | rfl | rfl | rfl | rfl | rfl | rfl | rfl <;>
      cases r <;> exact .two rfl rfl
  | bitHl b | resHl b | setHl b =>
    rcases lt_eight (of_decide_eq_true h) with rfl | rfl | rfl | rfl | rfl | rfl | rfl | rfl <;> exact .two rfl rfl
  | ldHlN n | ldhAN n | ldhNA n | addAN n | adcAN n | subAN n | sbcAN n | andAN n | xorAN n | orAN n | cpAN n
  | addSpE n | ldHlSpE n | jrE n | stop n
  | rlcHl | rrcHl | rlHl | rrHl | slaHl | sraHl | swapHl | srlHl => exact .two rfl rfl
  | ldANn nn => exact .three rfl (congrArg Instr.ldANn (cat_split nn))
  | ldNnA nn => exact .three rfl (congrArg Instr.ldNnA (cat_split nn))
  | ldNnSp nn => exact .three rfl (congrArg Instr.ldNnSp (cat_split nn))
  | jpNn nn => exact .three rfl (congrArg Instr.jpNn (cat_split nn))
  | callNn nn => exact .three rfl (congrArg Instr.callNn (cat_split nn))
  | ldRrNn p nn => cases p <;> exact .three rfl (congrArg (Instr.ldRrNn _) (cat_split nn))
  | jpCcNn cc nn => cases cc <;> exact .three rfl (congrArg (Instr.jpCcNn _) (cat_split nn))
  | callCcNn cc nn => cases cc <;> exact .three rfl (congrArg (Instr.callCcNn _) (cat_split nn))
  | _ => exact .one rfl rfl

/-- `decode` takes from the list as many bytes as the first one says, and reads them as `decodeBytes` does. -/
theorem decode_take_append (op b1 b2 : Byte) (rest : List Byte) :
    decode ([op, b1, b2].take (opLength op) ++ rest) = .ok (decodeBytes op b1 b2, rest) := by
  obtain ⟨short1, short2⟩ := decodeBytes_short op b1 b2
  rcases opLength_cases op with one | ⟨two, -⟩ | ⟨three, -⟩
  · simp [decode, one, short1 one]
  · simp [decode, two, short2 two]
  · simp [decode, three]

/-- Settles O1: the instruction is in the range of `decodeBytes`, where its bytes are the ones `decode` takes. -/
theorem decodeEncode : Obligations.DecodeEncode := fun i rest wf => by
  obtain ⟨op, b1, b2, rfl⟩ : ∃ op b1 b2, decodeBytes op b1 b2 = i := ⟨_, _, _, decodesBack_of_wellFormed wf⟩
  rw [(decodeBytes_frontOf op b1 b2).encode_eq, decode_take_append]

end Sys2Proof
end

section
/-! SUPPORT. The 8-bit loads (rules R160 to R178): a load writes one register, a store is one bus write, and the forms that step
HL do so after the access; and the statements about them and about words written out from the encoding patterns. -/

namespace Sys2Proof

/-- Bytes that are the encoding of a well-formed instruction decode to it, and nothing is left over. -/
theorem decode_of_encode_eq {i : Instr} {bytes : List Byte} (h : encode i = bytes) (wf : i.wellFormed = true) :
    decode bytes = .ok (i, []) := by
  rw [← h, ← List.append_nil (encode i)]
  exact decodeEncode i [] wf

/-- Settles O3: each word is the encoding of its instruction. -/
theorem decodeWords : Obligations.DecodeWords := by
  refine ⟨?_, ?_, ?_, ?_, ?_, ?_, ?_, ?_, ?_⟩ <;> exact decode_of_encode_eq rfl rfl

namespace Machine

/-- Settles O4: each load is a write of one register (`loaded_setR`); the high-page addresses by `highPage_eq`. -/
theorem loadResult : Obligations.LoadResult := fun s rd rs n nn => by
  rw [← highPage_eq, ← highPage_eq]
  exact ⟨⟨_, rfl, s.loaded_setR rd (s.getR rs) 4⟩, ⟨_, rfl, s.loaded_setR rd n 8⟩, ⟨_, rfl, s.loaded_setR rd s.readHl 8⟩,
    ⟨_, rfl, s.loaded_setR .a (s.busRead s.bc) 8⟩, ⟨_, rfl, s.loaded_setR .a (s.busRead s.de) 8⟩,
    ⟨_, rfl, s.loaded_setR .a (s.busRead nn) 16⟩, ⟨_, rfl, s.loaded_setR .a (s.busRead (highPage s.regs.c)) 8⟩,
    ⟨_, rfl, s.loaded_setR .a (s.busRead (highPage n)) 12⟩⟩

/-- Settles O5: each store is one bus write (`stores_of`); the high-page addresses by `highPage_eq`. -/
theorem storeResult : Obligations.StoreResult := fun s _ _ _ => by
  rw [← highPage_eq, ← highPage_eq]
  exact ⟨s.stores_of rfl, s.stores_of rfl, s.stores_of rfl, s.stores_of rfl, s.stores_of rfl, s.stores_of rfl,
    s.stores_of rfl⟩

namespace State

variable {s : State} {i : Instr} {w : Word} {n : Nat}

theorem keepsRegs_trans {t u : State} {l l' : List R8} (h : s.keepsRegs t l) (h' : t.keepsRegs u l') :
    s.keepsRegs u (l ++ l') := fun r hr => by
  rw [List.mem_append, not_or] at hr
  exact (h' r hr.2).trans (h r hr.1)

/-- A load of A through HL that leaves `w`, the number `n`, in HL. -/
theorem loads_stepHl (h : exec i s = .next (((s.loadA s.hl).setHl w).cost 8)) (hw : w.toNat = n) :
    ∃ t, exec i s = .next t ∧ t.regs.a = s.busRead s.hl ∧ t.hl.toNat = n ∧ t.flags = s.flags ∧
      s.regFrame t [.a, .h, .l] 8 :=
  have keeps : s.keepsRegs (((s.loadA s.hl).setHl w).cost 8) [.a, .h, .l] :=
    keepsRegs_trans (s.keepsRegs_setR .a _) (keepsRegs_setHl w rfl)
  ⟨_, h, rfl, (congrArg BitVec.toNat (hl_setHl _ w)).trans hw, rfl, keeps, rfl, rfl, rfl, onlyCpu_of rfl⟩

/-- A store of A through HL that leaves `w`, the number `n`, in HL: the bus write is the one at the old HL. -/
theorem stores_stepHl (h : exec i s = .next (((s.storeA s.hl).setHl w).cost 8)) (hw : w.toNat = n) :
    ∃ t, exec i s = .next t ∧ t = { s.busWrite s.hl s.regs.a with regs := t.regs, cycles := 8 } ∧
      t.hl.toNat = n ∧ s.keepsRegs t [.h, .l] ∧ t.flags = s.flags ∧ t.sp = s.sp ∧ t.pc = s.pc ∧
      s.storedAt t [s.hl] := by
  have keeps : s.keepsRegs (((s.storeA s.hl).setHl w).cost 8) [.h, .l] :=
    keepsRegs_setHl w (by simp [storeA])
  have stored : s.storedAt (((s.storeA s.hl).setHl w).cost 8) [s.hl] :=
    storedAt_of _ (s.storedAt_busWrite s.hl s.regs.a) rfl rfl rfl rfl rfl rfl rfl rfl fun _ => rfl
  exact ⟨_, h, rfl, (congrArg BitVec.toNat (hl_setHl _ w)).trans hw, keeps, s.busWrite_flags _ _, s.busWrite_sp _ _,
    s.busWrite_pc _ _, stored⟩

end State

/-- One down, modulo 2^16. -/
theorem sub_one_toNat (w : Word) : (w - 1#16).toNat = (w.toNat + 65535) % 65536 := by
  rw [BitVec.toNat_sub, Nat.add_comm]
  rfl

/-- Settles O6: the access at the old HL, and HL one down (`sub_one_toNat`) or one up. -/
theorem loadStoreStepHl : Obligations.LoadStoreStepHl := fun s => by
  have down : (s.hl - 1#16).toNat = (s.hl.toNat + 65535) % 65536 := sub_one_toNat s.hl
  have up : (s.hl + 1#16).toNat = (s.hl.toNat + 1) % 65536 := BitVec.toNat_add _ _
  refine ⟨?_, ?_⟩
  · rintro i k (⟨rfl, rfl⟩ | ⟨rfl, rfl⟩)
    · exact State.loads_stepHl rfl down
    · exact State.loads_stepHl rfl up
  · rintro i k (⟨rfl, rfl⟩ | ⟨rfl, rfl⟩)
    · exact State.stores_stepHl rfl down
    · exact State.stores_stepHl rfl up

end Machine

end Sys2Proof
end

section
/-! SUPPORT. The 16-bit loads and steps (rules R190 to R192, R251, R252): what an instruction that writes one pair leaves, the
bytes of a stored word, and the statements about them. -/

namespace Sys2Proof

theorem hiByte_eq (v : Word) : hiByte v = BitVec.ofNat 8 (v.toNat / 256) := by
  rw [← hiByte_toNat, BitVec.ofNat_toNat, BitVec.setWidth_eq]

theorem loByte_eq (v : Word) : loByte v = BitVec.ofNat 8 (v.toNat % 256) := by
  rw [← loByte_toNat, BitVec.ofNat_toNat, BitVec.setWidth_eq]

namespace Machine

theorem exec_ldNnSp (nn : Word) (s : State) : exec (.ldNnSp nn) s = .next ((s.write16 nn s.sp).cost 20) := rfl

namespace State

variable (s : State)

/-- A write of a pair changes registers, `sp` and the count. -/
theorem onlyCpu_setRP (p : RP) (w : Word) (k : Nat) : s.onlyCpu ((s.setRP p w).cost k) :=
  onlyCpu_of (by rw [s.setRP_eq p w]; rfl)

/-- What an instruction leaves that writes `w`, the number `v` modulo 2^16, to the pair `p`. -/
theorem pairWritten_of {i : Instr} {p : RP} {w : Word} {v k : Nat} (h : exec i s = .next ((s.setRP p w).cost k))
    (hw : w.toNat = v % 65536) :
    ∃ t, exec i s = .next t ∧ (t.getRP p).toNat = v % 65536 ∧ (∀ q, q ≠ p → t.getRP q = s.getRP q) ∧
      t.regs.a = s.regs.a ∧ t.flags = s.flags ∧ t.pc = s.pc ∧ t.cycles = k ∧ s.onlyCpu t :=
  have value : ((s.setRP p w).getRP p).toNat = v % 65536 := by rw [getRP_setRP_same, hw]
  ⟨_, h, value, fun _ other => s.getRP_setRP_other w other, s.setRP_a p w, s.setRP_flags p w, s.setRP_pc p w, rfl,
    s.onlyCpu_setRP p w k⟩

/-- The two bus writes of a stored word, by its number: the low byte first (rule R8). -/
theorem write16_eq (a v : Word) :
    s.write16 a v =
      (s.busWrite a (BitVec.ofNat 8 (v.toNat % 256))).busWrite (a + 1#16) (BitVec.ofNat 8 (v.toNat / 256)) := by
  rw [← loByte_eq, ← hiByte_eq]
  rfl

@[simp] theorem write16_regs (a v : Word) : (s.write16 a v).regs = s.regs := by simp [write16]
@[simp] theorem write16_flags (a v : Word) : (s.write16 a v).flags = s.flags := by simp [write16]
@[simp] theorem write16_sp (a v : Word) : (s.write16 a v).sp = s.sp := by simp [write16]
@[simp] theorem write16_pc (a v : Word) : (s.write16 a v).pc = s.pc := by simp [write16]

/-- The frame of a stored word and the count. -/
theorem storedAt_write16_cost (a v : Word) (k : Nat) : s.storedAt ((s.write16 a v).cost k) [a, a + 1#16] :=
  storedAt_of _ (s.storedAt_two a (a + 1#16) (loByte v) (hiByte v)) rfl rfl rfl rfl rfl rfl rfl rfl fun _ => rfl

end State

/-- Settles O7: each form is a write of one pair (`pairWritten_of`); `sub_one_toNat` for DEC, and `sp` is the pair of LD SP,HL. -/
theorem pairResult : Obligations.PairResult := fun s p nn => by
  rintro i v k (⟨rfl, rfl, rfl⟩ | ⟨rfl, rfl, rfl⟩ | ⟨rfl, rfl, rfl⟩ | ⟨rfl, rfl, rfl, rfl⟩)
  case inl => exact s.pairWritten_of (w := nn) rfl (Nat.mod_eq_of_lt nn.isLt).symm
  case inr.inl => exact s.pairWritten_of (w := s.getRP p + 1#16) rfl (BitVec.toNat_add _ _)
  case inr.inr.inl => exact s.pairWritten_of (w := s.getRP p - 1#16) rfl (sub_one_toNat _)
  case inr.inr.inr => exact s.pairWritten_of (p := .sp) (w := s.hl) rfl (Nat.mod_eq_of_lt s.hl.isLt).symm

/-- Settles O8: the store is `write16` of `sp`, which is the two bus writes of `write16_eq`. -/
theorem storeSpResult : Obligations.StoreSpResult := fun s nn => by
  refine ⟨_, exec_ldNnSp nn s, ?_, s.write16_regs nn s.sp, s.write16_flags nn s.sp, s.write16_sp nn s.sp,
    s.write16_pc nn s.sp, s.storedAt_write16_cost nn s.sp 20⟩
  rw [s.write16_eq]
  rfl

end Machine

end Sys2Proof
end

section
/-! SUPPORT. The results and flags of the 8-bit arithmetic and logic (rules R200 to R202, R228 to R235) as numbers and bits, what
the instructions that put them into the state leave, and the statements about these instructions. -/

namespace Sys2Proof

/-- The test that Z is, on the number. -/
theorem beq_zero_iff_toNat (r : Byte) : (r == 0#8) = true ↔ r.toNat = 0 :=
  beq_iff_eq.trans BitVec.toNat_inj.symm

/-- The test that Z is, on the bits. -/
theorem beq_zero_iff_getLsbD (r : Byte) : (r == 0#8) = true ↔ ∀ j, j < 8 → r.getLsbD j = false := by
  rw [beq_iff_eq, BitVec.eq_of_getLsbD_eq_iff]
  simp only [BitVec.getLsbD_zero]

theorem not_toNat (b : Bool) : (!b).toNat = 1 - b.toNat := by cases b <;> rfl

theorem xor_ones_toNat (v : Byte) : (v ^^^ 0xFF#8).toNat = 255 - v.toNat := by
  rw [show (0xFF#8 : Byte) = BitVec.allOnes 8 from rfl, BitVec.xor_allOnes, BitVec.toNat_not]

namespace Machine

/-! The sum and the difference (rules R200, R201). -/

section Bytes

variable (a v : Byte) (cin : Bool) (f : Flags)

theorem add8_toNat : (add8 a v cin).r.toNat = (a.toNat + v.toNat + cin.toNat) % 256 := BitVec.toNat_ofNat _ _

theorem add8_z : (add8 a v cin).flags.z = true ↔ (a.toNat + v.toNat + cin.toNat) % 256 = 0 := by
  rw [← add8_toNat]
  exact beq_zero_iff_toNat _

@[simp] theorem add8_n : (add8 a v cin).flags.n = false := rfl

theorem add8_h : (add8 a v cin).flags.h = true ↔ a.toNat % 16 + v.toNat % 16 + cin.toNat > 0xF := decide_eq_true_iff

theorem add8_c : (add8 a v cin).flags.c = true ↔ a.toNat + v.toNat + cin.toNat > 0xFF := decide_eq_true_iff

theorem sub8_toNat : ((sub8 a v cin).r.toNat : Int) = ((a.toNat : Int) - v.toNat - cin.toNat) % 256 := by
  have lo : 0 ≤ ((a.toNat : Int) - v.toNat - cin.toNat) % 256 := Int.emod_nonneg _ (by decide)
  calc ((sub8 a v cin).r.toNat : Int)
      = ((((a.toNat : Int) - v.toNat - cin.toNat) % 256).toNat : Int) := congrArg Nat.cast (BitVec.toNat_ofInt _)
    _ = _ := Int.toNat_of_nonneg lo

@[simp] theorem sub8_n : (sub8 a v cin).flags.n = true := rfl

theorem sub8_h : (sub8 a v cin).flags.h = true ↔ a.toNat % 16 < v.toNat % 16 + cin.toNat := decide_eq_true_iff

theorem sub8_c : (sub8 a v cin).flags.c = true ↔ a.toNat < v.toNat + cin.toNat := decide_eq_true_iff

theorem sub8_flags : subFlags (sub8 a v cin).flags a v cin := by
  refine ⟨?_, sub8_n a v cin, sub8_h a v cin, sub8_c a v cin⟩
  rw [← sub8_toNat, Nat.cast_eq_zero]
  exact beq_zero_iff_toNat _

/-- Without a borrow-in the difference is 0 for equal operands only. -/
theorem sub8_z_iff_eq : (sub8 a v false).flags.z = true ↔ a = v := by
  obtain ⟨z, -⟩ := sub8_flags a v false
  rw [z, ← BitVec.toNat_inj, Bool.toNat_false]
  have := a.isLt
  have := v.isLt
  omega

/-! One up and one down (rules R228, R230). -/

theorem inc8_toNat : (inc8 v f).r.toNat = (v.toNat + 1) % 256 := BitVec.toNat_add v 1#8

theorem inc8_r : (inc8 v f).r = BitVec.ofNat 8 (v.toNat + 1) := BitVec.eq_of_toNat_eq (inc8_toNat v f)

theorem inc8_flags : incFlags (inc8 v f).flags f v := by
  refine ⟨(beq_zero_iff_toNat (inc8 v f).r).trans ?_, rfl, decide_eq_true_iff, rfl⟩
  rw [inc8_toNat]
  have := v.isLt
  omega

/-- One down is 255 up, modulo 256. -/
theorem dec8_toNat : (dec8 v f).r.toNat = (v.toNat + 255) % 256 :=
  (BitVec.toNat_sub v 1#8).trans (congrArg (· % 256) (Nat.add_comm 255 v.toNat))

theorem dec8_r : (dec8 v f).r = BitVec.ofNat 8 (v.toNat + 255) := BitVec.eq_of_toNat_eq (dec8_toNat v f)

theorem dec8_flags : decFlags (dec8 v f).flags f v := by
  refine ⟨(beq_zero_iff_toNat (dec8 v f).r).trans ?_, rfl, decide_eq_true_iff, rfl⟩
  rw [dec8_toNat]
  have := v.isLt
  omega

/-! The decimal adjustment (rule R232). -/

/-- 0x60 is added or subtracted; this is also the new C. -/
def daaHigh : Bool := f.c || (!f.n && decide (a.toNat > 0x99))

/-- 0x06 is added or subtracted. -/
def daaLow : Bool := f.h || (!f.n && decide (a.toNat % 16 > 9))

def daaAdjust : Nat := (if daaHigh a f then 0x60 else 0) + (if daaLow a f then 0x06 else 0)

theorem daaHigh_iff : daaHigh a f = true ↔ f.c = true ∨ (f.n = false ∧ a.toNat > 0x99) := by simp [daaHigh]

theorem daaLow_iff : daaLow a f = true ↔ f.h = true ∨ (f.n = false ∧ a.toNat % 16 > 9) := by simp [daaLow]

theorem daa8_c : (daa8 a f).flags.c = daaHigh a f := by
  cases hn : f.n <;> simp [daa8, daaHigh, hn]

theorem daaAdjust_le : daaAdjust a f ≤ 0x66 := by
  unfold daaAdjust
  split <;> split <;> omega

/-- After an addition the adjustment is added, after a subtraction it is subtracted. -/
theorem daa8_r :
    (daa8 a f).r = BitVec.ofInt 8 (if f.n then (a.toNat : Int) - daaAdjust a f else a.toNat + daaAdjust a f) := by
  cases hn : f.n
  case false => simp [daa8, daaAdjust, daaHigh, daaLow, hn]
  case true =>
    have down : (if f.c then (-0x60 : Int) else 0) + (if f.h then -0x06 else 0) = -(daaAdjust a f : Int) := by
      cases hc : f.c <;> cases hh : f.h <;> simp [daaAdjust, daaHigh, daaLow, hn, hc, hh]
    simp [daa8, hn, down, Int.sub_eq_add_neg]

theorem daa8_toNat :
    (daa8 a f).r.toNat = (if f.n then a.toNat + 256 - daaAdjust a f else a.toNat + daaAdjust a f) % 256 := by
  have := daaAdjust_le a f
  rw [daa8_r, BitVec.toNat_ofInt]
  split <;> omega

end Bytes

/-! The digits of a packed decimal sum and difference (rules R207, R213, R232). -/

section Decimal

variable {a v : Byte} {x y : Nat} (cin : Bool) (ha : a.toNat = bcd x) (hv : v.toNat = bcd y)
include ha hv

/-- The high adjustment is the decimal carry. -/
theorem daaHigh_add8 (hx : x < 100) (hy : y < 100) :
    daaHigh (add8 a v cin).r (add8 a v cin).flags = true ↔ 100 ≤ x + y + cin.toNat := by
  have := cin.toNat_lt
  unfold bcd at ha hv
  simp only [daaHigh_iff, add8_n, add8_c, add8_toNat, true_and]
  omega

/-- The low adjustment is the carry out of the low decimal digits. -/
theorem daaLow_add8 : daaLow (add8 a v cin).r (add8 a v cin).flags = true ↔ 10 ≤ x % 10 + y % 10 + cin.toNat := by
  have := cin.toNat_lt
  unfold bcd at ha hv
  simp only [daaLow_iff, add8_n, add8_h, add8_toNat, true_and]
  omega

theorem daa8_add8_toNat (hx : x < 100) (hy : y < 100) :
    (daa8 (add8 a v cin).r (add8 a v cin).flags).r.toNat = bcd ((x + y + cin.toNat) % 100) := by
  have := cin.toNat_lt
  simp only [daa8_toNat, daaAdjust, daaHigh_add8 cin ha hv hx hy, daaLow_add8 cin ha hv, add8_n, add8_toNat,
    Bool.false_eq_true, if_false]
  unfold bcd at *
  split <;> split <;> omega

/-- The high adjustment is the decimal borrow. -/
theorem daaHigh_sub8 : daaHigh (sub8 a v cin).r (sub8 a v cin).flags = true ↔ x < y + cin.toNat := by
  have := cin.toNat_lt
  unfold bcd at ha hv
  simp only [daaHigh_iff, sub8_n, sub8_c, Bool.true_eq_false, false_and, or_false]
  omega

/-- The low adjustment is the borrow of the low decimal digits. -/
theorem daaLow_sub8 : daaLow (sub8 a v cin).r (sub8 a v cin).flags = true ↔ x % 10 < y % 10 + cin.toNat := by
  have := cin.toNat_lt
  unfold bcd at ha hv
  simp only [daaLow_iff, sub8_n, sub8_h, Bool.true_eq_false, false_and, or_false]
  omega

theorem daa8_sub8_toNat (hx : x < 100) (hy : y < 100) :
    (daa8 (sub8 a v cin).r (sub8 a v cin).flags).r.toNat = bcd ((x + 100 - (y + cin.toNat)) % 100) := by
  have := cin.toNat_lt
  have difference := sub8_toNat a v cin
  simp only [daa8_toNat, daaAdjust, daaHigh_sub8 cin ha hv, daaLow_sub8 cin ha hv, sub8_n, if_true]
  unfold bcd at *
  split <;> split <;> omega

end Decimal

/-! What the instructions leave. -/

namespace State

variable (s : State) {i : Instr} {v : Byte} {k : Nat}

/-- A write of one register and the flags. -/
theorem regFrame_setR_setFlags (r : R8) (v : Byte) (f : Flags) (k : Nat) :
    s.regFrame (((s.setR r v).setFlags f).cost k) [r] k :=
  ⟨s.keepsRegs_setR r v, rfl, rfl, rfl, onlyCpu_of rfl⟩

/-- A write of the flags alone. -/
theorem regFrame_setFlags (f : Flags) (k : Nat) : s.regFrame ((s.setFlags f).cost k) [] k :=
  ⟨keepsRegs_of_regs rfl [], rfl, rfl, rfl, onlyCpu_of rfl⟩

theorem regFrame_setAlu (x : Alu) (k : Nat) : s.regFrame ((s.setAlu x).cost k) [.a] k :=
  s.regFrame_setR_setFlags .a x.r x.flags k

variable {s}

theorem addsA_of {cin : Bool} (h : exec i s = .next ((s.setAlu (add8 s.regs.a v cin)).cost k)) : s.addsA i v cin k :=
  ⟨_, h, add8_toNat _ v cin, add8_z _ v cin, add8_n _ v cin, add8_h _ v cin, add8_c _ v cin, s.regFrame_setAlu _ k⟩

theorem subtractsA_of {cin : Bool} (h : exec i s = .next ((s.setAlu (sub8 s.regs.a v cin)).cost k)) :
    s.subtractsA i v cin k :=
  ⟨_, h, sub8_toNat _ v cin, sub8_flags _ v cin, s.regFrame_setAlu _ k⟩

theorem comparesA_of (h : exec i s = .next ((s.setFlags (sub8 s.regs.a v false).flags).cost k)) : s.comparesA i v k :=
  ⟨_, h, sub8_flags _ v false, sub8_z_iff_eq _ v, s.regFrame_setFlags _ k⟩

/-- A result with the flags of rule R202: its bits decide Z. -/
theorem logicA_of {f : Bool → Bool → Bool} {r : Byte} {hc : Bool}
    (h : exec i s = .next ((s.setAlu ⟨r, ⟨r == 0#8, false, hc, false⟩⟩).cost k))
    (bits : ∀ j, r.getLsbD j = f (s.regs.a.getLsbD j) (v.getLsbD j)) : s.logicA i f v hc k := by
  refine ⟨_, h, fun j _ => bits j, ?_, rfl, rfl, rfl, s.regFrame_setAlu _ k⟩
  simp only [← bits]
  exact beq_zero_iff_getLsbD r

theorem andsA_of (h : exec i s = .next ((s.setAlu (and8 s.regs.a v)).cost k)) : s.logicA i and v true k :=
  logicA_of h fun _ => BitVec.getLsbD_and

theorem xorsA_of (h : exec i s = .next ((s.setAlu (xor8 s.regs.a v)).cost k)) : s.logicA i xor v false k :=
  logicA_of h fun _ => BitVec.getLsbD_xor

theorem orsA_of (h : exec i s = .next ((s.setAlu (or8 s.regs.a v)).cost k)) : s.logicA i or v false k :=
  logicA_of h fun _ => BitVec.getLsbD_or

end State

/-- Settles O11: each form puts `add8` into A and the flags. -/
theorem addResult : Obligations.AddResult := fun _ _ _ => by
  refine ⟨?_, ?_, ?_, ?_, ?_, ?_⟩ <;> exact State.addsA_of rfl

/-- Settles O12: each form puts `sub8` into the flags, and into A but for CP. -/
theorem subtractResult : Obligations.SubtractResult := fun _ _ _ =>
  ⟨State.subtractsA_of rfl, State.subtractsA_of rfl, State.subtractsA_of rfl, State.subtractsA_of rfl,
    State.subtractsA_of rfl, State.subtractsA_of rfl, State.comparesA_of rfl, State.comparesA_of rfl,
    State.comparesA_of rfl⟩

/-- Settles O13: the operations on the bits of a byte are the ones on bits. -/
theorem logicResult : Obligations.LogicResult := fun _ _ _ =>
  ⟨State.andsA_of rfl, State.andsA_of rfl, State.andsA_of rfl, State.xorsA_of rfl, State.xorsA_of rfl,
    State.xorsA_of rfl, State.orsA_of rfl, State.orsA_of rfl, State.orsA_of rfl⟩

/-- Settles O14: the results and flags of `inc8` and `dec8`; the memory forms by `modifiesHl_of`. -/
theorem incDecResult : Obligations.IncDecResult := fun s rd => by
  refine ⟨⟨_, rfl, ?_, inc8_flags _ _, s.regFrame_setR_setFlags rd _ _ 4⟩,
    ⟨_, rfl, ?_, dec8_flags _ _, s.regFrame_setR_setFlags rd _ _ 4⟩,
    s.modifiesHl_of ?_ (inc8_flags s.readHl s.flags), s.modifiesHl_of ?_ (dec8_flags s.readHl s.flags)⟩
  · rw [← inc8_toNat _ s.flags]
    exact congrArg BitVec.toNat (s.getR_setR_same rd _)
  · rw [← dec8_toNat _ s.flags]
    exact congrArg BitVec.toNat (s.getR_setR_same rd _)
  · rw [← inc8_r _ s.flags]
    rfl
  · rw [← dec8_r _ s.flags]
    rfl

/-- Settles O15: the adjustment is `daaAdjust`, and C is `daaHigh`. -/
theorem daaResult : Obligations.DaaResult := fun s => by
  intro a high low
  have high_iff : daaHigh s.regs.a s.flags = true ↔ high := daaHigh_iff _ _
  have low_iff : daaLow s.regs.a s.flags = true ↔ low := daaLow_iff _ _
  have c : (daa8 s.regs.a s.flags).flags.c = true ↔ high := by rw [daa8_c, high_iff]
  refine ⟨_, daaAdjust s.regs.a s.flags, rfl, ?_, ?_, ?_, ?_, daa8_toNat _ _, beq_zero_iff_toNat _, rfl, rfl, c,
    s.regFrame_setAlu _ 4⟩
  all_goals
    intro hh hl
    simp only [daaAdjust, high_iff, low_iff, hh, hl, if_true, if_false]

/-- Settles O16: DAA reads what `add8` or `sub8` left, and its adjustments are the decimal carries or borrows. -/
theorem daaDecimal : Obligations.DaaDecimal := fun s rs x y hx hy ha hv => by
  have carry := daaHigh_add8 s.flags.c ha hv hx hy
  have borrow := daaHigh_sub8 s.flags.c ha hv
  rw [← daa8_c] at carry borrow
  exact ⟨⟨_, _, rfl, rfl, daa8_add8_toNat s.flags.c ha hv hx hy, carry⟩,
    ⟨_, _, rfl, rfl, daa8_sub8_toNat s.flags.c ha hv hx hy, borrow⟩⟩

/-- Settles O17: CPL is a write of A and the flags, SCF and CCF of the flags alone. -/
theorem accumulatorFlagResult : Obligations.AccumulatorFlagResult := fun s =>
  ⟨⟨_, rfl, xor_ones_toNat s.regs.a, rfl, rfl, rfl, rfl, s.regFrame_setR_setFlags .a _ _ 4⟩,
    ⟨_, rfl, rfl, rfl, rfl, rfl, s.regFrame_setFlags _ 4⟩,
    ⟨_, rfl, rfl, rfl, rfl, not_toNat s.flags.c, s.regFrame_setFlags _ 4⟩⟩

end Machine

end Sys2Proof
end

section
/-! SUPPORT. The 16-bit additions (rules R250, R253 to R255): the sums and carries as numbers, what a write of HL and the flags
leaves, and the statements about ADD HL,rr, ADD SP,e and LD HL,SP+e. -/

namespace Sys2Proof.Machine

theorem add16_toNat (x v : Word) : (add16 x v).r.toNat = (x.toNat + v.toNat) % 65536 := BitVec.toNat_add x v

theorem add16_h (x v : Word) : (add16 x v).h = true ↔ x.toNat % 4096 + v.toNat % 4096 > 0xFFF := decide_eq_true_iff

theorem add16_c (x v : Word) : (add16 x v).c = true ↔ x.toNat + v.toNat > 0xFFFF := decide_eq_true_iff

/-- A signed displacement added modulo 2^16 (rule R304): below 128 it counts up, and otherwise `256 - e` down. -/
theorem add_sext16_toNat (x : Word) (e : Byte) : (x + sext16 e).toNat = relTarget x e := by
  have := e.isLt
  rw [BitVec.toNat_add, sext16_toNat, relTarget]
  split
  · rfl
  · omega

theorem addSpE_toNat (x : Word) (e : Byte) : (addSpE x e).r.toNat = relTarget x e := add_sext16_toNat x e

theorem addSpE_h (x : Word) (e : Byte) : (addSpE x e).h = true ↔ x.toNat % 16 + e.toNat % 16 > 0xF := decide_eq_true_iff

theorem addSpE_c (x : Word) (e : Byte) : (addSpE x e).c = true ↔ x.toNat % 256 + e.toNat > 0xFF := decide_eq_true_iff

namespace State

variable (s : State) (w : Word) (f : Flags) (k : Nat)

/-- A write of HL and the flags. -/
theorem regFrame_setHl_setFlags : s.regFrame (((s.setHl w).setFlags f).cost k) [.h, .l] k :=
  ⟨keepsRegs_setHl w rfl, rfl, rfl, rfl, onlyCpu_of rfl⟩

theorem hl_setHl_setFlags_cost : (((s.setHl w).setFlags f).cost k).hl = w := s.hl_setHl w

end State

/-- Settles O18: the sum and carries of `add16`, put into HL and the flags. -/
theorem addHlResult : Obligations.AddHlResult := fun s p => by
  refine ⟨_, rfl, ?_, rfl, rfl, add16_h s.hl (s.getRP p), add16_c s.hl (s.getRP p), s.regFrame_setHl_setFlags _ _ 8⟩
  rw [State.hl_setHl_setFlags_cost, add16_toNat]

/-- Settles O19: the sum of `addSpE` is the signed one of `add_sext16_toNat`, and its carries read the raw byte. -/
theorem addSpResult : Obligations.AddSpResult := fun s e => by
  refine ⟨⟨_, rfl, addSpE_toNat s.sp e, ⟨rfl, rfl, addSpE_h s.sp e, addSpE_c s.sp e⟩, State.keepsRegs_of_regs rfl [], rfl, rfl,
      State.onlyCpu_of rfl⟩,
    ⟨_, rfl, ?_, ⟨rfl, rfl, addSpE_h s.sp e, addSpE_c s.sp e⟩, s.regFrame_setHl_setFlags _ _ 12⟩⟩
  rw [State.hl_setHl_setFlags_cost, addSpE_toNat]

end Sys2Proof.Machine
end

section
/-! SUPPORT. The rotates, shifts and bit instructions (rules R260 to R286): the eight functions as the numbers of `shiftSpec`,
RES and SET on the bits of a byte, what the instructions leave, and the statements about them. -/

namespace Sys2Proof.Machine

/-! The eight functions of rule R260. -/

/-- A multiple of `2^i` and a number below `2^i` share no bit. -/
theorem toNat_or_of_lt {x y : Byte} {i a : Nat} (hx : x.toNat = 2 ^ i * a) (hy : y.toNat < 2 ^ i) :
    (x ||| y).toNat = x.toNat + y.toNat := by
  rw [BitVec.toNat_or, hx, Nat.two_pow_add_eq_or_of_lt hy]

theorem bitByte_toNat (b : Bool) : (bitByte b).toNat = b.toNat := by cases b <;> rfl

theorem bitByte_top_toNat (b : Bool) : (bitByte b <<< 7).toNat = 128 * b.toNat := by cases b <;> rfl

section Bytes

variable (v : Byte) (b : Bool)

theorem getLsbD_zero_toNat : (v.getLsbD 0).toNat = v.toNat % 2 := by
  rw [BitVec.getLsbD, Nat.toNat_testBit, pow_zero, Nat.div_one]

theorem getLsbD_seven_toNat : (v.getLsbD 7).toNat = v.toNat / 128 := by
  rw [BitVec.getLsbD, Nat.toNat_testBit]
  have := v.isLt
  omega

theorem shiftLeft_toNat (n : Nat) : (v <<< n).toNat = 2 ^ n * v.toNat % 256 := by
  rw [BitVec.toNat_shiftLeft, Nat.shiftLeft_eq, Nat.mul_comm]

theorem shiftRight_toNat (n : Nat) : (v >>> n).toNat = v.toNat / 2 ^ n := by
  rw [BitVec.toNat_ushiftRight, Nat.shiftRight_eq_div_pow]

/-- One to the left, with `b` as the new bit 0. -/
theorem shiftLeft_or_bitByte_toNat : ((v <<< 1) ||| bitByte b).toNat = 2 * v.toNat % 256 + b.toNat := by
  have even : (v <<< 1).toNat = 2 ^ 1 * (v.toNat % 128) := by rw [shiftLeft_toNat]; omega
  have bit : (bitByte b).toNat < 2 ^ 1 := by
    rw [bitByte_toNat]
    exact b.toNat_lt
  rw [toNat_or_of_lt even bit, shiftLeft_toNat, bitByte_toNat, pow_one]

/-- One to the right, with `b` as the new bit 7. -/
theorem shiftRight_or_bitByte_toNat : ((v >>> 1) ||| (bitByte b <<< 7)).toNat = v.toNat / 2 + 128 * b.toNat := by
  have low : (v >>> 1).toNat < 2 ^ 7 := by
    rw [shiftRight_toNat]
    have := v.isLt
    omega
  rw [BitVec.or_comm, toNat_or_of_lt (bitByte_top_toNat b) low, shiftRight_toNat, bitByte_top_toNat, Nat.add_comm, pow_one]

theorem swap_toNat : ((v <<< 4) ||| (v >>> 4)).toNat = 16 * (v.toNat % 16) + v.toNat / 16 := by
  have high : (v <<< 4).toNat = 2 ^ 4 * (v.toNat % 16) := by rw [shiftLeft_toNat]; omega
  have low : (v >>> 4).toNat = v.toNat / 2 ^ 4 := shiftRight_toNat v 4
  have := v.isLt
  rw [toNat_or_of_lt high (by omega), high, low]
  rfl

/-- The bit that SRA keeps. -/
theorem and_top_eq : v &&& 0x80#8 = bitByte (v.getLsbD 7) <<< 7 := by
  rw [show 0x80#8 = BitVec.twoPow 8 7 from rfl, BitVec.and_twoPow]
  cases v.getLsbD 7 <;> rfl

end Bytes

/-- `f` is function `y` of rule R260: `shiftSpec y` gives its result and the bit out. -/
structure ShiftMeets (f : Byte → Bool → Shift) (y : Nat) : Prop where
  r : ∀ v cin, (f v cin).r.toNat = (shiftSpec y v.toNat cin.toNat).1
  c : ∀ v cin, (f v cin).c.toNat = (shiftSpec y v.toNat cin.toNat).2

theorem rlc8_meets : ShiftMeets rlc8 0 where
  r v _ := by rw [rlc8, shiftLeft_or_bitByte_toNat, getLsbD_seven_toNat]; rfl
  c v _ := getLsbD_seven_toNat v

theorem rrc8_meets : ShiftMeets rrc8 1 where
  r v _ := by rw [rrc8, shiftRight_or_bitByte_toNat, getLsbD_zero_toNat]; rfl
  c v _ := getLsbD_zero_toNat v

theorem rl8_meets : ShiftMeets rl8 2 where
  r := shiftLeft_or_bitByte_toNat
  c v _ := getLsbD_seven_toNat v

theorem rr8_meets : ShiftMeets rr8 3 where
  r := shiftRight_or_bitByte_toNat
  c v _ := getLsbD_zero_toNat v

theorem sla8_meets : ShiftMeets sla8 4 where
  r v _ := shiftLeft_toNat v 1
  c v _ := getLsbD_seven_toNat v

theorem sra8_meets : ShiftMeets sra8 5 where
  r v _ := by rw [sra8, and_top_eq, shiftRight_or_bitByte_toNat, getLsbD_seven_toNat]; rfl
  c v _ := getLsbD_zero_toNat v

theorem swap8_meets : ShiftMeets swap8 6 where
  r v _ := swap_toNat v
  c _ _ := rfl

theorem srl8_meets : ShiftMeets srl8 7 where
  r v _ := shiftRight_toNat v 1
  c v _ := getLsbD_zero_toNat v

theorem ShiftMeets.flags {f : Byte → Bool → Shift} {y : Nat} (hf : ShiftMeets f y) (v : Byte) (cin : Bool) :
    shiftFlags (f v cin).flags y v.toNat cin := by
  refine ⟨?_, rfl, rfl, hf.c v cin⟩
  rw [← hf.r]
  exact beq_zero_iff_toNat _

/-! One bit of a byte (rules R281 to R286). -/

theorem getLsbD_resBit {b j : Nat} (v : Byte) (hj : j < 8) :
    (resBit b v).getLsbD j = if j = b then false else v.getLsbD j := by
  rw [resBit, ← BitVec.twoPow_eq, BitVec.getLsbD_and, BitVec.getLsbD_not, BitVec.getLsbD_twoPow]
  split
  next same => simp [← same, hj]
  next other => simp [Ne.symm other, hj]

theorem getLsbD_setBit {b j : Nat} (v : Byte) (hj : j < 8) :
    (setBit b v).getLsbD j = if j = b then true else v.getLsbD j := by
  rw [setBit, ← BitVec.twoPow_eq, BitVec.getLsbD_or, BitVec.getLsbD_twoPow]
  split
  next same => simp [← same, hj]
  next other => simp [Ne.symm other]

theorem bitFlags_z (b : Nat) (v : Byte) (f : Flags) : (bitFlags b v f).z = true ↔ v.getLsbD b = false :=
  iff_of_eq (Bool.not_eq_true' _)

/-! What the instructions leave. -/

namespace State

variable {s : State} {i : Instr} {f : Byte → Bool → Shift} {y : Nat}

theorem rotatesA_of (hf : ShiftMeets f y) (h : exec i s = .next ((s.rotateA f).cost 4)) : s.rotatesA i y :=
  ⟨_, h, hf.r s.regs.a s.flags.c, rfl, rfl, rfl, hf.c s.regs.a s.flags.c, s.regFrame_setR_setFlags .a _ _ 4⟩

theorem shiftsR_of {r : R8} (hf : ShiftMeets f y) (h : exec i s = .next ((s.rotateR f r).cost 8)) : s.shiftsR i r y := by
  refine ⟨_, h, ?_, hf.flags (s.getR r) s.flags.c, s.regFrame_setR_setFlags r _ _ 8⟩
  rw [← hf.r]
  exact congrArg BitVec.toNat (s.getR_setR_same r _)

theorem shiftsHl_of (hf : ShiftMeets f y) (h : exec i s = .next ((s.rotateHl f).cost 16)) : s.shiftsHl i y :=
  ⟨_, hf.r s.readHl s.flags.c, s.modifiesHl_of h (hf.flags s.readHl s.flags.c)⟩

variable (s)

/-- A write of one register. -/
theorem regFrame_setR (r : R8) (v : Byte) (k : Nat) : s.regFrame ((s.setR r v).cost k) [r] k :=
  ⟨s.keepsRegs_setR r v, rfl, rfl, rfl, onlyCpu_of rfl⟩

theorem setFlags_writeHl (v : Byte) : (s.writeHl v).setFlags s.flags = s.writeHl v := by
  rw [writeHl, ← s.busWrite_flags s.hl v]
  rfl

/-- A write at HL that keeps F. -/
theorem modifiesHl_keepingFlags {r : Byte} {k : Nat} (h : exec i s = .next ((s.writeHl r).cost k)) :
    s.modifiesHl i r (fun g => g = s.flags) k := by
  rw [← s.setFlags_writeHl] at h
  exact s.modifiesHl_of h rfl

end State

/-- Settles O20: each form puts its function's result into A, under `flagsA`. -/
theorem rotateAResult : Obligations.RotateAResult := fun _ =>
  ⟨State.rotatesA_of rlc8_meets rfl, State.rotatesA_of rrc8_meets rfl, State.rotatesA_of rl8_meets rfl,
    State.rotatesA_of rr8_meets rfl⟩

/-- Settles O21: each form puts its function's result into the register, under the flags of `ShiftMeets.flags`. -/
theorem shiftRegisterResult : Obligations.ShiftRegisterResult := fun _ _ =>
  ⟨State.shiftsR_of rlc8_meets rfl, State.shiftsR_of rrc8_meets rfl, State.shiftsR_of rl8_meets rfl,
    State.shiftsR_of rr8_meets rfl, State.shiftsR_of sla8_meets rfl, State.shiftsR_of sra8_meets rfl,
    State.shiftsR_of swap8_meets rfl, State.shiftsR_of srl8_meets rfl⟩

/-- Settles O22: the functions of O21, on the byte read at HL. -/
theorem shiftMemoryResult : Obligations.ShiftMemoryResult := fun _ =>
  ⟨State.shiftsHl_of rlc8_meets rfl, State.shiftsHl_of rrc8_meets rfl, State.shiftsHl_of rl8_meets rfl,
    State.shiftsHl_of rr8_meets rfl, State.shiftsHl_of sla8_meets rfl, State.shiftsHl_of sra8_meets rfl,
    State.shiftsHl_of swap8_meets rfl, State.shiftsHl_of srl8_meets rfl⟩

/-- Settles O23: BIT writes the flags alone, RES and SET one byte by `getLsbD_resBit` and `getLsbD_setBit`. -/
theorem bitResult : Obligations.BitResult := fun s b rs _ => by
  refine ⟨⟨_, rfl, bitFlags_z b _ s.flags, rfl, rfl, rfl, s.regFrame_setFlags _ 8⟩,
    ⟨_, rfl, bitFlags_z b _ s.flags, rfl, rfl, rfl, s.regFrame_setFlags _ 12⟩,
    ⟨_, rfl, fun j hj => ?_, rfl, s.regFrame_setR rs _ 8⟩, ⟨_, rfl, fun j hj => ?_, rfl, s.regFrame_setR rs _ 8⟩,
    ⟨_, fun _ => getLsbD_resBit s.readHl, s.modifiesHl_keepingFlags rfl⟩,
    ⟨_, fun _ => getLsbD_setBit s.readHl, s.modifiesHl_keepingFlags rfl⟩⟩
  · rw [← getLsbD_resBit (s.getR rs) hj]
    exact congrArg (BitVec.getLsbD · j) (s.getR_setR_same rs _)
  · rw [← getLsbD_setBit (s.getR rs) hj]
    exact congrArg (BitVec.getLsbD · j) (s.getR_setR_same rs _)

end Sys2Proof.Machine
end

section
/-! SUPPORT. The control transfers (rules R300 to R311): what a write of `pc`, a call and a return leave, and the statements about
the jumps, the calls and the returns. -/

namespace Sys2Proof.Machine

namespace State

/-! The conditions (rule R300). -/

section Conditions

variable (s : State)

theorem cond_nz : s.cond .nz = true ↔ s.flags.z = false := iff_of_eq (Bool.not_eq_true' _)
theorem cond_z : s.cond .z = true ↔ s.flags.z = true := Iff.rfl
theorem cond_nc : s.cond .nc = true ↔ s.flags.c = false := iff_of_eq (Bool.not_eq_true' _)
theorem cond_c : s.cond .c = true ↔ s.flags.c = true := Iff.rfl

end Conditions

variable {s : State} {i : Instr} {w : Word} {target k k' : Nat}

/-- A write of `pc` and of the count. -/
theorem jumps_of (h : exec i s = .next ((s.setPc w).cost k)) (hw : w.toNat = target) : s.jumps i target k :=
  ⟨_, h, hw, rfl, rfl, rfl, rfl, onlyCpu_of rfl⟩

/-- A transfer that is not taken writes the count only: `pc` is the next instruction's (rule R344). -/
theorem jumps_of_notTaken (h : exec i s = .next (s.cost k)) : s.jumps i s.pc.toNat k := jumps_of (w := s.pc) h rfl

/-- A jump under the condition `c`. -/
theorem jumps_of_ite {c : Bool} (h : exec i s = if c then .next ((s.setPc w).cost k) else .next (s.cost k'))
    (hw : w.toNat = target) : s.jumps i (if c then target else s.pc.toNat) (if c then k else k') := by
  cases c
  case true => exact jumps_of h hw
  case false => exact jumps_of_notTaken h

/-- A push of `pc`, then a write of `pc` and of the count. -/
theorem calls_of (h : exec i s = .next (((s.push16 s.pc).setPc w).cost k)) (hw : w.toNat = target) :
    s.calls i target k :=
  ⟨_, h, s.pushed_of_push16 rfl, hw, rfl⟩

/-- The word popped into `pc`, whatever becomes of the interrupt latches: RET, RET cc and RETI. -/
theorem returned_of_pop {t : State}
    (h : t = { s.popSp with pc := s.popWord, ime := t.ime, imeArm := t.imeArm, cycles := k }) : s.returned t k := by
  rw [h]
  exact ⟨s.popWord_toNat.trans (Nat.add_comm _ _), BitVec.toNat_add s.sp 2#16, rfl, rfl, rfl⟩

/-- A return that leaves the interrupt latches alone. -/
theorem returns_of (h : exec i s = .next ((s.popSp.setPc s.popWord).cost k)) :
    ∃ t, exec i s = .next t ∧ s.returned t k ∧ s.onlyCpu t :=
  ⟨_, h, returned_of_pop rfl, onlyCpu_of rfl⟩

end State

/-- The restart address of `t` (rule R311). -/
theorem restart_toNat {t : Nat} (ht : t < 8) : (BitVec.ofNat 16 (8 * t)).toNat = 8 * t :=
  (BitVec.toNat_ofNat _ _).trans (Nat.mod_eq_of_lt (by omega))

/-- Settles O25: a call is `Push16` of `pc` and a write of `pc` (`calls_of`); one not taken writes the count only. -/
theorem callResult : Obligations.CallResult := fun _ _ _ _ ht =>
  ⟨State.calls_of rfl rfl, fun taken => State.calls_of (if_pos taken) rfl,
    fun notTaken => State.jumps_of_notTaken (if_neg (Bool.eq_false_iff.1 notTaken)), State.calls_of rfl (restart_toNat ht)⟩

/-- Settles O24: a jump is a write of `pc` (`jumps_of`), under its condition by `jumps_of_ite`; the relative targets by
`add_sext16_toNat`. -/
theorem jumpResult : Obligations.JumpResult := fun s _ _ e =>
  ⟨s.cond_nz, s.cond_z, s.cond_nc, s.cond_c, State.jumps_of rfl rfl, State.jumps_of rfl (cat_toNat _ _),
    State.jumps_of rfl (add_sext16_toNat s.pc e), State.jumps_of_ite rfl rfl,
    State.jumps_of_ite rfl (add_sext16_toNat s.pc e)⟩

/-- Settles O26: a return is a pop into `pc` (`returned_of_pop`), and RETI also writes the two latches. -/
theorem returnResult : Obligations.ReturnResult := fun _ _ =>
  ⟨State.returns_of rfl, fun taken => State.returns_of (if_pos taken),
    fun notTaken => State.jumps_of_notTaken (if_neg (Bool.eq_false_iff.1 notTaken)),
    ⟨_, rfl, State.returned_of_pop rfl, State.onlyCpu_of rfl⟩⟩

end Sys2Proof.Machine
end

section
/-! SUPPORT. The system instructions and the illegal bytes (rules R320 to R325): what HALT does by IME and the pending requests,
what an illegal byte is and does, and the statements about them. -/

namespace Sys2Proof.Machine

namespace State

variable (s : State)

/-- A write of the count alone. -/
theorem regFrame_cost (k : Nat) : s.regFrame (s.cost k) [] k :=
  ⟨keepsRegs_of_regs rfl [], rfl, rfl, rfl, onlyCpu_of rfl⟩

theorem pending_eq_false_iff : s.pending = false ↔ ∀ j, j < 5 → (s.ie.getLsbD j && s.ifl.getLsbD j) = false := by
  simp [← Bool.not_eq_true, pending_iff]

@[simp] theorem halt_flags : s.halt.flags = s.flags := by rw [halt_eq]

/-- HALT halts (rule R321). -/
theorem halt_of_halts (h : s.ime = true ∨ s.pending = false) : s.halt = { s with run := .halted } :=
  if_pos (by simpa using h)

/-- HALT arms the halt bug, where the parameter has one (rules R321, R347). -/
theorem halt_of_bug (hime : s.ime = false) (hp : s.pending = true) :
    s.halt = { s with haltBug := s.haltBug || s.par.haltBug } := by
  have notHalted : ¬ (s.ime || !s.pending) = true := by simp [hime, hp]
  rw [halt, if_neg notHalted]
  cases s.par.haltBug
  case true => rw [if_pos rfl, Bool.or_true]
  case false => rw [if_neg Bool.false_ne_true, Bool.or_false]

/-- Faulted has no step (rule R371). -/
theorem step_faulted {op : Byte} {a : Word} (h : s.run = .faulted op a) : step s = .fault (.illegalOpcode op a) := by
  unfold step systemStep
  rw [h]

end State

/-- An illegal byte is one of the eleven, the whole of its instruction, and raises the exception (rules R140, R325). -/
theorem of_illegalByte {i : Instr} {op : Byte} (h : i.illegalByte = some op) :
    op ∈ illegalBytes ∧ encode i = [op] ∧ ∀ s, exec i s = .next (s.raiseIllegal op) := by
  cases i <;> cases h
  all_goals exact ⟨by decide, rfl, fun _ => rfl⟩

/-- Settles O27: each of the three writes the count, and DI and EI the latches before it. -/
theorem nopDiEiResult : Obligations.NopDiEiResult := fun s =>
  ⟨⟨_, rfl, s.regFrame_cost 4, rfl⟩,
    ⟨_, rfl, State.regFrame_cost _ 4, rfl, (State.busRead_ie _).trans s.busRead_ie.symm⟩,
    ⟨_, rfl, State.regFrame_cost _ 4, rfl, rfl⟩⟩

/-- Settles O28: HALT by `halt_of_halts` and `halt_of_bug`, with the pending requests bit by bit. -/
theorem haltStopResult : Obligations.HaltStopResult := fun s x => by
  refine ⟨⟨s.halt.cost 4, rfl, fun halts => ?_, fun ⟨hime, requested⟩ => ?_, s.halt_flags⟩,
    ⟨s.stop.cost 4, rfl, State.regFrame_cost _ 4, rfl⟩⟩
  · rw [s.halt_of_halts (halts.imp_right s.pending_eq_false_iff.2)]
    exact State.regFrame_cost _ 4
  · rw [s.halt_of_bug hime (s.pending_iff.2 requested)]
    exact State.regFrame_cost _ 4

/-- Settles O29: the eleven rows by `of_illegalByte`, and the step after them by `step_faulted`. -/
theorem illegalResult : Obligations.IllegalResult := fun s _ op h => by
  obtain ⟨mem, bytes, raises⟩ := of_illegalByte h
  exact ⟨mem, bytes, s.raiseIllegal op, raises s, rfl, State.step_faulted _ rfl⟩

end Sys2Proof.Machine
end

section
/-! SUPPORT. The step of a running core by what it can answer (rules R341, R344, R346, R360, R371), the invariant, and the
statements about the step that follow. -/

namespace Sys2Proof.Machine

namespace State

variable (s : State)

/-! What the device advance leaves of the CPU (rule R340). -/

@[simp] theorem deviceAdvance_regs : s.deviceAdvance.regs = s.regs := by rw [deviceAdvance_same]
@[simp] theorem deviceAdvance_flags : s.deviceAdvance.flags = s.flags := by rw [deviceAdvance_same]
@[simp] theorem deviceAdvance_sp : s.deviceAdvance.sp = s.sp := by rw [deviceAdvance_same]
@[simp] theorem deviceAdvance_pc : s.deviceAdvance.pc = s.pc := by rw [deviceAdvance_same]
@[simp] theorem deviceAdvance_run : s.deviceAdvance.run = s.run := by rw [deviceAdvance_same]
@[simp] theorem deviceAdvance_ime : s.deviceAdvance.ime = s.ime := by rw [deviceAdvance_same]
@[simp] theorem deviceAdvance_imeArm : s.deviceAdvance.imeArm = s.imeArm := by rw [deviceAdvance_same]
@[simp] theorem deviceAdvance_haltBug : s.deviceAdvance.haltBug = s.haltBug := by rw [deviceAdvance_same]
@[simp] theorem deviceAdvance_par : s.deviceAdvance.par = s.par := by rw [deviceAdvance_same]
@[simp] theorem deviceAdvance_cycles : s.deviceAdvance.cycles = s.cycles := by rw [deviceAdvance_same]
@[simp] theorem deviceAdvance_totalCycles : s.deviceAdvance.totalCycles = s.totalCycles + s.cycles := by
  rw [deviceAdvance_same]

/-- The commit of EI without its case split (rule R346). -/
theorem commitIme_closed (armBefore : Bool) :
    s.commitIme armBefore =
      { s with ime := s.ime || (armBefore && s.imeArm), imeArm := s.imeArm && !armBefore } := by
  by_cases commits : (armBefore && s.imeArm) = true
  · rw [commitIme, if_pos commits]
    rw [Bool.and_eq_true] at commits
    simp [commits]
  · have kept : (s.imeArm && !armBefore) = s.imeArm := by
      cases armed : s.imeArm
      · rfl
      · simpa [armed] using commits
    rw [commitIme, if_neg commits, kept, eq_false_of_ne_true commits, Bool.or_false]

@[simp] theorem fetched_run (i : Instr) : (s.fetched i).run = s.run := by rw [fetched_eq]
@[simp] theorem fetched_ime (i : Instr) : (s.fetched i).ime = s.ime := by rw [fetched_eq]
@[simp] theorem fetched_imeArm (i : Instr) : (s.fetched i).imeArm = s.imeArm := by rw [fetched_eq]
@[simp] theorem fetched_par (i : Instr) : (s.fetched i).par = s.par := by rw [fetched_eq]
@[simp] theorem fetched_totalCycles (i : Instr) : (s.fetched i).totalCycles = s.totalCycles := by rw [fetched_eq]
@[simp] theorem fetched_pending (i : Instr) : (s.fetched i).pending = s.pending := by
  rw [fetched_eq]
  rfl

/-- The fetch of a legal instruction consumes the halt bug (rule R347). -/
theorem fetched_haltBug {i : Instr} (hl : i.illegalByte = none) : (s.fetched i).haltBug = false := by
  rw [fetched, hl]
  rfl

/-- `u` is what the instruction at `pc` leaves before the commit of EI, and it is no illegal byte. -/
structure Executed (u : State) : Prop where
  legal : s.fetchedInstr.illegalByte = none
  control : ExecControl s.fetchedInstr (s.fetched s.fetchedInstr) u
  wrote : ∃ w, (s.fetched s.fetchedInstr).Wrote w ∧ w.sameDevices u

/-- What a step of a running core can answer: a dispatch, the illegal opcode, or an instruction with the commit of EI. -/
inductive Ran : State → Prop
  | dispatched : Ran (s.dispatch s.pendingMask).deviceAdvance
  | illegal (op : Byte) : Ran { s with run := .faulted op s.pc }
  | executed {u : State} (h : s.Executed u) : Ran (u.commitIme s.imeArm).deviceAdvance

variable {s}

theorem step_executed (hr : s.run = .running) (hp : (s.ime && s.pending) = false)
    (hl : s.fetchedInstr.illegalByte = none) :
    ∃ u, step s = .next (u.commitIme s.imeArm).deviceAdvance ∧ s.Executed u := by
  obtain ⟨u, hu, control⟩ := exec_control s.fetchedInstr (s.fetched s.fetchedInstr)
  obtain ⟨u', w, hu', wrote, same⟩ := exec_wrote s.fetchedInstr (s.fetched s.fetchedInstr)
  obtain rfl : u = u' := Host.Outcome.next.inj (hu.symm.trans hu')
  exact ⟨u, s.step_exec hr hp rfl hl hu, hl, control, w, wrote, same⟩

theorem step_ran (hr : s.run = .running) : ∃ t, step s = .next t ∧ s.Ran t := by
  cases hp : s.ime && s.pending
  case true => exact ⟨_, s.step_dispatch hr hp, .dispatched⟩
  case false =>
    cases hl : s.fetchedInstr.illegalByte
    case none =>
      obtain ⟨u, hu, executed⟩ := step_executed hr hp hl
      exact ⟨_, hu, .executed executed⟩
    case some op => exact ⟨_, s.step_illegal hr hp rfl hl, .illegal op⟩

/-! The latches and the count after an instruction. -/

namespace Executed

variable {u : State} (h : s.Executed u)

include h

theorem par : u.par = s.par := by
  obtain ⟨w, wrote, same⟩ := h.wrote
  have keeps : w.par = s.par := by cases wrote <;> simp
  rw [same, keeps]

theorem totalCycles : u.totalCycles = s.totalCycles := by
  obtain ⟨w, wrote, same⟩ := h.wrote
  have keeps : w.totalCycles = s.totalCycles := by cases wrote <;> simp
  rw [same, keeps]

theorem devicesOk (ok : s.devicesOk) : u.devicesOk := by
  obtain ⟨w, wrote, same⟩ := h.wrote
  refine devicesOk_of_same same (wrote.ok ?_)
  rw [fetched_eq]
  exact ok

/-- IME after the commit (rules R346, R356). -/
theorem committed_ime :
    (u.commitIme s.imeArm).ime =
      if s.fetchedInstr = .di then false else if s.fetchedInstr = .reti then true else s.ime || s.imeArm := by
  simp only [commitIme_closed, h.control.ime, h.control.imeArm, fetched_ime, fetched_imeArm]
  by_cases di : s.fetchedInstr = .di
  · simp [di]
  · by_cases reti : s.fetchedInstr = .reti
    · simp [reti]
    · by_cases ei : s.fetchedInstr = .ei <;> simp [di, reti, ei]

/-- IME_ARM after the commit: set by EI where it was clear (rules R346, R356). -/
theorem committed_imeArm : (u.commitIme s.imeArm).imeArm = (decide (s.fetchedInstr = .ei) && !s.imeArm) := by
  simp only [commitIme_closed, h.control.imeArm, fetched_imeArm]
  by_cases disarms : s.fetchedInstr = .di ∨ s.fetchedInstr = .reti
  · have notEi : s.fetchedInstr ≠ .ei := by rcases disarms with e | e <;> simp [e]
    simp [disarms, notEi]
  · by_cases ei : s.fetchedInstr = .ei <;> simp [disarms, ei]

/-- EI stays in Running (rule R324). -/
theorem run_of_ei (hr : s.run = .running) (ei : s.fetchedInstr = .ei) : u.run = .running := by
  have run := h.control.run
  rwa [h.legal, ei, fetched_run, hr] at run

/-- A halt bug is armed by a HALT that does not halt, where the parameter has one (rules R31, R321). -/
theorem of_haltBug (hr : s.run = .running) (bug : u.haltBug = true) : u.run = .running ∧ s.par.haltBug = true := by
  have haltBug := h.control.haltBug
  rw [s.fetched_haltBug h.legal, bug, fetched_ime, fetched_pending, fetched_par] at haltBug
  simp only [Bool.false_or, Bool.true_eq, Bool.and_eq_true, decide_eq_true_eq, Bool.not_eq_true'] at haltBug
  obtain ⟨⟨halt, stays⟩, parameter⟩ := haltBug
  have run := h.control.run
  rw [h.legal, halt, fetched_run, fetched_ime, fetched_pending, stays, hr] at run
  exact ⟨run, parameter⟩

end Executed

/-! The invariant: the devices' part, which the laws keep, and the hidden CPU bits. -/

theorem inv_iff : s.Inv ↔ s.devicesOk ∧ s.cpuWf = true := by
  unfold Inv devicesOk memOk
  simp only [and_assoc]

theorem cpuWf_iff :
    s.cpuWf = true ↔
      (s.imeArm = true → s.run.fetching = true) ∧
        (s.haltBug = true → s.run.fetching = true ∧ s.par.haltBug = true) := by
  simp [cpuWf, ← Bool.not_eq_true, or_iff_not_imp_left]

theorem deviceAdvance_inv (h : s.Inv) : s.deviceAdvance.Inv := by
  obtain ⟨devices, cpu⟩ := inv_iff.1 h
  refine inv_iff.2 ⟨s.deviceAdvance_ok devices, ?_⟩
  rw [cpuWf_iff] at cpu ⊢
  simpa using cpu

/-- A core that goes to Running or Faulted, and changes nothing else but the wakes left, keeps the invariant. -/
theorem inv_of_fetching {t : State} (h : s.Inv) (same : t = { s with run := t.run, wakes := t.wakes })
    (fetching : t.run.fetching = true) : t.Inv := by
  obtain ⟨devices, cpu⟩ := inv_iff.1 h
  rw [cpuWf_iff] at cpu
  rw [same]
  exact inv_iff.2 ⟨devices, cpuWf_iff.2 ⟨fun _ => fetching, fun bug => ⟨fetching, (cpu.2 bug).2⟩⟩⟩

theorem dispatch_inv (p : BitVec 5) (h : s.Inv) : (s.dispatch p).Inv := by
  refine inv_iff.2 ⟨?_, cpuWf_iff.2 ⟨nofun, nofun⟩⟩
  have pushes := busWrite_ok _ (s.sp - 2#16) (loByte s.pc) (s.busWrite_ok (s.sp - 1#16) (hiByte s.pc) (inv_iff.1 h).1)
  unfold dispatch
  rw [push16_eq]
  exact pushes

theorem Executed.inv {u : State} (h : s.Executed u) (hr : s.run = .running) (inv : s.Inv) :
    (u.commitIme s.imeArm).Inv := by
  refine inv_iff.2 ⟨?_, cpuWf_iff.2 ⟨fun armed => ?_, fun bug => ?_⟩⟩
  · rw [commitIme_eq]
    exact h.devicesOk (inv_iff.1 inv).1
  · rw [h.committed_imeArm, Bool.and_eq_true, decide_eq_true_eq] at armed
    rw [commitIme_eq]
    simp only [h.run_of_ei hr armed.1, Run.fetching]
  · rw [commitIme_eq] at bug ⊢
    obtain ⟨running, parameter⟩ := h.of_haltBug hr bug
    simp only [running, h.par, parameter, Run.fetching, and_self]

theorem Ran.inv {t : State} (h : s.Ran t) (hr : s.run = .running) (inv : s.Inv) : t.Inv := by
  cases h with
  | dispatched => exact deviceAdvance_inv (dispatch_inv _ inv)
  | illegal op => exact inv_of_fetching inv rfl rfl
  | executed h => exact deviceAdvance_inv (h.inv hr inv)

/-- The core idles (rule R345). -/
theorem cost_inv (k : Nat) (h : s.Inv) : (s.cost k).Inv := h

end State

/-- Settles O60: by the run state, a running core by what its step can answer (`Ran.inv`), and a halted one that wakes as the
running core it becomes. -/
theorem stepKeepsInv : Obligations.StepKeepsInv := fun s t inv h => by
  cases hr : s.run
  case running =>
    obtain ⟨t', h', ran⟩ := State.step_ran hr
    obtain rfl : t = t' := Host.Outcome.next.inj (h.symm.trans h')
    exact ran.inv hr inv
  case halted =>
    cases hp : s.pending
    case false =>
      obtain rfl := Host.Outcome.next.inj ((s.step_idle hr hp).symm.trans h)
      exact State.deviceAdvance_inv (State.cost_inv 4 inv)
    case true =>
      obtain ⟨t', h', ran⟩ := State.step_ran s.wake_run
      obtain rfl : t = t' := Host.Outcome.next.inj (h.symm.trans ((s.step_wake hr hp).trans h'))
      exact ran.inv s.wake_run (State.inv_of_fetching inv rfl rfl)
  case stopped =>
    rw [s.step_stopped hr] at h
    split at h
    · cases h
    · obtain rfl := Host.Outcome.next.inj h
      exact State.inv_of_fetching inv rfl rfl
  case faulted op a =>
    rw [s.step_faulted hr] at h
    cases h

end Sys2Proof.Machine
end

section
/-! SUPPORT. The step's parts spelled out (rules R340 to R348, R358, R360): fetch and commit, the device advance, dispatch, the
idle and the waking core, and the statements about them. -/

namespace Sys2Proof.Machine

namespace State

variable (s : State)

theorem fetchedInstr_of_decode {i : Instr} {rest : List Byte} (hb : s.haltBug = false)
    (hd : decode [s.busRead s.pc, s.busRead (s.pc + 1#16), s.busRead (s.pc + 2#16)] = .ok (i, rest)) :
    s.fetchedInstr = i := by
  rw [fetchedInstr, hb]
  exact decodeBytes_of_decode hd

theorem fetched_of_noBug {i : Instr} (hb : s.haltBug = false) (hl : i.illegalByte = none) :
    s.fetched i = { s with pc := s.pc + BitVec.ofNat 16 i.length } := by
  rw [fetched, fetchLength, hl, hb]
  cases s
  cases hb
  rfl

/-- The first byte of an instruction is the byte at `pc`, under the halt bug too (rules R344, R347). -/
theorem illegalByte_fetchedInstr (h : s.busRead s.pc ∈ illegalBytes) :
    s.fetchedInstr.illegalByte = some (s.busRead s.pc) := by
  unfold fetchedInstr
  split
  · exact illegalByte_of_mem _ _ h
  · exact illegalByte_of_mem _ _ h

/-! The device advance. -/

/-- The state once Timer, PPU and DMA unit have ticked (rule R340). -/
def ticked : State :=
  Nat.repeat dmaTick s.cycles (Nat.repeat ppuTick s.cycles (Nat.repeat timerTick s.cycles s))

theorem deviceAdvance_eq : s.deviceAdvance = s.ticked.takeExt.countCycles := by
  unfold deviceAdvance ticked
  rw [timerAdvance_eq_repeat, ppuAdvance_eq_repeat, dmaAdvance_eq_repeat]

/-- The ticks leave the CPU, the collaborators and the host's part alone. -/
theorem ticked_same :
    s.ticked =
      { s with
        ifl := s.ticked.ifl, timer := s.ticked.timer, ppu := s.ticked.ppu, dma := s.ticked.dma
        mem := s.ticked.mem } := by
  have timer := timerAdvance_same s.cycles s
  have ppu := ppuAdvance_same s.cycles (timerAdvance s.cycles s)
  have dma := dmaAdvance_same s.cycles (ppuAdvance s.cycles (timerAdvance s.cycles s))
  rw [timerAdvance_eq_repeat] at timer ppu dma
  rw [ppuAdvance_eq_repeat] at ppu dma
  rw [dmaAdvance_eq_repeat] at dma
  unfold ticked
  rw [dma, ppu, timer]

/-- IF once the host's two request bits are OR-ed in (rule R358). -/
def requestedByHost (f : BitVec 5) (x : ExtInput) : BitVec 5 :=
  f ||| ((BitVec.ofBool x.serial).setWidth 5 <<< 3) ||| ((BitVec.ofBool x.joypad).setWidth 5 <<< 4)

theorem requestedByHost_bit (f : BitVec 5) (x : ExtInput) {j : Nat} (hj : j < 5) :
    (requestedByHost f x).getLsbD j =
      (f.getLsbD j || (decide (j = 3) && x.serial) || (decide (j = 4) && x.joypad)) := by
  obtain ⟨serial, joypad⟩ := x
  have bits : ∀ (f : BitVec 5) (serial joypad : Bool) (j : Fin 5),
      (requestedByHost f ⟨serial, joypad⟩).getLsbD j =
        (f.getLsbD j || (decide (j.val = 3) && serial) || (decide (j.val = 4) && joypad)) := by
    decide +kernel
  exact bits f serial joypad ⟨j, hj⟩

/-- The device advance: the ticks, then the host's inputs and the count. -/
theorem deviceAdvance_closed {x : ExtInput} {rest : List ExtInput}
    (hx : s.inputs = x :: rest ∨ (s.inputs = [] ∧ rest = [] ∧ x = { serial := false, joypad := false })) :
    s.deviceAdvance =
      { s.ticked with
        ifl := requestedByHost s.ticked.ifl x, inputs := rest, ext := extAdvance s.ext s.cycles
        totalCycles := s.totalCycles + s.cycles } := by
  have head : s.inputs.headD { serial := false, joypad := false } = x ∧ s.inputs.tail = rest := by
    rcases hx with e | ⟨e, rfl, rfl⟩ <;> rw [e] <;> exact ⟨rfl, rfl⟩
  obtain ⟨rfl, rfl⟩ := head
  rw [deviceAdvance_eq, ticked_same]
  rfl

/-! Dispatch. -/

/-- IF is read at its own address only. -/
theorem busRead_setIfl (f : BitVec 5) {b : Word} (hb : b ≠ 0xFF0F#16) : { s with ifl := f }.busRead b = s.busRead b := by
  unfold busRead
  cases target : targetOf b
  case ifl => exact absurd (targetOf_address target rfl) hb
  all_goals rfl

/-- A dispatch is seen where its pushes reach, and at IF (rule R360). -/
theorem busRead_dispatch (p : BitVec 5) {b : Word} (high : ¬ s.reaches (s.sp - 1#16) b)
    (low : ¬ s.reaches (s.sp - 2#16) b) (hb : b ≠ 0xFF0F#16) : (s.dispatch p).busRead b = s.busRead b := by
  have second := busWrite_frame (s.busWrite (s.sp - 1#16) (hiByte s.pc)) (s.sp - 2#16) (loByte s.pc) b
    (by rwa [reaches_busWrite])
  have pushes : (s.push16 s.pc).busRead b = s.busRead b := by
    rw [push16_eq]
    exact second.trans (s.busWrite_frame _ _ _ high)
  have acknowledged : State.sameDevices { s.push16 s.pc with ifl := (s.dispatch p).ifl } (s.dispatch p) := rfl
  rw [busRead_of_sameDevices acknowledged, busRead_setIfl _ _ hb, pushes]

/-- A core with something enabled pending steps as a running one, whether it is halted or not (rule R345). -/
theorem step_of_pending (hr : s.run = .running ∨ s.run = .halted) (hp : s.pending = true) : step s = step s.wake := by
  rcases hr with running | halted
  · have woken : s.wake = s := by rw [wake, ← running]
    rw [woken]
  · exact s.step_wake halted hp

end State

/-- Settles O33: `step_exec` where the bytes at `pc` decode, `commitIme_closed`, and `deviceAdvance_closed`. -/
theorem stepRunsDecoded : Obligations.StepRunsDecoded := by
  refine ⟨fun s t i rest hr hp hb hd hl hx => ?_, fun t => t.commitIme_closed, fun t x rest hx => ?_⟩
  · rw [← s.fetched_of_noBug hb hl] at hx
    exact s.step_exec hr hp (s.fetchedInstr_of_decode hb hd) hl hx
  · refine ⟨_, _, t.deviceAdvance_closed hx, fun j => State.requestedByHost_bit _ x, fun e => ?_, fun k st e => ?_⟩
    · rw [e, extAdvance]
    · rw [e, extAdvance]

/-- Settles O35: `step_illegal` at the byte at `pc`, and `step_faulted`. -/
theorem illegalStep : Obligations.IllegalStep := fun s =>
  ⟨fun hr hp hb => s.step_illegal hr hp rfl (s.illegalByte_fetchedInstr hb), fun _ _ => s.step_faulted⟩

/-- Settles O36: a halted core wakes first (`step_of_pending`); the dispatch serves the least pending source, and its pushes are
the two bus writes of `push16_eq`. -/
theorem dispatchStep : Obligations.DispatchStep := fun s i hr hime hi hpending hleast => by
  have pending : s.pending = true := s.pending_iff.2 ⟨i, hi, hpending⟩
  have least : State.leastSource s.pendingMask = i := by
    refine State.leastSource_of hi ?_ fun j hj => ?_
    · rw [s.pendingMask_bit hi, hpending]
    · rw [s.pendingMask_bit (by omega), hleast j hj]
  have step : step s = .next (s.wake.dispatch s.pendingMask).deviceAdvance := by
    rw [s.step_of_pending hr pending]
    refine s.wake.step_dispatch rfl ?_
    rw [s.wake_ime, hime]
    exact pending
  refine ⟨_, step, ?_, fun j hj => ?_, ?_, ?_, fun b high low => s.wake.busRead_dispatch s.pendingMask high low⟩
  all_goals simp only [State.dispatch, State.push16_eq, least, State.busWrite_wake, State.wake_sp, State.wake_pc]
  · rfl
  · exact acknowledge_bit _ hi hj
  · simp
  · simp

/-- Settles O37: `step_idle`, whose device advance leaves the CPU alone, and `step_wake`. -/
theorem haltedStep : Obligations.HaltedStep := fun s hr => by
  refine ⟨fun idle => ⟨s.step_idle hr idle, fun t ht => ?_⟩, s.step_wake hr⟩
  obtain rfl := Host.Outcome.next.inj ((s.step_idle hr idle).symm.trans ht)
  simp [hr]

/-- Settles O38: the two branches of `step_stopped`. -/
theorem stoppedStep : Obligations.StoppedStep := fun s hr => by
  rw [s.step_stopped hr]
  refine ⟨fun none => if_pos none, fun n some => ?_⟩
  rw [if_neg (by omega), State.joypadWake, some, Nat.add_sub_cancel]

/-- Settles O39: the latches of `Executed`, which the device advance leaves alone. -/
theorem imeRule : Obligations.ImeRule := fun s hr hp hl => by
  obtain ⟨u, hu, executed⟩ := State.step_executed hr hp hl
  refine ⟨_, hu, ?_, ?_⟩
  · rw [State.deviceAdvance_ime, executed.committed_ime]
  · rw [State.deviceAdvance_imeArm, executed.committed_imeArm]

namespace State

variable {s t : State}

/-- The count of a step of a running core (rules R342, R361). -/
theorem Ran.outcome (h : s.Ran t) :
    (∃ op, t = { s with run := .faulted op s.pc }) ∨
      (t.cycles ∈ [4, 8, 12, 16, 20, 24] ∧ t.totalCycles = s.totalCycles + t.cycles) := by
  cases h with
  | dispatched => exact .inr (by simp [dispatch])
  | illegal op => exact .inl ⟨op, rfl⟩
  | @executed u h =>
    refine .inr ?_
    rw [deviceAdvance_cycles, deviceAdvance_totalCycles, commitIme_eq]
    exact ⟨h.control.cycles h.legal, congrArg (· + u.cycles) h.totalCycles⟩

end State

/-- Settles O40: by the run state; a running core by what its step can answer. -/
theorem stepOutcomes : Obligations.StepOutcomes := fun s hr => by
  rcases hr with running | halted
  · obtain ⟨t, ht, ran⟩ := State.step_ran running
    exact ⟨t, ht, ran.outcome⟩
  · cases hp : s.pending
    case false => exact ⟨_, s.step_idle halted hp, .inr (by simp)⟩
    case true =>
      obtain ⟨t, ht, ran⟩ := State.step_ran s.wake_run
      exact ⟨t, (s.step_wake halted hp).trans ht, ran.outcome⟩

/-- The byte at IF as a number: three ones above the five requests (rule R34). -/
theorem iflByte_toNat (f : BitVec 5) : (0x7#3 ++ f : Byte).toNat = 0xE0 + f.toNat := by
  revert f
  decide

/-- Settles O47: the two registers on the bus, `request_bit` and `pending_iff`. -/
theorem interruptRegisters : Obligations.InterruptRegisters := fun s v i hi => by
  refine ⟨s.busWrite_ie v, s.busRead_ie, ⟨_, s.busWrite_ifl v, fun j hj => ?_⟩, iflByte_toNat s.ifl,
    ⟨_, rfl, fun j hj => request_bit s.ifl hi hj⟩, s.pending_iff⟩
  simp [hj]

end Sys2Proof.Machine
end

section
/-! SUPPORT. Reset (rules R450 to R453), and the statements about it. -/

namespace Sys2Proof.Machine

/-- The DMA unit at reset is within its invariant under either policy. -/
theorem Dma.wf_reset (policy : DmaPolicy) : Dma.reset.wf policy = true := by cases policy <;> rfl

theorem Ppu.wf_reset : Ppu.reset.wf = true := by decide

theorem resetWith_inv (par : Params) {m : Mem} (cart : Cart) (joy : Joypad) (ext : ExtIO) (inputs : List ExtInput)
    (wakes : Nat) (wf : m.wf = true) (placed : m.placed = true) :
    (State.resetWith par m cart joy ext inputs wakes).Inv :=
  ⟨wf, placed, Ppu.wf_reset, rfl, Dma.wf_reset _, rfl⟩

/-- No argument of the reset reaches the pairs. -/
theorem reset_pairs :
    State.reset.af = 0x01B0#16 ∧ State.reset.bc = 0x0013#16 ∧ State.reset.de = 0x00D8#16 ∧ State.reset.hl = 0x014D#16 := by
  decide

/-- Settles O58: the table of rule R451 read off the reset state; the divider's high byte is no argument. -/
theorem resetValues : Obligations.ResetValues := fun par m cart joy ext inputs wakes => by
  obtain ⟨af, bc, de, hl⟩ := reset_pairs
  refine ⟨af, bc, de, hl, rfl, rfl, rfl, rfl, rfl, rfl, rfl, rfl, fun a v h => ?_, rfl, rfl, rfl, rfl, fun y x hy hx => ?_,
    rfl, rfl, rfl, rfl, rfl, rfl, rfl, rfl, rfl, rfl, rfl⟩
  · simp only [List.mem_cons, Prod.mk.injEq, List.not_mem_nil, or_false] at h
    rcases h with h | h | h | h | h | h | h | h | h | h | h | h | h | h | h <;> obtain ⟨rfl, rfl⟩ := h
    all_goals simp [State.resetWith, Timer.reset, Ppu.reset, Dma.reset, Ppu.statRead, Ppu.lcdOn, Mode.code]
  · simp [State.resetWith, Ppu.reset, hy, hx]

/-- Settles O59: `resetWith_inv`, at the arguments of `State.reset` and at any. -/
theorem invAtReset : Obligations.InvAtReset :=
  ⟨resetWith_inv _ _ _ _ _ _ rfl rfl, fun par _ cart joy ext inputs wakes => resetWith_inv par cart joy ext inputs wakes⟩

end Sys2Proof.Machine
end

section
/-! SUPPORT. The Timer (rules R380 to R389): a tick by whether a reload is pending and whether the selected bit falls, the count
over many ticks, and the statements about the Timer. -/

namespace Sys2Proof.Machine

namespace Timer

variable (t : Timer)

theorem tick_of_idle (h : t.reloadPending = false) : t.tick = t.count := by
  rw [tick, reload, h]
  rfl

theorem tick_of_pending (h : t.reloadPending = true) : t.tick = count { t with tima := t.tma, reloadPending := false } := by
  rw [tick, reload, if_pos h]

theorem count_of_edge (h : t.edge = true) : t.count = increment { t with divctr := t.divctr + 1#16 } := if_pos h

theorem count_of_noEdge (h : t.edge = false) : t.count = { t with divctr := t.divctr + 1#16 } := by
  rw [count, h]
  rfl

/-- TAC as a number: bit 2 is the enable, the two bits below the clock select (rule R38). -/
theorem enable_iff : t.tac.getLsbD 2 = true ↔ 4 ≤ t.tac.toNat := by
  have bits : ∀ tac : BitVec 3, tac.getLsbD 2 = true ↔ 4 ≤ tac.toNat := by decide
  exact bits t.tac

theorem selectedBit_of {k : Nat} (h : (t.tac.toNat % 4, k) ∈ [(0, 9), (1, 3), (2, 5), (3, 7)]) : t.selectedBit = k := by
  have select : (t.tac.extractLsb' 0 2).toNat = t.tac.toNat % 4 := BitVec.extractLsb'_toNat 0 2 t.tac
  unfold selectedBit
  rw [select]
  simp only [List.mem_cons, Prod.mk.injEq, List.not_mem_nil, or_false] at h
  obtain ⟨e, rfl⟩ | ⟨e, rfl⟩ | ⟨e, rfl⟩ | ⟨e, rfl⟩ := h <;> rw [e] <;> rfl

/-- How often the selected bit falls in the next `n` ticks with the enable set: the divider's multiples of `2 ^ (b + 1)` among
the counts reached (rule R382). -/
def edges (n : Nat) : Nat :=
  if t.tac.toNat < 4 then 0
  else (t.divctr.toNat + n) / 2 ^ (t.selectedBit + 1) - t.divctr.toNat / 2 ^ (t.selectedBit + 1)

/-- The Timer after `n` ticks without an overflow. -/
def counted (n : Nat) : Timer :=
  { t with
    divctr := BitVec.ofNat 16 (t.divctr.toNat + n)
    tima := BitVec.ofNat 8 (t.tima.toNat + t.edges n) }

theorem counted_edge_iff (n : Nat) :
    (t.counted n).edge = true ↔ 4 ≤ t.tac.toNat ∧ (t.divctr.toNat + n + 1) % 2 ^ (t.selectedBit + 1) = 0 := by
  have tac : (t.counted n).tac = t.tac := rfl
  have bit : (t.counted n).selectedBit = t.selectedBit := rfl
  have divctr : (t.counted n).divctr.toNat = (t.divctr.toNat + n) % 65536 := BitVec.toNat_ofNat _ _
  rw [edge_iff, enable_iff, tac, bit, divctr]
  have range := t.selectedBit_mem
  generalize t.selectedBit = k at range ⊢
  simp only [List.mem_cons, List.not_mem_nil, or_false] at range
  rcases range with rfl | rfl | rfl | rfl <;> norm_num <;> omega

@[simp] theorem edges_zero : t.edges 0 = 0 := by simp [edges]

theorem edges_succ (n : Nat) : t.edges (n + 1) = t.edges n + if (t.counted n).edge = true then 1 else 0 := by
  have mono : t.divctr.toNat / 2 ^ (t.selectedBit + 1) ≤ (t.divctr.toNat + n) / 2 ^ (t.selectedBit + 1) :=
    Nat.div_le_div_right (Nat.le_add_right _ _)
  simp only [counted_edge_iff, edges]
  by_cases enabled : t.tac.toNat < 4
  · have off : ¬ 4 ≤ t.tac.toNat := by omega
    simp only [enabled, off, if_true, if_false, false_and]
  · have on : 4 ≤ t.tac.toNat := by omega
    simp only [enabled, on, if_false, true_and, ← Nat.dvd_iff_mod_eq_zero, ← Nat.add_assoc]
    rw [Nat.succ_div, Nat.sub_add_comm mono]

@[simp] theorem counted_zero : t.counted 0 = t := by simp [counted]

/-- A tick in the course of the count. -/
theorem counted_tick {n : Nat} (idle : t.reloadPending = false) (fits : t.tima.toNat + t.edges (n + 1) < 256) :
    (t.counted n).tick = t.counted (n + 1) := by
  have divctr : (t.counted n).divctr + 1#16 = BitVec.ofNat 16 (t.divctr.toNat + (n + 1)) :=
    (BitVec.ofNat_add _ _).symm
  have succ := t.edges_succ n
  rw [(t.counted n).tick_of_idle idle]
  cases edge : (t.counted n).edge
  · rw [edge, if_neg Bool.false_ne_true] at succ
    rw [count_of_noEdge _ edge, divctr, counted, counted, succ]
    rfl
  · rw [edge, if_pos rfl] at succ
    have below : (t.counted n).tima ≠ 0xFF#8 := fun full => by
      have value : (t.tima.toNat + t.edges n) % 256 = 255 := congrArg BitVec.toNat full
      omega
    have tima : (t.counted n).tima + 1#8 = BitVec.ofNat 8 (t.tima.toNat + t.edges (n + 1)) := by
      rw [succ]
      exact (BitVec.ofNat_add _ _).symm
    rw [count_of_edge _ edge, increment, if_neg below, divctr, tima]
    rfl

theorem divctr_succ_mod :
    (t.divctr + 1#16).toNat % 2 ^ (t.selectedBit + 1) = (t.divctr.toNat + 1) % 2 ^ (t.selectedBit + 1) := by
  have range := t.selectedBit_mem
  have small : t.selectedBit + 1 ≤ 16 := by
    simp only [List.mem_cons, List.not_mem_nil, or_false] at range
    omega
  rw [BitVec.toNat_add]
  exact Nat.mod_mod_of_dvd _ (Nat.pow_dvd_pow 2 small)

/-- The selected bit does not fall in the tick after the one in which it fell (rule R383). -/
theorem noEdge_of_rolledOver (h : t.divctr.toNat % 2 ^ (t.selectedBit + 1) = 0) : t.edge = false := by
  have large : 1 < 2 ^ (t.selectedBit + 1) := Nat.one_lt_two_pow (Nat.succ_ne_zero _)
  rw [← Bool.not_eq_true, edge_iff, Nat.add_mod, h, Nat.zero_add, Nat.mod_mod, Nat.mod_eq_of_lt large]
  simp

/-- The overflowing increment (rule R383). -/
theorem tick_of_overflow (idle : t.reloadPending = false) (edge : t.edge = true) (full : t.tima = 0xFF#8) :
    t.tick = { t with divctr := t.divctr + 1#16, tima := 0#8, reloadPending := true } := by
  rw [tick_of_idle t idle, count_of_edge t edge, increment, if_pos full]

/-- The tick of the reload, in which the selected bit does not fall (rules R381, R383). -/
theorem tick_of_reload (pending : t.reloadPending = true) (noEdge : t.edge = false) :
    t.tick = { t with divctr := t.divctr + 1#16, tima := t.tma, reloadPending := false } := by
  rw [tick_of_pending t pending]
  exact count_of_noEdge _ noEdge

end Timer

namespace State

variable {s : State}

theorem timerTick_of_idle (h : s.timer.reloadPending = false) : s.timerTick = { s with timer := s.timer.tick } := by
  rw [timerTick, h]
  rfl

theorem timerTick_of_pending (h : s.timer.reloadPending = true) :
    s.timerTick = { s with timer := s.timer.tick, ifl := s.ifl ||| (1#5 <<< 2) } := by
  rw [timerTick, if_pos h]
  rfl

theorem repeat_timerTick_counted (idle : s.timer.reloadPending = false) (n : Nat)
    (fits : s.timer.tima.toNat + s.timer.edges n < 256) :
    Nat.repeat timerTick n s = { s with timer := s.timer.counted n } := by
  induction n with
  | zero => rw [Timer.counted_zero]; rfl
  | succ n ih =>
    have grows := s.timer.edges_succ n
    have tick : timerTick { s with timer := s.timer.counted n } = { s with timer := (s.timer.counted n).tick } :=
      timerTick_of_idle idle
    rw [Nat.repeat, ih (by omega), tick, s.timer.counted_tick idle fits]

end State

/-- Settles O48, by induction on the ticks (`repeat_timerTick_counted`). -/
theorem timerCounts : Obligations.TimerCounts := fun s c k idle select => by
  intro d edges fits t
  have counts : s.timer.edges c = edges := by
    rw [Timer.edges, s.timer.selectedBit_of select]
  have ticks : t = { s with timer := s.timer.counted c } := State.repeat_timerTick_counted idle c (by rw [counts]; exact fits)
  rw [ticks, ← counts]
  refine ⟨rfl, BitVec.toNat_ofNat _ _, ?_, idle, rfl⟩
  rw [← counts] at fits
  exact (BitVec.toNat_ofNat _ _).trans (Nat.mod_eq_of_lt fits)

/-- Settles O49: the overflowing tick by `tick_of_overflow`; the divider has then just rolled over, so the next tick is
`tick_of_reload`. -/
theorem timerReload : Obligations.TimerReload := fun s k idle enabled select full rolls => by
  intro t u
  have bit := s.timer.selectedBit_of select
  have fall : (s.timer.divctr.toNat + 1) % 2 ^ (k + 1) = 0 := by
    rw [Nat.add_mod, rolls, Nat.add_mod_mod, Nat.sub_add_cancel Nat.one_le_two_pow, Nat.mod_self]
  have edge : s.timer.edge = true := by
    rw [Timer.edge_iff, bit]
    exact ⟨enabled, fall⟩
  have overflow : t = { s with timer := s.timer.tick } := State.timerTick_of_idle idle
  rw [s.timer.tick_of_overflow idle edge (BitVec.eq_of_toNat_eq full)] at overflow
  have pending : t.timer.reloadPending = true := by rw [overflow]
  have noEdge : t.timer.edge = false := by
    rw [overflow]
    refine Timer.noEdge_of_rolledOver _ ((s.timer.divctr_succ_mod).trans ?_)
    rw [bit, fall]
  have reload : u = { t with timer := t.timer.tick, ifl := t.ifl ||| (1#5 <<< 2) } := State.timerTick_of_pending pending
  rw [t.timer.tick_of_reload pending noEdge] at reload
  rw [reload, overflow]
  exact ⟨rfl, rfl, rfl, rfl, rfl, fun j hj => request_bit s.ifl (by omega) hj⟩

/-- Settles O50: the four writes of the register table. -/
theorem timerWrites : Obligations.TimerWrites := fun s v => by
  refine ⟨rfl, rfl, ?_, _, BitVec.toNat_setWidth 3 v, rfl⟩
  rw [State.busWrite_tma, Timer.writeTma, State.setTimer]
  cases inside : s.timer.reloadPending
  · rw [if_neg Bool.false_ne_true, if_neg Bool.false_ne_true, ← inside]
  · rfl

end Sys2Proof.Machine
end

section
/-! SUPPORT. The PPU (rules R400 to R417): its frame over many ticks, the two kinds of tick, and the statements about its modes,
requests, switch and window. -/

namespace Sys2Proof.Machine

/-! The mode that line and dot determine, read back (rule R404). -/

theorem modeAt_vblank_iff (ly dot : Nat) : modeAt ly dot = .vblank ↔ 144 ≤ ly := by
  by_cases blank : 144 ≤ ly
  · simp [modeAt, blank]
  · rw [modeAt, if_neg blank]
    repeat' split
    all_goals simp [blank]

theorem modeAt_visible {ly : Nat} (h : ly < 144) (dot : Nat) :
    (modeAt ly dot = .oamScan ↔ dot < 80) ∧ (modeAt ly dot = .pixelTransfer ↔ 80 ≤ dot ∧ dot < 252) ∧
      (modeAt ly dot = .hblank ↔ 252 ≤ dot) := by
  rw [modeAt, if_neg (by omega)]
  by_cases scan : dot < 80
  · simp only [if_pos scan, reduceCtorEq, true_iff, false_iff]
    omega
  · by_cases transfer : dot < 252
    · simp only [if_neg scan, if_pos transfer, reduceCtorEq, true_iff, false_iff]
      omega
    · simp only [if_neg scan, if_neg transfer, reduceCtorEq, true_iff, false_iff]
      omega

/-- Settles O51: the laws' `ppuAdvance_timeline`, an induction on the ticks that keeps `Ppu.wf`, and the mode read back from it. -/
theorem ppuTimeline : Obligations.PpuTimeline := fun s n on wf => by
  rw [← State.ppuAdvance_eq_repeat]
  obtain ⟨lcdc, wf', position⟩ := State.ppuAdvance_timeline n s on wf
  have on' : (State.ppuAdvance n s).ppu.lcdOn = true := by
    rw [Ppu.lcdOn, lcdc]
    exact on
  obtain ⟨dot, ly, mode⟩ := (State.ppu_wf_on _ on').1 wf'
  refine ⟨State.ppuAdvance_same n s, State.ppuAdvance_sameRegs n s, dot, ly, position, ?_, fun visible => ?_⟩
  · rw [mode]
    exact modeAt_vblank_iff _ _
  · rw [mode]
    exact modeAt_visible visible _

/-- Setting one request leaves the other bits, whatever the bit asked for (rule R353). -/
theorem request_getLsbD (f : BitVec 5) {i : Nat} (hi : i < 5) (j : Nat) :
    (f ||| (1#5 <<< i)).getLsbD j = (f.getLsbD j || decide (j = i)) := by
  by_cases hj : j < 5
  · exact request_bit f hi hj
  · have other : j ≠ i := by omega
    rw [BitVec.getLsbD_of_ge _ _ (by omega), BitVec.getLsbD_of_ge _ _ (by omega), decide_eq_false other]
    rfl

/-- A request under a condition. -/
theorem ite_request_getLsbD (c : Prop) [Decidable c] (f : BitVec 5) {i : Nat} (hi : i < 5) (j : Nat) :
    (if c then f ||| (1#5 <<< i) else f).getLsbD j = (f.getLsbD j || (decide c && decide (j = i))) := by
  by_cases h : c
  · rw [if_pos h, request_getLsbD f hi, decide_eq_true h, Bool.true_and]
  · rw [if_neg h, decide_eq_false h, Bool.false_and, Bool.or_false]

namespace State

theorem lineRequests_getLsbD (p : Ppu) (n : Byte) (f : BitVec 5) (j : Nat) :
    (lineRequests p n f).getLsbD j =
      (f.getLsbD j || (decide (n = 144#8) && decide (j = 0)) ||
        (decide (n = 144#8 ∧ p.stat.getLsbD 1 = true) && decide (j = 1)) ||
        (decide (n.toNat < 144 ∧ p.stat.getLsbD 2 = true) && decide (j = 1)) ||
        (decide (n = p.lyc ∧ p.stat.getLsbD 3 = true) && decide (j = 1))) := by
  unfold lineRequests
  simp only [ite_request_getLsbD _ _ (by decide : 0 < 5), ite_request_getLsbD _ _ (by decide : 1 < 5)]

variable (s : State)

theorem dot_succ_eq_iff (d : BitVec 9) {k : Nat} (hk : k < 511) : d + 1#9 = BitVec.ofNat 9 (k + 1) ↔ d.toNat = k := by
  have range := d.isLt
  rw [← BitVec.toNat_inj, BitVec.toNat_add, BitVec.toNat_ofNat, BitVec.toNat_ofNat]
  omega

/-! The two kinds of tick with the LCD on. -/

/-- The tick renders: the last dot of mode 3 of a visible line (rules R403, R413). -/
def renders : Bool := decide (s.ppu.dot.toNat = 251) && decide (s.ppu.ly.toNat < 144)

/-- What a tick inside a line does to IF, the window and the framebuffer (rules R403, R406). -/
structure InLine (t : State) : Prop where
  ifl : ∀ j, t.ifl.getLsbD j = (s.ifl.getLsbD j || (s.ppu.stat.getLsbD 0 && s.renders && decide (j = 1)))
  winLatch : t.ppu.winLatch = s.ppu.winLatch
  rendered : s.renders = true → t.ppu.fb = s.renderLine.ppu.fb ∧ t.ppu.winLine = s.renderLine.ppu.winLine
  kept : s.renders = false → t.ppu.fb = s.ppu.fb ∧ t.ppu.winLine = s.ppu.winLine

variable {s}

theorem ppuTick_inLine (on : s.ppu.lcdOn = true) (hd : s.ppu.dot.toNat < 455) : s.InLine s.ppuTick := by
  rw [s.ppuTick_dot on hd]
  have fields := s.ppuDot_fields
  have last : (s.ppu.ly.toNat < 144 ∧ s.ppu.dot + 1#9 = 252#9) ↔ s.renders = true := by
    have dot : s.ppu.dot + 1#9 = 252#9 ↔ s.ppu.dot.toNat = 251 := dot_succ_eq_iff s.ppu.dot (by decide)
    rw [dot, renders, Bool.and_eq_true, decide_eq_true_iff, decide_eq_true_iff, and_comm]
  have ifl := fields.ifl
  have fb := fields.fb
  have winLine := fields.winLine
  simp only [last] at ifl fb winLine
  refine ⟨fun j => ?_, fields.winLatch, fun h => ?_, fun h => ?_⟩
  · rw [ifl, ite_request_getLsbD _ _ (by decide)]
    simp [Bool.and_comm]
  · simp [fb, winLine, h]
  · simp [fb, winLine, h]

theorem ppuTick_lineEnd (on : s.ppu.lcdOn = true) (hd : s.ppu.dot.toNat = 455) :
    s.LineFields (nextLine s.ppu.ly) s.ppuTick := by
  obtain ⟨u, tick, hu⟩ := s.ppuTick_line on hd
  have fields := u.ppuLineEnd_fields (by rw [hu])
  rw [tick]
  subst hu
  exact ⟨fields.dot, fields.ly, fields.lcdc, fields.mode, fields.ifl, fields.winLatch, fields.winLine, fields.fb, fields.same⟩

end State

/-- Settles O52: bit by bit, by whether the tick ends the line (`ppuTick_lineEnd`, `ppuTick_inLine`). -/
theorem ppuRequests : Obligations.PpuRequests := fun s next on wf hnext => by
  intro lineEnd t
  obtain ⟨dot, ly, -⟩ := (State.ppu_wf_on _ on).1 wf
  by_cases last : s.ppu.dot.toNat = 455
  · have ended : lineEnd = true := decide_eq_true last
    have line : (State.nextLine s.ppu.ly).toNat = next := (State.nextLine_toNat _ ly).trans hnext.symm
    have vblank : State.nextLine s.ppu.ly = 144#8 ↔ next = 144 := by
      rw [← BitVec.toNat_inj, line]
      rfl
    have coincidence : State.nextLine s.ppu.ly = s.ppu.lyc ↔ next = s.ppu.lyc.toNat := by
      rw [← BitVec.toNat_inj, line]
    have bits := fun j => State.lineRequests_getLsbD s.ppu (State.nextLine s.ppu.ly) s.ifl j
    rw [← (State.ppuTick_lineEnd on last).ifl] at bits
    simp only [vblank, coincidence, line] at bits
    refine ⟨(bits 0).trans ?_, (bits 1).trans ?_, fun j hj => (bits j).trans ?_⟩
    · simp [ended]
    · simp [ended, last, Bool.and_comm]
    · have other : j ≠ 0 ∧ j ≠ 1 := by omega
      simp [other]
  · have inside : lineEnd = false := decide_eq_false last
    have bits := (State.ppuTick_inLine on (by omega)).ifl
    refine ⟨(bits 0).trans ?_, (bits 1).trans ?_, fun j hj => (bits j).trans ?_⟩
    · simp [inside]
    · simp [inside, State.renders, Bool.and_assoc]
    · have other : j ≠ 1 := by omega
      simp [other]

namespace Ppu

variable {p : Ppu} {v : Byte}

/-- LCD off (rule R410). -/
theorem writeLcdc_off (on : p.lcdOn = true) (off : v.getLsbD 7 = false) :
    p.writeLcdc v = { p with lcdc := v, ly := 0, dot := 0, mode := .hblank } := by
  simp only [writeLcdc, on, off, Bool.not_false, Bool.and_self, if_true]

/-- LCD on (rule R411). -/
theorem writeLcdc_on (off : p.lcdOn = false) (on : v.getLsbD 7 = true) :
    p.writeLcdc v =
      { p with
        lcdc := v, ly := 0, dot := 0, mode := .oamScan, winLine := 0, winLatch := decide (p.wy.toNat = 0) } := by
  have latch : (p.wy == 0#8) = decide (p.wy.toNat = 0) := by
    rw [Bool.eq_iff_iff, beq_zero_iff_toNat, decide_eq_true_iff]
  simp only [writeLcdc, on, off, latch, Bool.not_false, Bool.false_and, Bool.and_self, Bool.false_eq_true, if_true, if_false]

theorem writeLcdc_plain (same : p.lcdOn = v.getLsbD 7) : p.writeLcdc v = { p with lcdc := v } := by
  simp only [writeLcdc, same, Bool.and_not_self, Bool.not_and_self, Bool.false_eq_true, if_false]

end Ppu

/-- Settles O53: the three branches of `writeLcdc`, and the laws' `ppuAdvance_off`. -/
theorem lcdSwitch : Obligations.LcdSwitch := fun s v => by
  refine ⟨fun on off => ?_, fun off on => ?_, fun same => ?_, fun off n => ?_⟩
  · rw [State.busWrite_lcdc, Ppu.writeLcdc_off on off]
    rfl
  · rw [State.busWrite_lcdc, Ppu.writeLcdc_on off on]
    rfl
  · rw [State.busWrite_lcdc, Ppu.writeLcdc_plain same]
    rfl
  · rw [← State.ppuAdvance_eq_repeat]
    exact State.ppuAdvance_off n s off

/-- Settles O54: the window's fields at the end of a line and inside it. -/
theorem windowLatch : Obligations.WindowLatch := fun s next on wf hnext => by
  obtain ⟨dot, ly, -⟩ := (State.ppu_wf_on _ on).1 wf
  have line : (State.nextLine s.ppu.ly).toNat = next := (State.nextLine_toNat _ ly).trans hnext.symm
  refine ⟨fun last => ?_, fun inside => (State.ppuTick_inLine on (by omega)).winLatch⟩
  have fields := State.ppuTick_lineEnd on last
  have first : State.nextLine s.ppu.ly = 0#8 ↔ next = 0 := by
    rw [← BitVec.toNat_inj, line]
    rfl
  have reached : State.nextLine s.ppu.ly = s.ppu.wy ↔ next = s.ppu.wy.toNat := by
    rw [← BitVec.toNat_inj, line]
  refine ⟨?_, ?_⟩
  · rw [fields.winLatch]
    simp only [ne_eq, first, reached]
  · rw [fields.winLine]
    exact if_congr first rfl rfl

end Sys2Proof.Machine
end

section
/-! SUPPORT. The rendered line (rules R413 to R421): the line and the window counter that the pipeline leaves, the bits of a tile's
pixel, and the statement about rendering. -/

namespace Sys2Proof.Machine

/-- The pixel of two plane bits (rule R415). -/
theorem planes_toNat (hi lo : Bool) : (BitVec.ofBool hi ++ BitVec.ofBool lo : BitVec 2).toNat = 2 * hi.toNat + lo.toNat := by
  cases hi <;> cases lo <;> rfl

theorem tilePixel_toNat (mem : Mem) (lcdc : Byte) (map : Nat) (col row : Byte) :
    (tilePixel mem lcdc map col row).toNat =
      let idx := mem.read (map + 32 * (row.toNat / 8) + col.toNat / 8)
      let plane := tileBase (lcdc.getLsbD 4) idx + 2 * (row.toNat % 8)
      let b := 7 - col.toNat % 8
      2 * ((mem.read (plane + 1)).getLsbD b).toNat + ((mem.read plane).getLsbD b).toNat := by
  rw [tilePixel, Nat.mul_comm (row.toNat / 8) 32]
  exact planes_toNat _ _

namespace State

variable {s : State}

/-- The window was drawn where it is enabled, latched and begins on the line (rule R420). -/
theorem pipeEnd_drew :
    s.pipeEnd.drew = (s.ppu.lcdc.getLsbD 5 && s.ppu.winLatch && decide (s.ppu.wx.toNat ≤ 166)) := by
  obtain ⟨inv, p, d⟩ := s.pipeEnd_inv
  have begins : (decide (s.ppu.wx.toNat < 167) || (decide (s.ppu.wx.toNat = 0) && decide (0 < s.ppu.scx.toNat % 8))) =
      decide (s.ppu.wx.toNat ≤ 166) := by
    rw [Bool.eq_iff_iff]
    simp only [Bool.or_eq_true, Bool.and_eq_true, decide_eq_true_eq]
    omega
  rw [inv.drew, inv.win, p, d, begins, Ppu.eligible]

theorem renderLine_winLine :
    s.renderLine.ppu.winLine =
      if s.ppu.lcdc.getLsbD 5 && s.ppu.winLatch && decide (s.ppu.wx.toNat ≤ 166) then s.ppu.winLine + 1#8
      else s.ppu.winLine := by
  rw [← pipeEnd_drew]
  rfl

theorem renderLine_fb : s.renderLine.ppu.fb = s.ppu.fb.setIfInBounds s.ppu.ly.toNat s.pipeEnd.line := rfl

theorem renderLine_row (visible : s.ppu.ly.toNat < 144) : s.renderLine.ppu.fb[s.ppu.ly.toNat]? = some s.pipeEnd.line := by
  rw [renderLine_fb, Vector.getElem?_setIfInBounds, if_pos rfl, if_pos visible]

theorem renderLine_other {y : Nat} (hy : y ≠ s.ppu.ly.toNat) : s.renderLine.ppu.fb[y]? = s.ppu.fb[y]? := by
  rw [renderLine_fb, Vector.getElem?_setIfInBounds, if_neg hy.symm]

/-- Every pixel has been put out when the pipeline ends (rule R421). -/
theorem pipeEnd_line {x : Nat} (hx : x < 160) :
    s.pipeEnd.line[x]? = some (s.objOverlay (s.closedPixel x) x s.ppu.ly.toNat) := by
  obtain ⟨inv, p, -⟩ := s.pipeEnd_inv
  rw [inv.line x hx, if_pos (by omega)]

theorem objOverlay_background (h : s.par.overlay = .background) (px : BitVec 2) (x y : Nat) :
    s.objOverlay px x y = px := by
  rw [objOverlay, h]

theorem objOverlay_device {k : Nat} (h : s.par.overlay = .device k) (px : BitVec 2) (x y : Nat) :
    s.objOverlay px x y = Config.objOverlay k px x y s.oamView s.vramView s.ppu.lcdc := by
  rw [objOverlay, h]

/-- A tick that does not render leaves the framebuffer, and the window counter inside a line (rules R403, R417). -/
theorem ppuTick_notRendering (on : s.ppu.lcdOn = true) (hd : s.ppu.dot.toNat < 456) (no : s.renders = false) :
    s.ppuTick.ppu.fb = s.ppu.fb ∧ (s.ppu.dot.toNat ≠ 455 → s.ppuTick.ppu.winLine = s.ppu.winLine) := by
  by_cases last : s.ppu.dot.toNat = 455
  · exact ⟨(ppuTick_lineEnd on last).fb, fun inside => absurd last inside⟩
  · obtain ⟨fb, winLine⟩ := (ppuTick_inLine on (by omega)).kept no
    exact ⟨fb, fun _ => winLine⟩

theorem renders_iff : s.renders = true ↔ s.ppu.dot.toNat = 251 ∧ s.ppu.ly.toNat < 144 := by
  rw [renders, Bool.and_eq_true, decide_eq_true_iff, decide_eq_true_iff]

end State

/-- Settles O55: the laws' pipeline invariant at its end (`pipeEnd_line`, `pipeEnd_drew`), the tile's address by `tileBase_eq`,
the overlay's two kinds, and the two kinds of tick. -/
theorem renderClosedForm : Obligations.RenderClosedForm := by
  refine ⟨fun s visible => ⟨fun x hx => ?_, fun y => State.renderLine_other, State.renderLine_winLine⟩,
    fun mem lcdc map col row => ?_,
    fun s px x y => ⟨fun h => State.objOverlay_background h px x y, fun k h => ?_⟩, fun s on wf => ?_⟩
  · rw [State.renderLine_row visible]
    exact State.pipeEnd_line hx
  · rw [tilePixel_toNat]
    simp only [tileBase_eq]
  · exact ⟨s.oamView, s.vramView, State.objOverlay_device h px x y, s.oamView_length, s.vramView_length,
      fun i => s.oamView_getElem?, fun i => s.vramView_getElem?⟩
  · obtain ⟨dot, -, -⟩ := (State.ppu_wf_on _ on).1 wf
    refine ⟨fun last visible => ?_, fun other => State.ppuTick_notRendering on dot ?_⟩
    · exact (State.ppuTick_inLine on (by omega)).rendered (State.renders_iff.2 ⟨last, visible⟩)
    · rw [← Bool.not_eq_true, State.renders_iff]
      omega

end Sys2Proof.Machine
end
